-- ==== Sys2Proof/Word.lean ====
section
/-! DEFINITION. The word types of the block: bytes, 24-bit flash addresses (R51) and the 32-bit request
command word (R81). -/

namespace Sys2Proof

/-- A byte has 8 bits, bit 0 the least significant (R7). -/
abbrev Byte := BitVec 8

/-- A flash address: a 24-bit byte offset into the device's linear address space (R51). -/
abbrev Addr := BitVec 24

/-- The request command word `CMDW` (R81). -/
abbrev Word := BitVec 32

end Sys2Proof
end

