-- ==== Sys2Proof/Config.lean ====
section
/-! DEFINITION. What is fixed by the source (named constants), what an implementation chooses (the parameters
of R6, a record that every state carries unchanged), what the agents outside the block choose (one `Answer` for
each event), and the free values (constants without a body). -/

namespace Sys2Proof

/-! ## Constants the source fixes (R6) -/

/-- `ADDR_BITS`: the width of a flash address (R6, R51). -/
def Config.addrBits : Nat := 24

/-- `ID_BYTES`: bytes the read-identity command requests (R6, R132). -/
def Config.idBytes : Nat := 3

/-- `POLL_BOUND`: the most status reads one WAIT_IDLE makes (R6, R153). -/
def Config.pollBound : Nat := 500

/-- `BUSY_BIT`: the bit of status register 1 that is the busy bit (R6, R34). -/
def Config.busyBit : Nat := 0

/-- `OPC_RDID`: the one flash opcode whose value the source gives (R6, R90). -/
def Config.opcRdid : Byte := 0x9F

/-- `ERASED_BYTE`: every byte of an erased region (R6, R71). -/
def Config.erasedByte : Byte := 0xFF

/-- `SECTOR_BYTES` (R6, R58). -/
def Config.sectorBytes : Nat := 4096

/-- `BLOCK32_BYTES` (R6, R58). -/
def Config.block32Bytes : Nat := 32768

/-- `BLOCK64_BYTES` (R6, R58). -/
def Config.block64Bytes : Nat := 65536

/-! ## Parameters (R6) -/

/-- The two transport variants (R2 (b), R21: `Spi = 0`, `Qspi = 1`). -/
inductive Mode where
  | spi
  | qspi
  deriving DecidableEq, Repr, Inhabited

/-- The numeric value of the mode tag (R21). -/
def Mode.bit : Mode → BitVec 1
  | .spi => 0
  | .qspi => 1

/-- A 3-byte chip identity, in the order the bytes arrive (R55). -/
structure Ident where
  manufacturer : Byte
  memoryType : Byte
  capacity : Byte
  deriving DecidableEq, Repr, Inhabited

/-- One entry of the geometry registry, `FlashGeometry` (R30). -/
structure Geometry where
  name : String
  ident : Ident
  chipSize : Nat
  blockSize : Nat
  sectorSize : Nat
  pageSize : Nat
  deriving DecidableEq, Repr, Inhabited

/-- The ten flash opcodes whose values the source leaves open (R90). -/
structure Opcodes where
  rdsr1 : Byte
  wren : Byte
  wrdi : Byte
  pp : Byte
  se : Byte
  be32 : Byte
  be64 : Byte
  ce : Byte
  read : Byte
  fread : Byte
  deriving DecidableEq, Repr, Inhabited

/-- The open parameters of R6. A parameter is never state: no step changes the record a state carries. -/
structure Params where
  /-- `MODE_STRAP`: the transport variant INIT binds (R140). -/
  modeStrap : Mode
  /-- `GEOM_TABLE` (R30). -/
  geomTable : List Geometry
  /-- `OPC_*` other than `OPC_RDID` (R90). -/
  opcodes : Opcodes
  /-- `POLL_DELAY_US` (R156). -/
  pollDelayUs : Nat
  /-- `FR_DUMMY_BYTES` (R97). -/
  frDummyBytes : Nat
  /-- `LEN_BITS` (R28). -/
  lenBits : Nat
  deriving DecidableEq, Repr, Inhabited

/-- The general-knowledge default opcodes of R90 (PRESUMED, notes/assumptions/2.md). -/
def Opcodes.default : Opcodes :=
  { rdsr1 := 0x05, wren := 0x06, wrdi := 0x04, pp := 0x02, se := 0x20, be32 := 0x52, be64 := 0xD8,
    ce := 0xC7, read := 0x03, fread := 0x0B }

/-- The example configuration of 95_test_vectors.md section 2 (DESIGN CHOICE, notes/assumptions/2.md): the
parameters `State.reset` carries, because a state must carry some. -/
def Params.default : Params :=
  { modeStrap := .spi
    geomTable :=
      [ ⟨"EX0", ⟨0x01, 0x02, 0x03⟩, 1048576, 65536, 4096, 256⟩,
        ⟨"EX1", ⟨0x11, 0x22, 0x33⟩, 16777216, 65536, 4096, 256⟩,
        ⟨"EX2", ⟨0x11, 0x22, 0x34⟩, 2097152, 65536, 4096, 512⟩ ]
    opcodes := Opcodes.default
    pollDelayUs := 50
    frDummyBytes := 0
    lenBits := 32 }

/-! ## What the outside agents choose -/

/-- A moment at which the device may complete its work (R71: "at a later moment of the device's own choosing"). -/
structure Completion where
  /-- Whether the device completes now. -/
  now : Bool
  /-- The write-enable latch after that completion (R74 (d)). -/
  wel : Bool
  deriving DecidableEq, Repr, Inhabited

/-- Everything the outside agents choose at one event (R12). At a delay or a log call only `after` is looked at, at
the transport hook `ok` too. The unconstrained oracle uses `ok` and `rx` alone; the reference device uses the rest
where R71, R74 and R118 leave it a choice. -/
structure Answer where
  /-- The bus driver's result: `Ok` or `Fail` (R12, R117). -/
  ok : Bool
  /-- The bytes the oracle returns; in the reference device the bytes that stand wherever R72, R74 or R118 says
  "any value". -/
  rx : List Byte
  /-- Whether the device completes its work before it receives this exchange's command (R71). -/
  before : Completion
  /-- Whether the device completes its work at the end of this event (R71), so also during a delay (R156). -/
  after : Completion
  /-- Whether the device takes a command where that is unspecified: a failed exchange (R118), a busy device
  (R74 (b)), a range outside the device (R74 (c)). -/
  took : Bool
  /-- The latch after a WREN or WRDI that reaches a busy device (R74 (b)). -/
  welOpen : Bool
  /-- How many data bytes of a program a failed exchange delivered (R118, "part of it"). -/
  part : Nat
  deriving DecidableEq, Repr, Inhabited

/-! ## Free values (notes/assumptions/4.md) -/

/-- The choices of the outside agents once the answers a state lists are used up (R12: any result, any bytes). -/
opaque Config.freeAnswer : Nat → Answer

/-- Byte `i` of a list whose bytes the spec leaves open: returned bytes nobody listed (R12, R118), bytes of a
host buffer shorter than the request's length (R233 (b)). -/
opaque Config.freeByte : Nat → Nat → Byte

/-- What a program leaves in a byte that was not erased (R74 (a)), by moment and address. -/
opaque Config.freeCell : Nat → Nat → Byte

/-- What stands in the bytes touched by a command with an unspecified effect (R74 (b), (c)), by moment. -/
opaque Config.freeMem : Nat → List (Nat × Byte)

end Sys2Proof
end

