-- ==== Sys2Proof/Syntax.lean ====
section
/-! DEFINITION. The instructions: one constructor for each row of spec/opcode_table.json, and the form in which
a request stands at the block's request port (R81, R82, R96). -/

namespace Sys2Proof

/-- The eleven bus commands (R90, R91). -/
inductive BusOp where
  | readId
  | readStatus1
  | writeEnable
  | writeDisable
  | pageProgram
  | sectorErase
  | blockErase32
  | blockErase64
  | chipErase
  | read
  | fastRead
  deriving DecidableEq, Repr, Inhabited

/-- The commands the bracket WRITE_SEQ carries (R160, R162 to R167). -/
inductive BracketCmd where
  | pageProgram
  | sectorErase
  | blockErase32
  | blockErase64
  | chipErase
  deriving DecidableEq, Repr, Inhabited

/-- The bus command of a bracketed command. -/
def BracketCmd.busOp : BracketCmd → BusOp
  | .pageProgram => .pageProgram
  | .sectorErase => .sectorErase
  | .blockErase32 => .blockErase32
  | .blockErase64 => .blockErase64
  | .chipErase => .chipErase

/-- The instructions of the block, one constructor per row of the opcode table. A host request carries the
address and length fields of its words even where the operation ignores them, because they are latched (R81).
A bus row carries no operand: its descriptor is built from the operand registers (R91). -/
inductive Instr where
  /-- INIT, host code 0x0 (R131). -/
  | init (addr : Addr) (len : Nat)
  /-- READ, host code 0x1 (R176). -/
  | read (addr : Addr) (len : Nat)
  /-- FAST_READ, host code 0x2 (R177). -/
  | fastRead (addr : Addr) (len : Nat)
  /-- PAGE_PROGRAM, host code 0x3, with the host's data buffer (R162). -/
  | pageProgram (addr : Addr) (len : Nat) (buf : List Byte)
  /-- SECTOR_ERASE, host code 0x4 (R164). -/
  | sectorErase (addr : Addr) (len : Nat)
  /-- BLOCK_ERASE_32, host code 0x5 (R165). -/
  | blockErase32 (addr : Addr) (len : Nat)
  /-- BLOCK_ERASE_64, host code 0x6 (R166). -/
  | blockErase64 (addr : Addr) (len : Nat)
  /-- ILLEGAL: an operation code 0x7 to 0xF, or reserved bits that are not 0 (R92, R93). -/
  | illegal (cmdw : Word)
  /-- READ_ID (R132). -/
  | readId
  /-- READ_STATUS1 (R150). -/
  | readStatus1
  /-- WRITE_ENABLE (R151). -/
  | writeEnable
  /-- WRITE_DISABLE (R152). -/
  | writeDisable
  /-- PAGE_PROGRAM.cmd, the command of the ISSUE_COMMAND state of PAGE_PROGRAM (R91, R162). -/
  | pageProgramCmd
  /-- SECTOR_ERASE.cmd (R91, R164). -/
  | sectorEraseCmd
  /-- BLOCK_ERASE_32.cmd (R91, R165). -/
  | blockErase32Cmd
  /-- BLOCK_ERASE_64.cmd (R91, R166). -/
  | blockErase64Cmd
  /-- CHIP_ERASE, a whole bracketed micro-operation (R167). -/
  | chipErase
  /-- READ.cmd, the command of the ISSUE_COMMAND state of READ (R91, R176). -/
  | readCmd
  /-- FAST_READ.cmd (R91, R177). -/
  | fastReadCmd
  /-- WAIT_IDLE, the polling loop (R153). -/
  | waitIdle
  /-- WRITE_SEQ, the bracket (R160). -/
  | writeSeq (cmd : BracketCmd)
  deriving DecidableEq, Repr, Inhabited

/-- The two names without an encoding of their own (R96). -/
inductive Pseudo where
  | waitIdle
  | writeSeq (cmd : BracketCmd)
  deriving DecidableEq, Repr, Inhabited

/-- What can stand at the request port: a host request `CMDW`, `LENW`, buffer (R81), or a micro-operation on the
test port that 92_eei_decisions.md D25 allows a model (notes/assumptions/6.md). -/
inductive Request where
  | host (cmdw : Word) (lenw : Nat) (buf : List Byte)
  | micro (opc : Byte)
  | pseudo (op : Pseudo)
  deriving DecidableEq, Repr, Inhabited

end Sys2Proof
end

