-- ==== Sys2Proof/WellFormed.lean ====
section
/-! DEFINITION. Well-formedness: of the parameters (R6, R31, R90; an ill-formed set is refused by the machine)
and of an instruction (its fields fit the widths the request words give them, R28, R81). -/

namespace Sys2Proof

/-- A page size is a power of two, at least 1 and at most `2^24` (R31 (b), (d)). -/
def pageSizeOk (n : Nat) : Bool := (List.range 25).any fun k => n == 2 ^ k

/-- Well-formedness of `GEOM_TABLE` (R31): not empty, page sizes as above, no identity twice. -/
def geomTableOk (t : List Geometry) : Bool :=
  !t.isEmpty && t.all (fun e => pageSizeOk e.pageSize) && decide (t.map Geometry.ident).Nodup

/-- The eleven opcode values in the order of R90's table. -/
def Opcodes.all (o : Opcodes) : List Byte :=
  [Config.opcRdid, o.rdsr1, o.wren, o.wrdi, o.pp, o.se, o.be32, o.be64, o.ce, o.read, o.fread]

/-- The eleven values are pairwise different (R90). -/
def Opcodes.distinct (o : Opcodes) : Bool := decide o.all.Nodup

/-- What R6, R31 and R90 require of the parameters. -/
def Params.wf (p : Params) : Bool :=
  geomTableOk p.geomTable && p.opcodes.distinct && decide (10 ≤ p.pollDelayUs) && decide (p.pollDelayUs ≤ 99)
    && decide (25 ≤ p.lenBits)

/-- A command word the block does not accept as an operation: `OP` in 0x7 to 0xF, or `RSV` not 0 (R92, R93). -/
def illegalWord (w : Word) : Bool :=
  decide (7 ≤ (w.extractLsb' 28 4).toNat) || decide (w.extractLsb' 24 4 ≠ 0)

/-- A length fits the length word (R28, R81). -/
def lenOk (p : Params) (n : Nat) : Bool := decide (n < 2 ^ p.lenBits)

/-- An instruction is well-formed for given parameters: its length fits `LENW`, the data buffer of PAGE_PROGRAM
has the length the request states (R233 (b)), and ILLEGAL stands only for an illegal word. -/
def Instr.wf (p : Params) : Instr → Bool
  | .init _ n => lenOk p n
  | .read _ n => lenOk p n
  | .fastRead _ n => lenOk p n
  | .pageProgram _ n buf => lenOk p n && decide (buf.length = n)
  | .sectorErase _ n => lenOk p n
  | .blockErase32 _ n => lenOk p n
  | .blockErase64 _ n => lenOk p n
  | .illegal w => illegalWord w
  | .readId => true
  | .readStatus1 => true
  | .writeEnable => true
  | .writeDisable => true
  | .pageProgramCmd => true
  | .sectorEraseCmd => true
  | .blockErase32Cmd => true
  | .blockErase64Cmd => true
  | .chipErase => true
  | .readCmd => true
  | .fastReadCmd => true
  | .waitIdle => true
  | .writeSeq _ => true

end Sys2Proof
end

