-- ==== Sys2Proof/Decode.lean ====
section
/-! DEFINITION. From a request at the port to an instruction, total, rejecting by name (R81, R82, R90, R92, R93);
then the encoder, from the same tables; then the decoder on a table word. -/

namespace Sys2Proof

/-! ## Fields of the command word (R81) -/

/-- `CMDW[31:28]`, the operation code. -/
def cmdwOp (w : Word) : BitVec 4 := w.extractLsb' 28 4

/-- `CMDW[27:24]`, reserved. -/
def cmdwRsv (w : Word) : BitVec 4 := w.extractLsb' 24 4

/-- `CMDW[23:0]`, the flash address. -/
def cmdwAddr (w : Word) : Addr := w.extractLsb' 0 24

/-- A command word from its fields, reserved bits 0 (R81). -/
def mkCmdw (op : BitVec 4) (a : Addr) : Word := (op ++ (0 : BitVec 4)) ++ a

/-! ## Flash opcodes (R90) -/

/-- The opcode byte of each bus command (R90). -/
def opcodeOf (o : Opcodes) : BusOp → Byte
  | .readId => Config.opcRdid
  | .readStatus1 => o.rdsr1
  | .writeEnable => o.wren
  | .writeDisable => o.wrdi
  | .pageProgram => o.pp
  | .sectorErase => o.se
  | .blockErase32 => o.be32
  | .blockErase64 => o.be64
  | .chipErase => o.ce
  | .read => o.read
  | .fastRead => o.fread

/-- The bus commands in the order of R90's table. -/
def busOps : List BusOp :=
  [.readId, .readStatus1, .writeEnable, .writeDisable, .pageProgram, .sectorErase, .blockErase32,
   .blockErase64, .chipErase, .read, .fastRead]

/-- The bus command an opcode byte stands for, if it is one of the eleven (R90, R93). -/
def busOpOf (o : Opcodes) (b : Byte) : Option BusOp := busOps.find? fun k => opcodeOf o k == b

/-! ## Decoding -/

/-- Why a request is no instruction. -/
inductive Reject where
  /-- A test-port byte that is none of the eleven flash opcodes. -/
  | unknownBusOpcode (b : Byte)
  deriving DecidableEq, Repr

/-- A host request (R81, R82). Decode comes first, before anything else is looked at (R204): reserved bits that
are not 0 and the codes 0x7 to 0xF are ILLEGAL (R92, R93). `LENW` has `LEN_BITS` bits. -/
def decodeHost (p : Params) (w : Word) (lenw : Nat) (buf : List Byte) : Instr :=
  let n := lenw % 2 ^ p.lenBits
  if cmdwRsv w ≠ 0 then .illegal w
  else match (cmdwOp w).toNat with
    | 0 => .init (cmdwAddr w) n
    | 1 => .read (cmdwAddr w) n
    | 2 => .fastRead (cmdwAddr w) n
    | 3 => .pageProgram (cmdwAddr w) n buf
    | 4 => .sectorErase (cmdwAddr w) n
    | 5 => .blockErase32 (cmdwAddr w) n
    | 6 => .blockErase64 (cmdwAddr w) n
    | _ => .illegal w

/-- The instruction that runs one bus command by itself. -/
def microInstr : BusOp → Instr
  | .readId => .readId
  | .readStatus1 => .readStatus1
  | .writeEnable => .writeEnable
  | .writeDisable => .writeDisable
  | .pageProgram => .pageProgramCmd
  | .sectorErase => .sectorEraseCmd
  | .blockErase32 => .blockErase32Cmd
  | .blockErase64 => .blockErase64Cmd
  | .chipErase => .chipErase
  | .read => .readCmd
  | .fastRead => .fastReadCmd

/-- The decoder: every request is an instruction or is rejected by name. -/
def decode (p : Params) : Request → Except Reject Instr
  | .host w lenw buf => .ok (decodeHost p w lenw buf)
  | .micro b =>
    match busOpOf p.opcodes b with
    | some k => .ok (microInstr k)
    | none => .error (.unknownBusOpcode b)
  | .pseudo .waitIdle => .ok .waitIdle
  | .pseudo (.writeSeq c) => .ok (.writeSeq c)

/-! ## Encoding -/

/-- The words of an instruction: R81's layout for a host request, R90's opcode byte for a bus row, the name
itself for the two rows without an encoding (R96). -/
def encode (p : Params) : Instr → Request
  | .init a n => .host (mkCmdw 0x0 a) n []
  | .read a n => .host (mkCmdw 0x1 a) n []
  | .fastRead a n => .host (mkCmdw 0x2 a) n []
  | .pageProgram a n buf => .host (mkCmdw 0x3 a) n buf
  | .sectorErase a n => .host (mkCmdw 0x4 a) n []
  | .blockErase32 a n => .host (mkCmdw 0x5 a) n []
  | .blockErase64 a n => .host (mkCmdw 0x6 a) n []
  | .illegal w => .host w 0 []
  | .readId => .micro (opcodeOf p.opcodes .readId)
  | .readStatus1 => .micro (opcodeOf p.opcodes .readStatus1)
  | .writeEnable => .micro (opcodeOf p.opcodes .writeEnable)
  | .writeDisable => .micro (opcodeOf p.opcodes .writeDisable)
  | .pageProgramCmd => .micro (opcodeOf p.opcodes .pageProgram)
  | .sectorEraseCmd => .micro (opcodeOf p.opcodes .sectorErase)
  | .blockErase32Cmd => .micro (opcodeOf p.opcodes .blockErase32)
  | .blockErase64Cmd => .micro (opcodeOf p.opcodes .blockErase64)
  | .chipErase => .micro (opcodeOf p.opcodes .chipErase)
  | .readCmd => .micro (opcodeOf p.opcodes .read)
  | .fastReadCmd => .micro (opcodeOf p.opcodes .fastRead)
  | .waitIdle => .pseudo .waitIdle
  | .writeSeq c => .pseudo (.writeSeq c)

/-! ## Table words -/

/-- A word of spec/opcode_table.json as a request: the 8-bit rows are opcode bytes (test port), the 32-bit rows
are command words, with the length word in the bits above. -/
def tableRequest (nbits w : Nat) : Option Request :=
  if nbits = 0 then none
  else if nbits ≤ 8 then some (.micro (BitVec.ofNat 8 w))
  else some (.host (BitVec.ofNat 32 w) (w / 2 ^ 32) [])

/-- The instruction the decoder reads from a table word, with the table's opcode values (the defaults of R90). -/
def decodeTableWord (nbits w : Nat) : Option Instr :=
  match tableRequest nbits w with
  | none => none
  | some r =>
    match decode Params.default r with
    | .ok i => some i
    | .error _ => none

end Sys2Proof
end

