-- ==== Sys2Proof/Machine/State.lean ====
section
/-! DEFINITION. The machine's state as plain data: the registers of R20, the parameters, the agents outside the
block (R12), the events of the run (R11), and the few fields the model adds; the reasons a step can stop; the
state after reset (R38, R230). -/

namespace Sys2Proof.Machine

/-! ## Names of the spec -/

/-- `SEQ`, the block's program counter (R24). -/
inductive Seq where
  | idle
  | probe
  | writeEnable
  | waitIdlePre
  | issueCommand
  | waitIdlePost
  | writeDisable
  deriving DecidableEq, Repr, Inhabited

/-- The result of an operation (R9, R27). -/
inductive Result where
  | ok
  | fail
  | timeout
  deriving DecidableEq, Repr, Inhabited

/-- The command descriptor (R10). -/
structure Cmd where
  opc : Byte
  addr : Option Addr
  tx : List Byte
  rxLen : Nat
  deriving DecidableEq, Repr, Inhabited

/-- What a log call carries (R131, R212): the tag and the argument the pseudocode gives it. -/
inductive LogTag where
  | geometryFound (entry : Geometry)
  | geometryUnknown (id : Ident)
  deriving DecidableEq, Repr

/-- A call on an external agent: the event alphabet of R11. -/
inductive Call where
  | spiSend (out : List Byte)
  | spiTransfer (out : List Byte) (n : Nat)
  | qspiTransfer (opc : Byte) (addr : Option Addr) (tx : List Byte) (n : Nat)
  | transportInit
  | delayUs (n : Nat)
  | delayMs (n : Nat)
  | log (tag : LogTag)
  deriving DecidableEq, Repr

/-- What a call gave back: nothing (delay, log), `Ok` with the returned bytes, or `Fail` (R11, R118). -/
inductive Reply where
  | done
  | ok (rx : List Byte)
  | fail
  deriving DecidableEq, Repr

/-- One event of the run (R11), with the value of `SEQ` during it (R24) and, for a bus event, the descriptor it
carries (R111). -/
structure Event where
  seq : Seq
  cmd : Option Cmd
  call : Call
  reply : Reply
  deriving DecidableEq, Repr

/-! ## The reference flash device (R70) -/

/-- A byte array: address and byte pairs in the canonical form of `Memory.wf`. An address that is not listed
reads as the erased byte (notes/assumptions/7.md). -/
abbrev Memory := List Host.Cell

/-- What an address that is not listed reads as. -/
def Memory.unlisted : Byte := Config.erasedByte

/-- The canonical form: addresses strictly rising, no entry equal to what an unlisted address reads as. -/
def Memory.wf : Memory → Bool
  | [] => true
  | c :: rest => decide (c.2 ≠ Memory.unlisted) && rest.all (fun d => decide (c.1 < d.1)) && Memory.wf rest

/-- An accepted program or erase not yet applied (R70 `pending`, R71). -/
inductive Work where
  | program (addr : Nat) (data : List Byte)
  | erase (lo : Nat) (size : Nat)
  deriving DecidableEq, Repr

/-- The reference device (R70): `size`, `page` and `id` are its parameters `DEV_SIZE`, page size and `DEV_ID`.
`touched` is the model's own: the regions, first address and size, that commands with an unspecified effect touched
since the device was last idle, whose bytes stay open until it has completed (R74 (b), notes/assumptions/13.md). -/
structure Device where
  size : Nat
  page : Nat
  id : Ident
  mem : Memory
  wel : Bool
  busy : Bool
  pending : Option Work
  touched : List (Nat × Nat)
  deriving DecidableEq, Repr

/-- The agents behind the transport (R12): an oracle that answers anything, or the reference device. -/
inductive Env where
  | oracle
  | reference (dev : Device)
  deriving DecidableEq, Repr

/-! ## Place inside an operation, at the grain of single events (R5; notes/assumptions/5.md) -/

/-- The operation in progress. -/
inductive Job where
  | none
  | init
  | readClass (k : BusOp)
  | writeClass (c : BracketCmd)
  | alone (k : BusOp)
  | wait
  deriving DecidableEq, Repr, Inhabited

/-- Which event comes next where one value of `SEQ` covers several kinds of event. -/
inductive Phase where
  /-- The first event of the `SEQ` state. -/
  | start
  /-- INIT: the transport hook returned `Ok`; the identity read comes next. -/
  | probing
  /-- INIT: the identity is known; the log call comes next. -/
  | logging
  /-- WAIT_IDLE: the last status read showed busy; the delay call comes next. -/
  | delaying
  deriving DecidableEq, Repr, Inhabited

/-! ## State -/

structure State where
  /-- `MODE` (R21). -/
  mode : Mode
  /-- `GEOM_IDX` (R22). -/
  geomIdx : Nat
  /-- `INITED` (R23). -/
  inited : Bool
  /-- `SEQ` (R24). -/
  seq : Seq
  /-- `POLL_CNT` (R25). -/
  pollCnt : Nat
  /-- `SR_LAST` (R26). -/
  srLast : Byte
  /-- `RES` (R27). -/
  res : Result
  /-- `REQ_OP` (R28). -/
  reqOp : BitVec 4
  /-- `REQ_ADDR` (R28). -/
  reqAddr : Addr
  /-- `REQ_LEN`, below `2 ^ LEN_BITS` (R28). -/
  reqLen : Nat
  /-- `TXBUF` (R29). -/
  txBuf : List Byte
  /-- `RXBUF` (R29). -/
  rxBuf : List Byte
  /-- `ID_BUF` (R29). -/
  idBuf : Ident
  /-- The parameters (R6, R37): carried, never changed. -/
  cfg : Params
  /-- The agents behind the transport (R12). -/
  env : Env
  /-- What the outside agents choose at the coming events, first one first (R12, R37). -/
  answers : List Answer
  /-- The requests that stand at the port, first one first (R28). -/
  port : List Request
  /-- The events of the run, latest first (R11). -/
  events : List Event
  /-- Counter that the free values are applied to. -/
  free : Nat
  /-- The operation in progress. -/
  job : Job
  /-- The event that comes next inside a `SEQ` state. -/
  phase : Phase
  deriving DecidableEq, Repr

/-- The machine stops with a fault: never. The block "has no halted, locked-up or error state" (R216); a failure
is a result, after which the machine goes on (R205). No constructor, so no step can raise one: safe. -/
inductive Fault where
  deriving DecidableEq, Repr

/-- Why a step has no next state. -/
inductive Refusal where
  /-- Raised by `exec` for an instruction without a meaning yet; no arm raises it now. Safe. -/
  | notModelled (mnemonic : String)
  /-- Raised by every operation but INIT and ILLEGAL while `INITED = 0` (R138; R110's precondition for the
  micro-operations). Safe: nothing can be proved of what follows. -/
  | notInitialised
  /-- Raised by INIT when `INITED = 1` (R137). Safe. -/
  | alreadyInitialised
  /-- Raised by every operation but ILLEGAL when the parameters break R31 or R90. Safe. -/
  | parametersRefused
  /-- Raised by `step` for a test-port byte that is none of the eleven flash opcodes (R93). Safe. -/
  | unknownBusOpcode (b : Byte)
  /-- Raised by READ, FAST_READ, PAGE_PROGRAM, the erases that take an address, their single commands and WRITE_SEQ
  when the reference device stands behind the transport and the command's address or range is not inside it, or a
  program leaves its device page: "a model refuses such a request rather than guess" (R63, R178, R74 (c)). Safe. -/
  | outsideDevice
  deriving DecidableEq, Repr

/-- The machine after reset for given parameters, with given agents behind the transport, which a reset does not
touch (R38, R230, R231). `GEOM_IDX`, `INITED` and `SEQ` are the spec's; the value of every other register is a DESIGN
CHOICE (notes/assumptions/3.md). -/
def State.resetWith (p : Params) (e : Env) : State :=
  { mode := .spi
    geomIdx := 0
    inited := false
    seq := .idle
    pollCnt := 0
    srLast := 0
    res := .ok
    reqOp := 0
    reqAddr := 0
    reqLen := 0
    txBuf := []
    rxBuf := []
    idBuf := ⟨0, 0, 0⟩
    cfg := p
    env := e
    answers := []
    port := []
    events := []
    free := 0
    job := .none
    phase := .start }

/-- The machine after reset, with the example parameters (notes/assumptions/2.md) and the oracle behind the
transport. -/
def State.reset : State := State.resetWith Params.default .oracle

end Sys2Proof.Machine
end

