-- ==== Sys2Proof/Machine/Memory.lean ====
section
/-! DEFINITION. The byte array of the reference device (R50 (a), R51, R70): reading and writing one byte, runs of
bytes, erasing a region, programming a run of bytes, leaving a region open. Every operation keeps the canonical form. -/

namespace Sys2Proof.Machine

/-- The byte at an address. -/
def Memory.read : Memory → Nat → Byte
  | [], _ => Memory.unlisted
  | c :: rest, a => if c.1 = a then c.2 else Memory.read rest a

/-- Writes a byte whose value is not the unlisted one into a canonical list. -/
def Memory.insert (a : Nat) (v : Byte) : Memory → Memory
  | [] => [(a, v)]
  | c :: rest =>
    if a < c.1 then (a, v) :: c :: rest
    else if a = c.1 then (a, v) :: rest
    else c :: Memory.insert a v rest

/-- Removes the entry of an address. -/
def Memory.remove (a : Nat) (m : Memory) : Memory := m.filter fun c => c.1 ≠ a

/-- Writes one byte: the value an unlisted address reads as removes the entry. -/
def Memory.write (m : Memory) (a : Nat) (v : Byte) : Memory :=
  if v = Memory.unlisted then Memory.remove a m else Memory.insert a v m

/-- `MemRead(a, n)`: byte `i` of the list is the byte at address `a + i` (R54, R73). -/
def Memory.readN (m : Memory) (a n : Nat) : List Byte := (List.range n).map fun i => Memory.read m (a + i)

/-- Sets every byte of the region `lo .. lo + size - 1` to the erased byte (R71). -/
def Memory.eraseRange (m : Memory) (lo size : Nat) : Memory :=
  m.filter fun c => !(decide (lo ≤ c.1) && decide (c.1 < lo + size))

/-- Applies a program (R71): a byte whose old value is the erased byte takes the data byte; what another byte
becomes is open (R74 (a)), a free value. `c` names the moment. -/
def Memory.program (c : Nat) : Memory → Nat → List Byte → Memory
  | m, _, [] => m
  | m, a, d :: ds =>
    Memory.program c (Memory.write m a (if Memory.read m a = Config.erasedByte then d else Config.freeCell c a))
      (a + 1) ds

/-- Writes a list of cells, the last one last. -/
def Memory.writeCells (m : Memory) (cells : List Host.Cell) : Memory :=
  cells.foldl (fun m c => Memory.write m c.1 c.2) m

/-- Any state of the region `lo .. lo + size - 1` (R74), a free value; every other byte as it was. `c` names the
moment. -/
def Memory.anyIn (c : Nat) (m : Memory) (lo size : Nat) : Memory :=
  Memory.writeCells (Memory.eraseRange m lo size)
    ((Config.freeMem c).filter fun x => decide (lo ≤ x.1) && decide (x.1 < lo + size))

end Sys2Proof.Machine
end

