-- ==== Sys2Proof/Machine/Operands.lean ====
section
/-! DEFINITION. Operand forms: the descriptor of each bus command (R91), the SPI frame (R86, R87), the QSPI call
(R88, R89), the call one descriptor becomes in each mode (R112, R115), and the bytes of a host buffer. -/

namespace Sys2Proof.Machine

/-! ## Byte lists whose content is partly open -/

/-- `n` bytes of which the spec fixes none. -/
def freeBytes (c n : Nat) : List Byte := (List.range n).map (Config.freeByte c)

/-- The list made exactly `n` bytes long: cut where it is longer, free values where it is shorter. -/
def fit (c n : Nat) (l : List Byte) : List Byte :=
  if l.length = n then l else (List.range n).map fun i => l.getD i (Config.freeByte c i)

/-- An identity from returned bytes, in the order of R55. -/
def identOf (rx : List Byte) : Ident := ⟨rx.getD 0 0, rx.getD 1 0, rx.getD 2 0⟩

/-! ## Descriptors (R91) -/

/-- The bus command of a host operation's ISSUE_COMMAND state, with its descriptor built from the operand
registers; `A` is `REQ_ADDR`, `n` is `REQ_LEN`, `D` is `TXBUF` (R91). -/
def descriptor (s : State) (k : BusOp) : Cmd :=
  let opc := opcodeOf s.cfg.opcodes k
  match k with
  | .readId => ⟨opc, none, [], Config.idBytes⟩
  | .readStatus1 => ⟨opc, none, [], 1⟩
  | .writeEnable => ⟨opc, none, [], 0⟩
  | .writeDisable => ⟨opc, none, [], 0⟩
  | .pageProgram => ⟨opc, some s.reqAddr, s.txBuf, 0⟩
  | .sectorErase => ⟨opc, some s.reqAddr, [], 0⟩
  | .blockErase32 => ⟨opc, some s.reqAddr, [], 0⟩
  | .blockErase64 => ⟨opc, some s.reqAddr, [], 0⟩
  | .chipErase => ⟨opc, none, [], 0⟩
  | .read => ⟨opc, some s.reqAddr, [], s.reqLen⟩
  | .fastRead => ⟨opc, some s.reqAddr, [], s.reqLen⟩

/-! ## The SPI frame (R86) -/

/-- The three address bytes, most significant first (R53, R87); none without an address. -/
def addrBytes : Option Addr → List Byte
  | none => []
  | some a => [a.extractLsb' 16 8, a.extractLsb' 8 8, a.extractLsb' 0 8]

/-- The filler bytes after the address: `FR_DUMMY_BYTES` zero bytes for the FAST_READ command, none for any
other (R86, R97). -/
def dummyBytes (p : Params) (opc : Byte) : List Byte :=
  if opc = p.opcodes.fread then List.replicate p.frDummyBytes 0x00 else []

/-- `out`, the bytes the SPI frame sends (R86). -/
def spiOut (p : Params) (cmd : Cmd) : List Byte :=
  [cmd.opc] ++ addrBytes cmd.addr ++ dummyBytes p cmd.opc ++ cmd.tx

/-! ## The QSPI call (R88) -/

/-- The direction of a QSPI call. -/
inductive Direction where
  | none
  | out
  | inn
  deriving DecidableEq, Repr

/-- `direction` (R88): out if there is data to send, in if there is data to take, else none. -/
def qspiDirection (cmd : Cmd) : Direction :=
  if 0 < cmd.tx.length then .out else if 0 < cmd.rxLen then .inn else .none

/-- `length` (R88). -/
def qspiLength (cmd : Cmd) : Nat :=
  match qspiDirection cmd with
  | .out => cmd.tx.length
  | .inn => cmd.rxLen
  | .none => 0

/-! ## The one dispatch on the mode (R110, R111) -/

/-- SPI_XFER's call (R112, R113): `send` when nothing comes back, `transfer` when something does, one call. -/
def spiCall (p : Params) (cmd : Cmd) : Call :=
  if cmd.rxLen = 0 then .spiSend (spiOut p cmd) else .spiTransfer (spiOut p cmd) cmd.rxLen

/-- QSPI_XFER's call (R115): the descriptor's fields, the absent address kept absent (R89). -/
def qspiCall (cmd : Cmd) : Call := .qspiTransfer cmd.opc cmd.addr cmd.tx cmd.rxLen

/-- The call a descriptor becomes (R110): the only place `MODE` is read. -/
def frame (p : Params) (m : Mode) (cmd : Cmd) : Call :=
  match m with
  | .spi => spiCall p cmd
  | .qspi => qspiCall cmd

/-! ## Erase regions (R58) -/

/-- The first address of the aligned region of size `size` that holds `a`. -/
def regionBase (a size : Nat) : Nat := a - a % size

end Sys2Proof.Machine
end

