-- ==== Sys2Proof/Machine/Device.lean ====
section
/-! DEFINITION. The reference flash device (R70 to R74): completing its work, and receiving one command as the
logical tuple (opc, addr, tx, rx_len), the same in both transport variants. Whatever R74 leaves open is taken from
the event's `Answer` or from a free value; `c` names the moment. -/

namespace Sys2Proof.Machine

/-! ## The work of a command and the bytes it touches -/

/-- The start address of a command. -/
def Cmd.start (cmd : Cmd) : Nat := (cmd.addr.getD 0).toNat

/-- The program or erase a write-class command asks for (R71, R58); none for another command. -/
def Device.workOf (d : Device) (cmd : Cmd) : BusOp → Option Work
  | .readId => none
  | .readStatus1 => none
  | .writeEnable => none
  | .writeDisable => none
  | .pageProgram => some (.program cmd.start cmd.tx)
  | .sectorErase => some (.erase (regionBase cmd.start Config.sectorBytes) Config.sectorBytes)
  | .blockErase32 => some (.erase (regionBase cmd.start Config.block32Bytes) Config.block32Bytes)
  | .blockErase64 => some (.erase (regionBase cmd.start Config.block64Bytes) Config.block64Bytes)
  | .chipErase => some (.erase 0 d.size)
  | .read => none
  | .fastRead => none

/-- The bytes a program or erase touches: the first address and how many. -/
def Work.range : Work → Nat × Nat
  | .program a data => (a, data.length)
  | .erase lo size => (lo, size)

/-- A program's range lies in the device and in one device page (R74 (c)). -/
def Device.holdsProgram (d : Device) (a n : Nat) : Bool :=
  decide (a < d.size) && decide (a + n ≤ d.size) && decide (a % d.page + n ≤ d.page)

/-- The command stays inside the device: a read does not run past its end (R73), an erase starts below it, a program
stays in the device and in one device page (R74 (c)). Commands without an address always do. -/
def Device.holds (d : Device) (k : BusOp) (cmd : Cmd) : Bool :=
  match k with
  | .readId => true
  | .readStatus1 => true
  | .writeEnable => true
  | .writeDisable => true
  | .pageProgram => d.holdsProgram cmd.start cmd.tx.length
  | .sectorErase => decide (cmd.start < d.size)
  | .blockErase32 => decide (cmd.start < d.size)
  | .blockErase64 => decide (cmd.start < d.size)
  | .chipErase => true
  | .read => decide (cmd.start + cmd.rxLen ≤ d.size)
  | .fastRead => decide (cmd.start + cmd.rxLen ≤ d.size)

/-! ## Completing -/

/-- The byte array after the pending work is applied (R71). -/
def Work.apply (c : Nat) (m : Memory) : Work → Memory
  | .program a data => Memory.program c m a data
  | .erase lo size => Memory.eraseRange m lo size

/-- Any state in the part of a region that is inside the device (R74). -/
def Device.anyIn (c : Nat) (d : Device) (m : Memory) (r : Nat × Nat) : Memory :=
  Memory.anyIn c m r.1 (min r.2 (d.size - r.1))

/-- The byte array after a completion: the pending work is applied (R71), and the regions touched by commands with an
unspecified effect are open again (R74). -/
def Device.settled (c : Nat) (d : Device) : Memory :=
  d.touched.foldl (d.anyIn c)
    (match d.pending with
      | none => d.mem
      | some w => w.apply c d.mem)

/-- A step of the device agent (R71), taken at a moment that says so: `pending` is applied, `busy` falls, and the
latch takes the value the moment chooses (R74 (d)). An idle device has nothing to complete. -/
def Device.complete (c : Nat) (x : Completion) (d : Device) : Device :=
  if x.now && d.busy then
    { d with mem := d.settled c, wel := x.wel, busy := false, pending := none, touched := [] }
  else d

/-! ## Receiving a command -/

/-- The start of the work of an accepted command (R71). -/
def Device.start (d : Device) (w : Work) : Device := { d with busy := true, pending := some w }

/-- A command with an unspecified effect: the bytes it touches hold any state, now and after the device has completed
(R74). -/
def Device.disturb (c : Nat) (r : Nat × Nat) (d : Device) : Device :=
  { d with mem := d.anyIn c d.mem r, touched := r :: d.touched }

/-- A write-class command received by an idle device (R71): nothing without the latch. Outside the device, where no
request of the block gets (R63), whether it is taken is open, and the whole array with it (R74 (c)). -/
def Device.accept (c : Nat) (a : Answer) (k : BusOp) (cmd : Cmd) (d : Device) : Device :=
  match d.workOf cmd k with
  | none => d
  | some w =>
    if !d.wel then d
    else if d.holds k cmd then d.start w
    else if a.took then d.disturb c (0, d.size)
    else d

/-- A write-class command received by a busy device (R74 (b)): it is ignored, or the bytes it touches are open. -/
def Device.collide (c : Nat) (a : Answer) (k : BusOp) (cmd : Cmd) (d : Device) : Device :=
  match d.workOf cmd k with
  | none => d
  | some w => if a.took then d.disturb c w.range else d

/-- The bytes and state of a command received by an idle device (R71 to R73). `any` are the bytes that stand
where the returned bytes are open. -/
def Device.whenIdle (c : Nat) (a : Answer) (any : List Byte) (cmd : Cmd) (d : Device) (k : BusOp) :
    List Byte × Device :=
  match k with
  | .readId => ([d.id.manufacturer, d.id.memoryType, d.id.capacity], d)
  | .readStatus1 => ([any.getD 0 0 &&& 0xFE], d)
  | .writeEnable => (any, { d with wel := true })
  | .writeDisable => (any, { d with wel := false })
  | .pageProgram => (any, d.accept c a k cmd)
  | .sectorErase => (any, d.accept c a k cmd)
  | .blockErase32 => (any, d.accept c a k cmd)
  | .blockErase64 => (any, d.accept c a k cmd)
  | .chipErase => (any, d.accept c a k cmd)
  | .read => (if d.holds k cmd then Memory.readN d.mem cmd.start cmd.rxLen else any, d)
  | .fastRead => (if d.holds k cmd then Memory.readN d.mem cmd.start cmd.rxLen else any, d)

/-- A command received by a busy device: the status read is answered (R72); of every other command the returned
bytes, the latch and the bytes touched are open (R74 (b)). -/
def Device.whenBusy (c : Nat) (a : Answer) (any : List Byte) (cmd : Cmd) (d : Device) (k : BusOp) :
    List Byte × Device :=
  match k with
  | .readStatus1 => ([any.getD 0 0 ||| 0x01], d)
  | .readId => (any, d)
  | .read => (any, d)
  | .fastRead => (any, d)
  | .writeEnable => (any, { d with wel := a.welOpen })
  | .writeDisable => (any, { d with wel := a.welOpen })
  | .pageProgram => (any, d.collide c a k cmd)
  | .sectorErase => (any, d.collide c a k cmd)
  | .blockErase32 => (any, d.collide c a k cmd)
  | .blockErase64 => (any, d.collide c a k cmd)
  | .chipErase => (any, d.collide c a k cmd)

/-- The device receives a command (R70). An opcode that is none of the eleven, which the block never sends (R93),
leaves everything open. -/
def Device.receive (o : Opcodes) (c : Nat) (a : Answer) (any : List Byte) (cmd : Cmd) (d : Device) :
    List Byte × Device :=
  match busOpOf o cmd.opc with
  | none => (any, if a.took then d.disturb c (0, d.size) else d)
  | some k => if d.busy then d.whenBusy c a any cmd k else d.whenIdle c a any cmd k

/-- What the bus driver's result says of the command: after `Ok` the device has it; after `Fail` whether it took the
command, or only part of a program's data, is open, and so are the returned bytes (R118). -/
def Device.take (o : Opcodes) (c : Nat) (a : Answer) (any : List Byte) (cmd : Cmd) (d : Device) :
    List Byte × Device :=
  if a.ok then d.receive o c a any cmd
  else if a.took then (any, (d.receive o c a any { cmd with tx := cmd.tx.take a.part }).2)
  else (any, d)

/-- One exchange with the device. It may complete its work before the command reaches it and again at the end (R71).
The exchange numbered `c` has three moments of free values of its own. -/
def Device.exchange (o : Opcodes) (c : Nat) (a : Answer) (cmd : Cmd) (d : Device) : List Byte × Device :=
  let r := (d.complete (3 * c) a.before).take o (3 * c + 1) a (fit c cmd.rxLen a.rx) cmd
  (r.1, r.2.complete (3 * c + 2) a.after)

/-- The device agent's step at the end of an event that is no exchange (R71, R156). -/
def Env.complete (c : Nat) (x : Completion) : Env → Env
  | .oracle => .oracle
  | .reference d => .reference (d.complete (3 * c + 2) x)

end Sys2Proof.Machine
end

