-- ==== Sys2Proof/Machine/Flags.lean ====
section
/-! DEFINITION. The block's flag-like values (R33): the busy bit of `SR_LAST` (R34, R157), the result code (R27,
R84), and the block's only arithmetic, the page check (R163, R168). -/

namespace Sys2Proof.Machine

/-- The busy bit of a status byte; bits 7 to 1 are not read (R34, R157). -/
def busyBit (b : Byte) : Bool := b.getLsbD Config.busyBit

/-- The result's code on the response port (R27, R84, R200); 3 is never produced. -/
def Result.code : Result → BitVec 2
  | .ok => 0
  | .fail => 1
  | .timeout => 2

/-- `page_size` of the selected geometry entry (R22, R63). An index outside the table is no legal value (R22);
no run reaches one (`MachineInv`), and entry 0, the fallback of R22, then stands in. -/
def pageSize (p : Params) (idx : Nat) : Nat :=
  (p.geomTable.getD idx (p.geomTable.headD default)).pageSize

/-- `PAGE_CHECK(addr, len)` (R163), over the natural numbers, without wrap (R168). -/
def pageCheck (ps : Nat) (addr : Addr) (len : Nat) : Bool :=
  if len > ps then false
  else if (addr.toNat &&& (ps - 1)) + len > ps then false
  else true

/-- `SCAN(id)` (R133): the index of the first entry whose three identity bytes all match, from index `i` on. -/
def scanFrom (id : Ident) : Nat → List Geometry → Option Nat
  | _, [] => none
  | i, e :: rest => if e.ident = id then some i else scanFrom id (i + 1) rest

/-- `SCAN(id)` over the whole table (R133). -/
def scan (p : Params) (id : Ident) : Option Nat := scanFrom id 0 p.geomTable

end Sys2Proof.Machine
end

