-- ==== Sys2Proof/Machine/Ops.lean ====
section
/-! DEFINITION. The named operations over the state: the run's events, the answers of the outside agents, the one
exchange primitive XFER (R110), the platform and transport hooks, accepting a request (R28, R39), the requests a
model refuses (R63, R138), the early return that ends every operation (R205), fetching from the request port, and a
reset of the block (R231). -/

namespace Sys2Proof.Machine

/-! ## Events -/

/-- Appends one event to the run (R11), with `SEQ` as it is during the event (R24). -/
def emit (cmd : Option Cmd) (call : Call) (reply : Reply) (s : State) : State :=
  { s with events := ⟨s.seq, cmd, call, reply⟩ :: s.events }

/-! ## Answers of the outside agents -/

/-- What the outside agents choose at the next event: the first answer listed, or a free one. -/
def nextAnswer (s : State) : Answer :=
  match s.answers with
  | a :: _ => a
  | [] => Config.freeAnswer s.free

/-- Uses up the answer of one event and the free values that go with it. -/
def useAnswer (s : State) : State := { s with answers := s.answers.tail, free := s.free + 1 }

/-- The bytes an exchange returns and the agents after it (R12). With the oracle the bytes are any `rx_len`
bytes; with the reference device they are the device's. After a `Fail` they are any bytes (R118). -/
def respond (s : State) (a : Answer) (cmd : Cmd) : List Byte × Env :=
  match s.env with
  | .oracle => (fit s.free cmd.rxLen a.rx, .oracle)
  | .reference d =>
    let r := d.exchange s.cfg.opcodes s.free a cmd
    (fit s.free cmd.rxLen r.1, .reference r.2)

/-! ## The exchange primitive (R110, R112, R115, R117) -/

/-- What an exchange returned: success, and bytes that mean something only on success (R110, R118). -/
structure Exchange where
  ok : Bool
  rx : List Byte
  deriving DecidableEq, Repr

/-- `XFER(cmd)` (R110): one call of the bus driver in the variant `MODE` names, its result unchanged and never
retried (R117). It writes no register of the block. -/
def xfer (cmd : Cmd) (s : State) : Exchange × State :=
  let a := nextAnswer s
  let r := respond s a cmd
  let reply := if a.ok then Reply.ok r.1 else Reply.fail
  (⟨a.ok, r.1⟩, emit (some cmd) (frame s.cfg s.mode cmd) reply { useAnswer s with env := r.2 })

/-- What an event that is no exchange does to the outside agents: the device may complete its work at its end (R71,
R156). Without an event it is the device agent's step between two requests. -/
def deviceMoment (s : State) : State :=
  { useAnswer s with env := s.env.complete s.free (nextAnswer s).after }

/-- `transport.init()` (R119 (a), R131): one call, answered `Ok` or `Fail`. -/
def transportInit (s : State) : Bool × State :=
  let ok := (nextAnswer s).ok
  (ok, emit none .transportInit (if ok then .ok [] else .fail) (deviceMoment s))

/-- `DELAY_US(n)` (R8, R156): an event, no other effect on the block; the device may complete during it. -/
def delayUs (n : Nat) (s : State) : State := emit none (.delayUs n) .done (deviceMoment s)

/-- `DELAY_MS(n)`: bound, never called by the block (R156, R211). -/
def delayMs (n : Nat) (s : State) : State := emit none (.delayMs n) .done (deviceMoment s)

/-- `LOG(tag, args)` (R8, R212): an event that cannot fail. -/
def logCall (tag : LogTag) (s : State) : State := emit none (.log tag) .done (deviceMoment s)

/-- The transport's `lock(timeout)` hook: a no-op, and no event (R67, R119 (c)). -/
def lockHook (_timeout : Nat) (s : State) : State := s

/-- The transport's `unlock` hook: a no-op, and no event (R67, R119 (c)). -/
def unlockHook (s : State) : State := s

/-! ## The operand registers -/

/-- A host request's operands are latched when it is accepted (R28, R81). -/
def latch (op : BitVec 4) (addr : Addr) (len : Nat) (s : State) : State :=
  { s with reqOp := op, reqAddr := addr, reqLen := len }

/-- `TXBUF`, the list of `REQ_LEN` bytes that is the host's buffer of PAGE_PROGRAM (R29). A host that gives
fewer bytes breaks R233 (b), which the block does not check; the missing bytes are open. -/
def loadTx (buf : List Byte) (s : State) : State :=
  if buf.length = s.reqLen then { s with txBuf := buf }
  else { s with txBuf := fit s.free s.reqLen buf, free := s.free + 1 }

/-! ## Accepting and ending an operation -/

/-- `SEQ <- q` (R8): the block's `pc <- target`. -/
def setSeq (q : Seq) (s : State) : State := { s with seq := q, phase := .start }

/-- Acceptance of an operation whose checks pass: `SEQ` moves to the first state of its sequence (R39). -/
def enter (j : Job) (q : Seq) (s : State) : State := setSeq q { s with job := j }

/-- The end of every operation, and the block's whole trap mechanism (R205): `RES` takes the result, `SEQ`
returns to `IDLE`; nothing is saved, undone or handled, and control returns to the host. -/
def finish (r : Result) (s : State) : State :=
  { s with res := r, seq := .idle, job := .none, phase := .start }

/-- `return r` at operation level (R8). -/
def finishWith (x : Result × State) : State := finish x.1 x.2

/-- `try X` (R8): a result other than `Ok` is returned at once, with no further step (R161, R205). -/
def andThen (x : Result × State) (k : State → Result × State) : Result × State :=
  match x.1 with
  | .ok => k x.2
  | .fail => x
  | .timeout => x

/-- A request that meets a busy port waits there (R28): nothing else happens. -/
def waitAtPort (i : Instr) (s : State) : State := { s with port := encode s.cfg i :: s.port }

/-- The conditions under which an operation other than INIT and ILLEGAL runs: the port is ready (R28), the
parameters are well-formed (R31, R90), INIT has ended with `Ok` (R138, R110). -/
def whenReady (i : Instr) (s : State) (k : State → Host.Outcome State Fault Refusal) :
    Host.Outcome State Fault Refusal :=
  if s.seq ≠ .idle then .next (waitAtPort i s)
  else if s.cfg.wf = false then .refused .parametersRefused
  else if s.inited = false then .refused .notInitialised
  else k s

/-- The conditions under which INIT runs (R130, R137). -/
def whenReadyForInit (i : Instr) (s : State) (k : State → State) : Host.Outcome State Fault Refusal :=
  if s.seq ≠ .idle then .next (waitAtPort i s)
  else if s.cfg.wf = false then .refused .parametersRefused
  else if s.inited then .refused .alreadyInitialised
  else .next (k s)

/-- A bus command, with the operand registers as they stand, stays inside the device behind the transport. Only the
reference device has a size; what stands behind the oracle is not known. -/
def reaches (k : BusOp) (s : State) : Bool :=
  match s.env with
  | .oracle => true
  | .reference d => d.holds k (descriptor s k)

/-- A request whose command leaves the device is refused, the block itself checking nothing (R63, R178, R241);
notes/assumptions/13.md says when. `s` is the state with the operands latched. -/
def withinDevice (k : BusOp) (s : State) (run : State → State) : Host.Outcome State Fault Refusal :=
  if reaches k s then .next (run s) else .refused .outsideDevice

/-! ## Bus commands as micro-operations -/

/-- Where the bytes of an exchange land. READ_STATUS1 writes `SR_LAST` (R26, R150), the reads write `RXBUF` (R29,
R175). After a `Fail` the bytes are any bytes, so the buffer the exchange was to fill holds any bytes (R118);
READ_ID writes `ID_BUF` itself only in that sense, since INIT writes it on success (R29, 90_conflicts.md C10). -/
def deliver (k : BusOp) (x : Exchange) (s : State) : State :=
  match k with
  | .readStatus1 => { s with srLast := x.rx.getD 0 0 }
  | .read => { s with rxBuf := x.rx }
  | .fastRead => { s with rxBuf := x.rx }
  | .readId => if x.ok then s else { s with idBuf := identOf x.rx }
  | .writeEnable => s
  | .writeDisable => s
  | .pageProgram => s
  | .sectorErase => s
  | .blockErase32 => s
  | .blockErase64 => s
  | .chipErase => s

/-- The result of one exchange: `Ok` or `Fail`, never `Timeout` (R110). -/
def Exchange.result (x : Exchange) : Result := if x.ok then .ok else .fail

/-- One bus command: its descriptor (R91) through XFER, the returned bytes where they belong. -/
def micro (k : BusOp) (s : State) : Result × State :=
  let x := xfer (descriptor s k) s
  (x.1.result, deliver k x.1 x.2)

/-- A single bus command run from the test port: an operation of one exchange (notes/assumptions/6.md). -/
def runAlone (k : BusOp) (q : Seq) (s : State) : State := finishWith (micro k (enter (.alone k) q s))

/-- A single bus command as an instruction of the test port: refused where it leaves the device. -/
def commandAlone (k : BusOp) (q : Seq) (s : State) : Host.Outcome State Fault Refusal :=
  withinDevice k s (runAlone k q)

/-! ## The request port -/

/-- The next request with its decoding, and the state without it; none when no request stands at the port. -/
def fetch (s : State) : Option (Except Reject Instr × State) :=
  match s.port with
  | [] => none
  | r :: rest => some (decode s.cfg r, { s with port := rest })

/-- The state R232 asks for before a request other than INIT: INIT has ended with `Ok`. INIT and ILLEGAL need
nothing. -/
def booted (i : Option Instr) (s : State) : State :=
  match i with
  | none => s
  | some (.init _ _) => s
  | some (.illegal _) => s
  | some _ => if s.inited then s else { s with mode := s.cfg.modeStrap, inited := true }

/-! ## Reset -/

/-- A reset of the block, in any state, also inside an operation (R230, R231): its registers take their reset values,
no command is sent, and the device, with whatever work it has in progress, is left as it is. What stands at the port
and what the outside agents will do is the host's and theirs (notes/assumptions/3.md). -/
def resetBlock (s : State) : State :=
  { State.resetWith s.cfg s.env with answers := s.answers, port := s.port, events := s.events, free := s.free }

/-! ## A table word -/

/-- A table word placed so that the next step fetches it (notes/assumptions/8.md): the port holds it and is
ready, and a request other than INIT finds the block initialised. -/
def placeTableWord (s : State) (nbits w : Nat) : State :=
  match tableRequest nbits w with
  | none => s
  | some r =>
    booted ((decode s.cfg r).toOption)
      { s with port := r :: s.port, seq := .idle, job := .none, phase := .start }

end Sys2Proof.Machine
end

