-- ==== Sys2Proof/Machine/Primitives.lean ====
section
/-! DEFINITION. Status, latch and wait primitives (R150 to R158): READ_STATUS1, WRITE_ENABLE, WRITE_DISABLE, the
polling loop WAIT_IDLE, and the identity read (R132), as steps of operations and as instructions of the test port
(notes/assumptions/6.md). -/

namespace Sys2Proof.Machine

/-- READ_STATUS1 (R150). -/
def readStatus1 (s : State) : Result × State := micro .readStatus1 s

/-- WRITE_ENABLE (R151). -/
def writeEnable (s : State) : Result × State := micro .writeEnable s

/-- WRITE_DISABLE (R152). -/
def writeDisable (s : State) : Result × State := micro .writeDisable s

/-- What follows one status read of WAIT_IDLE (R153): a failed read ends the wait with `Fail` (R154), an idle
device with `Ok`, the bound with `Timeout` (R155); otherwise the wait goes on. The order of the tests is R204's. -/
inductive Poll where
  | ended (r : Result)
  | again
  deriving DecidableEq, Repr

/-- The decision after a status read (R153, R204). -/
def pollOutcome (r : Result) (s : State) : Poll :=
  match r with
  | .fail => .ended .fail
  | .timeout => .ended .fail
  | .ok =>
    if busyBit s.srLast = false then .ended .ok
    else if s.pollCnt = Config.pollBound then .ended .timeout
    else .again

/-- One status read of WAIT_IDLE: the counter goes up before it (R25, R153). -/
def poll (s : State) : Result × State := readStatus1 { s with pollCnt := s.pollCnt + 1 }

/-- The loop of WAIT_IDLE (R153), at most `fuel` status reads. -/
def pollLoop : Nat → State → Result × State
  | 0, s => (.timeout, s)
  | fuel + 1, s =>
    let x := poll s
    match pollOutcome x.1 x.2 with
    | .ended r => (r, x.2)
    | .again => pollLoop fuel (delayUs x.2.cfg.pollDelayUs x.2)

/-- WAIT_IDLE (R153). -/
def waitIdle (s : State) : Result × State := pollLoop Config.pollBound { s with pollCnt := 0 }

/-- READ_ID (R132): the exchange and its bytes; no register is written on success. -/
def readId (s : State) : Exchange × State :=
  let x := xfer (descriptor s .readId) s
  (x.1, deliver .readId x.1 x.2)

/-! ## The instructions of the test port -/

/-- READ_ID alone (R132). -/
def execReadId (s : State) : Host.Outcome State Fault Refusal :=
  whenReady .readId s (commandAlone .readId .probe)

/-- READ_STATUS1 alone (R150, R158). -/
def execReadStatus1 (s : State) : Host.Outcome State Fault Refusal :=
  whenReady .readStatus1 s (commandAlone .readStatus1 .waitIdlePre)

/-- WRITE_ENABLE alone: it does not wait for idle first (R151, R158). -/
def execWriteEnable (s : State) : Host.Outcome State Fault Refusal :=
  whenReady .writeEnable s (commandAlone .writeEnable .writeEnable)

/-- WRITE_DISABLE alone (R152, R158). -/
def execWriteDisable (s : State) : Host.Outcome State Fault Refusal :=
  whenReady .writeDisable s (commandAlone .writeDisable .writeDisable)

/-- WAIT_IDLE alone (R96, R153). -/
def execWaitIdle (s : State) : Host.Outcome State Fault Refusal :=
  whenReady .waitIdle s fun s => .next (finishWith (waitIdle (enter .wait .waitIdlePre s)))

end Sys2Proof.Machine
end

