-- ==== Sys2Proof/Machine/Init.lean ====
section
/-! DEFINITION. INIT (R130 to R140) and the illegal request (R92, R93). -/

namespace Sys2Proof.Machine

/-- After the identity bytes are in `ID_BUF`: on a match `GEOM_IDX` is written and the geometry logged (R134), on
none the mismatch is logged and the index keeps its value (R135). -/
def selectGeometry (s : State) : State :=
  match scan s.cfg s.idBuf with
  | some i => { s with geomIdx := i }
  | none => s

/-- What INIT logs for the identity in `ID_BUF` (R131, R134, R135). -/
def identityTag (s : State) : LogTag :=
  match scan s.cfg s.idBuf with
  | some i => .geometryFound (s.cfg.geomTable.getD i default)
  | none => .geometryUnknown s.idBuf

/-- The end of INIT after a good identity read (R131): the log call, then `INITED`, then `Ok`. -/
def concludeInit (s : State) : State :=
  finish .ok { logCall (identityTag s) s with inited := true }

/-- INIT from `MODE <- MODE_STRAP` on (R131, R136). -/
def initialise (s : State) : State :=
  let t := transportInit (enter .init .probe { s with mode := s.cfg.modeStrap })
  if t.1 then
    let x := readId t.2
    if x.1.ok then concludeInit (selectGeometry { x.2 with idBuf := identOf x.1.rx })
    else finish .fail x.2
  else finish .fail t.2

/-- INIT: `ADDR` and `LENW` are latched and ignored (R130, R131). -/
def execInit (addr : Addr) (len : Nat) (s : State) : Host.Outcome State Fault Refusal :=
  whenReadyForInit (.init addr len) s fun s => initialise (latch 0x0 addr len s)

/-- A request with an illegal operation code or reserved bits that are not 0 ends at once with `Fail`, whatever
`INITED` is: no events, no other change (R92, R93). -/
def execIllegal (cmdw : Word) (s : State) : Host.Outcome State Fault Refusal :=
  if s.seq ≠ .idle then .next (waitAtPort (.illegal cmdw) s) else .next { s with res := .fail }

end Sys2Proof.Machine
end

