-- ==== Sys2Proof/Machine/ReadClass.lean ====
section
/-! DEFINITION. Read-class operations (R175 to R179): one exchange, no bracket, no wait, no check
by the block; a read that leaves the device is refused (R178). -/

namespace Sys2Proof.Machine

/-- `READ_SEQ` (R175): the one exchange, its bytes into `RXBUF`. -/
def readSeq (k : BusOp) (s : State) : Result × State := micro k (setSeq .issueCommand s)

/-- An operation that is one read. -/
def runRead (k : BusOp) (s : State) : State := finishWith (readSeq k (enter (.readClass k) .issueCommand s))

/-- READ (R176). -/
def execRead (addr : Addr) (len : Nat) (s : State) : Host.Outcome State Fault Refusal :=
  whenReady (.read addr len) s fun s => withinDevice .read (latch 0x1 addr len s) (runRead .read)

/-- FAST_READ (R177). -/
def execFastRead (addr : Addr) (len : Nat) (s : State) : Host.Outcome State Fault Refusal :=
  whenReady (.fastRead addr len) s fun s => withinDevice .fastRead (latch 0x2 addr len s) (runRead .fastRead)

/-- READ.cmd: the one exchange, on the operand registers (R91, R176). -/
def execReadCmd (s : State) : Host.Outcome State Fault Refusal :=
  whenReady .readCmd s (commandAlone .read .issueCommand)

/-- FAST_READ.cmd (R91, R177). -/
def execFastReadCmd (s : State) : Host.Outcome State Fault Refusal :=
  whenReady .fastReadCmd s (commandAlone .fastRead .issueCommand)

end Sys2Proof.Machine
end

