-- ==== Sys2Proof/Machine/WriteClass.lean ====
section
/-! DEFINITION. Write-class operations (R160 to R169): the bracket, PAGE_PROGRAM with its check, the erases, and
the single commands of their ISSUE_COMMAND states. -/

namespace Sys2Proof.Machine

/-- `WRITE_SEQ(cmd)` (R160): write-enable, wait, command, wait, write-disable; the first result other than `Ok`
ends it, and nothing is undone (R161). -/
def writeSeq (c : BracketCmd) (s : State) : Result × State :=
  andThen (writeEnable (setSeq .writeEnable s)) fun s =>
  andThen (waitIdle (setSeq .waitIdlePre s)) fun s =>
  andThen (micro c.busOp (setSeq .issueCommand s)) fun s =>
  andThen (waitIdle (setSeq .waitIdlePost s)) fun s =>
  writeDisable (setSeq .writeDisable s)

/-- An operation that is one bracket. -/
def runBracket (c : BracketCmd) (s : State) : State :=
  finishWith (writeSeq c (enter (.writeClass c) .writeEnable s))

/-- A bracket as an operation: refused where its command leaves the device (R63). -/
def bracket (c : BracketCmd) (s : State) : Host.Outcome State Fault Refusal :=
  withinDevice c.busOp s (runBracket c)

/-- PAGE_PROGRAM (R162): the page check on the latched operands comes before any bus activity (R163), and before any
other reason to end. -/
def pageProgram (s : State) : Host.Outcome State Fault Refusal :=
  if pageCheck (pageSize s.cfg s.geomIdx) s.reqAddr s.reqLen then bracket .pageProgram s
  else .next (finish .fail s)

/-! ## Host instructions -/

/-- PAGE_PROGRAM (R162, R163). -/
def execPageProgram (addr : Addr) (len : Nat) (buf : List Byte) (s : State) :
    Host.Outcome State Fault Refusal :=
  whenReady (.pageProgram addr len buf) s fun s => pageProgram (loadTx buf (latch 0x3 addr len s))

/-- SECTOR_ERASE: no check of the address by the block (R164). -/
def execSectorErase (addr : Addr) (len : Nat) (s : State) : Host.Outcome State Fault Refusal :=
  whenReady (.sectorErase addr len) s fun s => bracket .sectorErase (latch 0x4 addr len s)

/-- BLOCK_ERASE_32: no check of the address by the block (R165). -/
def execBlockErase32 (addr : Addr) (len : Nat) (s : State) : Host.Outcome State Fault Refusal :=
  whenReady (.blockErase32 addr len) s fun s => bracket .blockErase32 (latch 0x5 addr len s)

/-- BLOCK_ERASE_64: no check of the address by the block (R166). -/
def execBlockErase64 (addr : Addr) (len : Nat) (s : State) : Host.Outcome State Fault Refusal :=
  whenReady (.blockErase64 addr len) s fun s => bracket .blockErase64 (latch 0x6 addr len s)

/-! ## Instructions of the test port -/

/-- CHIP_ERASE: a bracket without operands (R167). -/
def execChipErase (s : State) : Host.Outcome State Fault Refusal :=
  whenReady .chipErase s (bracket .chipErase)

/-- WRITE_SEQ (R96, R160). DESIGN CHOICE (notes/assumptions/6.md): around PAGE_PROGRAM's command it makes no page
check, which R162 puts before the bracket, so the data may be longer than the `page_size` bytes of R85 and R94. -/
def execWriteSeq (c : BracketCmd) (s : State) : Host.Outcome State Fault Refusal :=
  whenReady (.writeSeq c) s (bracket c)

/-- PAGE_PROGRAM.cmd: the one exchange, on the operand registers (R91, R162). DESIGN CHOICE (notes/assumptions/6.md):
no page check, so `TXBUF`, latched also by a PAGE_PROGRAM that its check rejected, may be longer than the `page_size`
bytes of R85 and R94. -/
def execPageProgramCmd (s : State) : Host.Outcome State Fault Refusal :=
  whenReady .pageProgramCmd s (commandAlone .pageProgram .issueCommand)

/-- SECTOR_ERASE.cmd (R91, R164). -/
def execSectorEraseCmd (s : State) : Host.Outcome State Fault Refusal :=
  whenReady .sectorEraseCmd s (commandAlone .sectorErase .issueCommand)

/-- BLOCK_ERASE_32.cmd (R91, R165). -/
def execBlockErase32Cmd (s : State) : Host.Outcome State Fault Refusal :=
  whenReady .blockErase32Cmd s (commandAlone .blockErase32 .issueCommand)

/-- BLOCK_ERASE_64.cmd (R91, R166). -/
def execBlockErase64Cmd (s : State) : Host.Outcome State Fault Refusal :=
  whenReady .blockErase64Cmd s (commandAlone .blockErase64 .issueCommand)

end Sys2Proof.Machine
end

