-- ==== Sys2Proof/Machine/Dispatch.lean ====
section
/-! DEFINITION. One arm per instruction: its meaning. -/

namespace Sys2Proof.Machine

def exec (i : Instr) (s : State) : Host.Outcome State Fault Refusal :=
  match i with
  | .init a n => Sys2Proof.Machine.execInit a n s
  | .read a n => Sys2Proof.Machine.execRead a n s
  | .fastRead a n => Sys2Proof.Machine.execFastRead a n s
  | .pageProgram a n buf => Sys2Proof.Machine.execPageProgram a n buf s
  | .sectorErase a n => Sys2Proof.Machine.execSectorErase a n s
  | .blockErase32 a n => Sys2Proof.Machine.execBlockErase32 a n s
  | .blockErase64 a n => Sys2Proof.Machine.execBlockErase64 a n s
  | .illegal w => Sys2Proof.Machine.execIllegal w s
  | .readId => Sys2Proof.Machine.execReadId s
  | .readStatus1 => Sys2Proof.Machine.execReadStatus1 s
  | .writeEnable => Sys2Proof.Machine.execWriteEnable s
  | .writeDisable => Sys2Proof.Machine.execWriteDisable s
  | .pageProgramCmd => Sys2Proof.Machine.execPageProgramCmd s
  | .sectorEraseCmd => Sys2Proof.Machine.execSectorEraseCmd s
  | .blockErase32Cmd => Sys2Proof.Machine.execBlockErase32Cmd s
  | .blockErase64Cmd => Sys2Proof.Machine.execBlockErase64Cmd s
  | .chipErase => Sys2Proof.Machine.execChipErase s
  | .readCmd => Sys2Proof.Machine.execReadCmd s
  | .fastReadCmd => Sys2Proof.Machine.execFastReadCmd s
  | .waitIdle => Sys2Proof.Machine.execWaitIdle s
  | .writeSeq c => Sys2Proof.Machine.execWriteSeq c s

end Sys2Proof.Machine
end

