-- ==== Sys2Proof/Machine/Tick.lean ====
section
/-! DEFINITION. The block at the grain of R5: one step is one call on an external agent. `accept` accepts a request
(R39); `tick` takes the next event of the operation in progress and then updates registers only. `exec` says what the
same operations do as a whole (notes/assumptions/5.md). -/

namespace Sys2Proof.Machine

/-- Moves to the next `SEQ` state of a bracket; a wait begins with `POLL_CNT <- 0` (R153, R160). -/
def advance (q : Seq) (s : State) : State :=
  match q with
  | .waitIdlePre => setSeq q { s with pollCnt := 0 }
  | .waitIdlePost => setSeq q { s with pollCnt := 0 }
  | .idle => setSeq q s
  | .probe => setSeq q s
  | .writeEnable => setSeq q s
  | .issueCommand => setSeq q s
  | .writeDisable => setSeq q s

/-- After a micro-operation that is a whole `SEQ` state (R39): `Ok` goes on, any other result goes straight to
`IDLE`. -/
def onward (x : Result × State) (k : State → State) : State :=
  match x.1 with
  | .ok => k x.2
  | .fail => finish .fail x.2
  | .timeout => finish .timeout x.2

/-- One event of a WAIT_IDLE (R39, R153): a status read, or the delay that follows a busy one. -/
def tickWait (k : State → State) (s : State) : State :=
  if s.phase = .delaying then { delayUs s.cfg.pollDelayUs s with phase := .start }
  else
    let x := poll s
    match pollOutcome x.1 x.2 with
    | .ended r => onward (r, x.2) k
    | .again => { x.2 with phase := .delaying }

/-- One event of a bracket (R24, R39, R160). `IDLE` and `PROBE` are no states of a bracket. -/
def tickBracket (c : BracketCmd) (s : State) : State :=
  match s.seq with
  | .writeEnable => onward (writeEnable s) (advance .waitIdlePre)
  | .waitIdlePre => tickWait (setSeq .issueCommand) s
  | .issueCommand => onward (micro c.busOp s) (advance .waitIdlePost)
  | .waitIdlePost => tickWait (setSeq .writeDisable) s
  | .writeDisable => finishWith (writeDisable s)
  | .idle => s
  | .probe => s

/-- One event of INIT (R131): the transport hook, the identity read, the log call. -/
def tickInit (s : State) : State :=
  if s.phase = .logging then concludeInit s
  else if s.phase = .probing then
    let x := readId s
    if x.1.ok then { selectGeometry { x.2 with idBuf := identOf x.1.rx } with phase := .logging }
    else finish .fail x.2
  else
    let t := transportInit s
    if t.1 then { t.2 with phase := .probing } else finish .fail t.2

/-- One step of the block in the sense of R5, for an operation in progress. -/
def tick (s : State) : State :=
  match s.job with
  | .none => s
  | .init => tickInit s
  | .readClass k => finishWith (micro k s)
  | .writeClass c => tickBracket c s
  | .alone k => finishWith (micro k s)
  | .wait => tickWait (finish .ok) s

/-- Acceptance of a bracket. -/
def acceptBracket (c : BracketCmd) (s : State) : Host.Outcome State Fault Refusal :=
  withinDevice c.busOp s (enter (.writeClass c) .writeEnable)

/-- Acceptance of a single bus command. -/
def acceptAlone (k : BusOp) (q : Seq) (s : State) : Host.Outcome State Fault Refusal :=
  withinDevice k s (enter (.alone k) q)

/-- Accepting a request (R39): refused where the operation as a whole is refused; else operands latched, checks
made, `SEQ` at the first state of the sequence, or back in `IDLE` with `Fail` where a check failed. -/
def accept (i : Instr) (s : State) : Host.Outcome State Fault Refusal :=
  match i with
  | .init a n =>
    whenReadyForInit (.init a n) s fun s => enter .init .probe { latch 0x0 a n s with mode := s.cfg.modeStrap }
  | .read a n =>
    whenReady (.read a n) s fun s => withinDevice .read (latch 0x1 a n s) (enter (.readClass .read) .issueCommand)
  | .fastRead a n =>
    whenReady (.fastRead a n) s fun s =>
      withinDevice .fastRead (latch 0x2 a n s) (enter (.readClass .fastRead) .issueCommand)
  | .pageProgram a n buf =>
    whenReady (.pageProgram a n buf) s fun s =>
      let t := loadTx buf (latch 0x3 a n s)
      if pageCheck (pageSize t.cfg t.geomIdx) t.reqAddr t.reqLen then acceptBracket .pageProgram t
      else .next (finish .fail t)
  | .sectorErase a n => whenReady (.sectorErase a n) s fun s => acceptBracket .sectorErase (latch 0x4 a n s)
  | .blockErase32 a n => whenReady (.blockErase32 a n) s fun s => acceptBracket .blockErase32 (latch 0x5 a n s)
  | .blockErase64 a n => whenReady (.blockErase64 a n) s fun s => acceptBracket .blockErase64 (latch 0x6 a n s)
  | .illegal w => execIllegal w s
  | .readId => whenReady .readId s (acceptAlone .readId .probe)
  | .readStatus1 => whenReady .readStatus1 s (acceptAlone .readStatus1 .waitIdlePre)
  | .writeEnable => whenReady .writeEnable s (acceptAlone .writeEnable .writeEnable)
  | .writeDisable => whenReady .writeDisable s (acceptAlone .writeDisable .writeDisable)
  | .pageProgramCmd => whenReady .pageProgramCmd s (acceptAlone .pageProgram .issueCommand)
  | .sectorEraseCmd => whenReady .sectorEraseCmd s (acceptAlone .sectorErase .issueCommand)
  | .blockErase32Cmd => whenReady .blockErase32Cmd s (acceptAlone .blockErase32 .issueCommand)
  | .blockErase64Cmd => whenReady .blockErase64Cmd s (acceptAlone .blockErase64 .issueCommand)
  | .chipErase => whenReady .chipErase s (acceptBracket .chipErase)
  | .readCmd => whenReady .readCmd s (acceptAlone .read .issueCommand)
  | .fastReadCmd => whenReady .fastReadCmd s (acceptAlone .fastRead .issueCommand)
  | .waitIdle => whenReady .waitIdle s fun s => .next (enter .wait .waitIdlePre { s with pollCnt := 0 })
  | .writeSeq c => whenReady (.writeSeq c) s (acceptBracket c)

/-- The step that takes a request: its acceptance, and the first event of its operation (R5). A request that ends at
once (R92, R163) has none. -/
def takeRequest (i : Instr) (s : State) : Host.Outcome State Fault Refusal :=
  match accept i s with
  | .next t => .next (if t.seq = .idle then t else tick t)
  | .fault f => .fault f
  | .refused r => .refused r

end Sys2Proof.Machine
end

