-- ==== Sys2Proof/Machine/Step.lean ====
section
/-! DEFINITION. The step: one call on an external agent (R5). With the port ready (`SEQ = IDLE`, R28) a step takes the
next request, runs the instruction it decodes to up to its first event, and each further step is one more event, until
the operation has run to completion (R65 (a), R216) and left the state `exec` gives (notes/assumptions/5.md). With no
request the block stays in `IDLE` (R215) and only the device may move (R71). -/

namespace Sys2Proof.Machine

/-- One step of the machine. -/
def step (s : State) : Host.Outcome State Fault Refusal :=
  if s.seq ≠ .idle then .next (tick s)
  else
    match fetch s with
    | none => .next (deviceMoment s)
    | some (.ok i, t) => takeRequest i t
    | some (.error (.unknownBusOpcode b), _) => .refused (.unknownBusOpcode b)

/-- The state with a table word placed so that the next step fetches it and runs it, the first event of it where its
operation has several (notes/assumptions/5.md, notes/assumptions/8.md). -/
def State.withFetchWord (s : State) (nbits w : Nat) : State := placeTableWord s nbits w

end Sys2Proof.Machine
end

