-- ==== Sys2Proof/Safety.lean ====
section
/-! DEFINITION. What claims are stated in: when a request runs, what a run leaves invariant, the byte array seen
from outside, and the events an operation appends. -/

namespace Sys2Proof.Machine

/-! ## When a request runs -/

/-- The port is ready, the parameters are well-formed and INIT has ended with `Ok` (R28, R31, R232). -/
def Ready (s : State) : Prop := s.seq = .idle ∧ s.cfg.wf = true ∧ s.inited = true

/-- The same before INIT (R130). -/
def ReadyForInit (s : State) : Prop := s.seq = .idle ∧ s.cfg.wf = true ∧ s.inited = false

/-- A request has ended (R244): `SEQ` is back in `IDLE`. -/
def Ended (s : State) : Prop := s.seq = .idle

/-! ## Groups of instructions -/

/-- The instructions of one read: READ, FAST_READ (R175) with their operation code and bus command. -/
def readOf : Instr → Option (BitVec 4 × Addr × Nat × BusOp)
  | .read a n => some (0x1, a, n, .read)
  | .fastRead a n => some (0x2, a, n, .fastRead)
  | _ => none

/-- The instructions that run one bus command by itself, with the command (R150 to R152, R132, R91). -/
def aloneOf : Instr → Option BusOp
  | .readId => some .readId
  | .readStatus1 => some .readStatus1
  | .writeEnable => some .writeEnable
  | .writeDisable => some .writeDisable
  | .pageProgramCmd => some .pageProgram
  | .sectorEraseCmd => some .sectorErase
  | .blockErase32Cmd => some .blockErase32
  | .blockErase64Cmd => some .blockErase64
  | .readCmd => some .read
  | .fastReadCmd => some .fastRead
  | _ => none

/-- The instructions that are a bracket (R160), with the bracketed command. -/
def bracketOf : Instr → Option BracketCmd
  | .pageProgram _ _ _ => some .pageProgram
  | .sectorErase _ _ => some .sectorErase
  | .blockErase32 _ _ => some .blockErase32
  | .blockErase64 _ _ => some .blockErase64
  | .chipErase => some .chipErase
  | .writeSeq c => some c
  | _ => none

/-- The bus command of an instruction that may take an address to the device, in its ISSUE_COMMAND state (R91). -/
def commandOf (i : Instr) : Option BusOp :=
  match readOf i with
  | some (_, _, _, k) => some k
  | none =>
    match aloneOf i with
    | some k => some k
    | none => (bracketOf i).map BracketCmd.busOp

/-- The first `SEQ` state of an instruction's operation (R39; of a micro-operation of the test port,
notes/assumptions/6.md). An illegal request has no operation and stays in `IDLE` (R92). -/
def firstSeq : Instr → Seq
  | .init _ _ => .probe
  | .read _ _ => .issueCommand
  | .fastRead _ _ => .issueCommand
  | .pageProgram _ _ _ => .writeEnable
  | .sectorErase _ _ => .writeEnable
  | .blockErase32 _ _ => .writeEnable
  | .blockErase64 _ _ => .writeEnable
  | .illegal _ => .idle
  | .readId => .probe
  | .readStatus1 => .waitIdlePre
  | .writeEnable => .writeEnable
  | .writeDisable => .writeDisable
  | .pageProgramCmd => .issueCommand
  | .sectorEraseCmd => .issueCommand
  | .blockErase32Cmd => .issueCommand
  | .blockErase64Cmd => .issueCommand
  | .chipErase => .writeEnable
  | .readCmd => .issueCommand
  | .fastReadCmd => .issueCommand
  | .waitIdle => .waitIdlePre
  | .writeSeq _ => .writeEnable

/-- A request that ends when it is accepted, with no event: an illegal one (R92), or a PAGE_PROGRAM whose page check
failed (R163). -/
def endsAtOnce (i : Instr) (s : State) : Prop :=
  (∃ w, i = .illegal w) ∨
    ∃ a n buf, i = .pageProgram a n buf ∧ pageCheck (pageSize s.cfg s.geomIdx) a n = false

/-- The state with a host request's operands latched (R28, R81), as the operation sees it. -/
def latched (i : Instr) (s : State) : State :=
  match i with
  | .init a n => latch 0x0 a n s
  | .read a n => latch 0x1 a n s
  | .fastRead a n => latch 0x2 a n s
  | .pageProgram a n buf => loadTx buf (latch 0x3 a n s)
  | .sectorErase a n => latch 0x4 a n s
  | .blockErase32 a n => latch 0x5 a n s
  | .blockErase64 a n => latch 0x6 a n s
  | _ => s

/-- The range of PAGE_PROGRAM lies in one page of the selected geometry (R57); no other instruction is checked. -/
def contained (i : Instr) (s : State) : Prop :=
  match i with
  | .pageProgram a n _ => a.toNat % pageSize s.cfg s.geomIdx + n ≤ pageSize s.cfg s.geomIdx
  | _ => True

/-- The instruction's command stays inside the device behind the transport (R63, R74 (c)); with the oracle there,
whose size is not known, it always does. -/
def insideDevice (i : Instr) (s : State) : Prop := ∀ k, commandOf i = some k → reaches k (latched i s) = true

/-! ## The byte array -/

/-- The byte array behind the transport, when the reference device stands there. -/
def State.device? (s : State) : Option Device :=
  match s.env with
  | .oracle => none
  | .reference d => some d

/-- The addresses a bracketed command may change in a device of `size` bytes, from the operand registers: the
first and how many (R54, R58). -/
def target (size : Nat) (s : State) : BracketCmd → Nat × Nat
  | .pageProgram => (s.reqAddr.toNat, s.txBuf.length)
  | .sectorErase => (regionBase s.reqAddr.toNat Config.sectorBytes, Config.sectorBytes)
  | .blockErase32 => (regionBase s.reqAddr.toNat Config.block32Bytes, Config.block32Bytes)
  | .blockErase64 => (regionBase s.reqAddr.toNat Config.block64Bytes, Config.block64Bytes)
  | .chipErase => (0, size)

/-- A device that does nothing of its own: no work in progress (R74 (e)). -/
def Device.quiet (d : Device) : Prop := d.busy = false ∧ d.pending = none ∧ d.touched = []

/-- No command with an unspecified effect has touched the byte since the device was last idle (R74 (b)). -/
def Device.untouched (d : Device) (x : Nat) : Prop := ∀ r ∈ d.touched, x < r.1 ∨ r.1 + r.2 ≤ x

/-- The bracketed command that a single command of the test port sends by itself. -/
def writeCmdOf : Instr → Option BracketCmd
  | .pageProgramCmd => some .pageProgram
  | .sectorEraseCmd => some .sectorErase
  | .blockErase32Cmd => some .blockErase32
  | .blockErase64Cmd => some .blockErase64
  | _ => none

/-! ## Answers and events of a run -/

/-- An answer that reports success and, where a status byte is asked, one byte of the given value. -/
def statusAnswer (b : Byte) (a : Answer) : Prop := a.ok = true ∧ a.rx = [b]

/-- The event of one bus command answered `Ok` with `rx`, in the state `s` with `SEQ = q`. -/
def okEvent (s : State) (q : Seq) (k : BusOp) (rx : List Byte) : Event :=
  ⟨q, some (descriptor s k), frame s.cfg s.mode (descriptor s k), .ok rx⟩

/-- The event of one bus command that failed. -/
def failEvent (s : State) (q : Seq) (k : BusOp) : Event :=
  ⟨q, some (descriptor s k), frame s.cfg s.mode (descriptor s k), .fail⟩

/-- The delay event of a WAIT_IDLE (R156). -/
def delayEvent (s : State) (q : Seq) : Event := ⟨q, none, .delayUs s.cfg.pollDelayUs, .done⟩

/-- The events of the busy polls of a WAIT_IDLE, latest first: status reads that returned `bs`, in this order,
each followed by one delay (R153, R156). -/
def busyEvents (s : State) (q : Seq) : List Byte → List Event
  | [] => []
  | b :: bs => busyEvents s q bs ++ [delayEvent s q, okEvent s q .readStatus1 [b]]

/-- The answers of busy polls: for each status byte an answer that reports success with it, and one for the delay
that follows. -/
def busyAnswers : List Byte → List Answer → Prop
  | [], [] => True
  | b :: bs, a :: _ :: as => statusAnswer b a ∧ busyAnswers bs as
  | _, _ => False

/-- The premises of R74 (e) on the outside agents, for an operation that starts on an idle device: the answers to its
first `n` events are listed, every one of them reports success, and at the end of one of them, after the command (the
third event) and before the 500th status read of the second wait (event 1002), the device completes. -/
def completesInTime (n : Nat) (s : State) : Prop :=
  n ≤ s.answers.length ∧ (∀ a ∈ s.answers, a.ok = true) ∧
    ∃ (j : Nat) (a : Answer), s.answers[j]? = some a ∧ 2 ≤ j ∧ j ≤ 1000 ∧ a.after.now = true

/-! ## What no step reads or writes -/

/-- An event without the form its descriptor took on the bus (R111). -/
def Event.noCall (e : Event) : Event :=
  match e.cmd with
  | some _ => { e with call := .delayMs 0 }
  | none => e

/-- A state without the mode tag and without the bus form of its events (R111). -/
def State.noMode (s : State) : State := { s with mode := .spi, events := s.events.map Event.noCall }

/-- An outcome seen through a function of the next state. -/
def outcomeMap (f : State → State) : Host.Outcome State Fault Refusal → Host.Outcome State Fault Refusal
  | .next s => .next (f s)
  | .fault r => .fault r
  | .refused r => .refused r

/-! ## The invariant -/

/-- The device's byte array is canonical and lies in the device, and so does pending work (R70, R71). -/
def Device.wf (d : Device) : Prop :=
  Memory.wf d.mem = true ∧ (∀ c ∈ d.mem, c.1 < d.size) ∧
    match d.pending with
    | some (.program a data) => a + data.length ≤ d.size
    | some (.erase _ _) => True
    | none => True

/-- `SEQ` stands in one of the two waits. -/
def waiting (q : Seq) : Prop := q = .waitIdlePre ∨ q = .waitIdlePost

/-- `SEQ`, the operation in progress and its phase fit each other (R24, R39), and nothing but INIT is in progress
before INIT has ended with `Ok` (R138). -/
def coherent (s : State) : Prop :=
  match s.job with
  | .none => s.seq = .idle ∧ s.phase = .start
  | .init => s.seq = .probe ∧ s.phase ≠ .delaying ∧ s.inited = false
  | .readClass k => (k = .read ∨ k = .fastRead) ∧ s.seq = .issueCommand ∧ s.phase = .start ∧ s.inited = true
  | .writeClass _ =>
    s.seq ≠ .idle ∧ s.seq ≠ .probe ∧ (s.phase = .start ∨ (s.phase = .delaying ∧ waiting s.seq)) ∧ s.inited = true
  | .alone _ => s.seq ≠ .idle ∧ s.phase = .start ∧ s.inited = true
  | .wait => s.seq = .waitIdlePre ∧ (s.phase = .start ∨ s.phase = .delaying) ∧ s.inited = true

/-- What every step keeps. -/
structure MachineInv (s : State) : Prop where
  /-- The parameters are well-formed (R31, R90). -/
  params : s.cfg.wf = true
  /-- `GEOM_IDX` is an index of the table (R22). -/
  geomIdx : s.geomIdx < s.cfg.geomTable.length
  /-- Before INIT ends with `Ok`, `GEOM_IDX` keeps its reset value, but inside INIT after a match (R22, R23). -/
  fallback : s.inited = false → s.geomIdx = 0 ∨ s.phase = .logging
  /-- `POLL_CNT` never exceeds the bound (R25). -/
  pollCnt : s.pollCnt ≤ Config.pollBound
  /-- Inside a wait the bound is not yet reached (R153); one status read alone does not count polls. -/
  polling : waiting s.seq → s.job ≠ .alone .readStatus1 → s.pollCnt < Config.pollBound
  /-- `REQ_LEN` fits its width (R28). -/
  reqLen : s.reqLen < 2 ^ s.cfg.lenBits
  /-- `SEQ`, operation and phase fit (R24, R39). -/
  place : coherent s
  /-- The device's array is canonical (R70). -/
  device : ∀ d, s.device? = some d → d.wf

end Sys2Proof.Machine
end

