-- ==== Sys2Proof/Certificates/Slice0/Obligations.lean ====
section
/-! DEFINITION. The statements for the provers. Each says what the machine does under a rule of spec/; none is about
a program. Where a value is free or chosen by an outside agent a statement holds for every choice. -/

open Sys2Proof Sys2Proof.Machine

/-! ## Reset and the invariant -/

/-- R230: after reset `GEOM_IDX = 0`, `INITED = 0`, `SEQ = IDLE`, and the geometry registry holds its parameter
value, whatever the parameters are and whatever stands behind the transport. -/
def Obligations.ResetLeavesStatedValues : Prop :=
  ∀ (p : Params) (e : Env),
    (State.resetWith p e).geomIdx = 0 ∧ (State.resetWith p e).inited = false ∧ (State.resetWith p e).seq = .idle ∧
      (State.resetWith p e).cfg.geomTable = p.geomTable

/-- R231: a reset of the block in any state, also inside an operation, sends no command and leaves the device with its
array, busy flag, latch and pending work as they are; the block's registers are those after reset. The port and the
coming answers stay by log 3. -/
def Obligations.ResetKeepsDevice : Prop :=
  ∀ s : State, (resetBlock s).env = s.env ∧ (resetBlock s).events = s.events ∧
    (resetBlock s).answers = s.answers ∧ (resetBlock s).port = s.port ∧
    (resetBlock s).geomIdx = 0 ∧ (resetBlock s).inited = false ∧ (resetBlock s).seq = .idle ∧
    (resetBlock s).cfg = s.cfg ∧ (MachineInv s → MachineInv (resetBlock s))

/-- The invariant holds after reset, for all well-formed parameters and whatever stands behind the transport. -/
def Obligations.InvariantHoldsAtReset : Prop :=
  ∀ (p : Params) (e : Env), p.wf = true → (∀ d, e = .reference d → d.wf) → MachineInv (State.resetWith p e)

/-- The invariant is kept by every step and by every whole operation (R22, R23, R25, R28, R39, R70). -/
def Obligations.StepKeepsInvariant : Prop :=
  (∀ s t : State, MachineInv s → step s = .next t → MachineInv t) ∧
  (∀ (i : Instr) (s t : State), MachineInv s → i.wf s.cfg = true → exec i s = .next t → MachineInv t)

/-! ## Encoding -/

/-- Decoding the encoding of a well-formed instruction gives it back, for all well-formed parameters: every
instruction, every operand value. -/
def Obligations.DecodeInvertsEncode : Prop :=
  ∀ (p : Params) (i : Instr), p.wf = true → i.wf p = true → decode p (encode p i) = .ok i

/-- The other direction: a legal command word, its length and its buffer come back from the decoded instruction,
and so does an opcode byte the decoder accepts. -/
def Obligations.EncodeInvertsDecode : Prop :=
  (∀ (p : Params) (w : Word) (lenw : Nat) (buf : List Byte), illegalWord w = false →
    encode p (decodeHost p w lenw buf)
      = .host w (lenw % 2 ^ p.lenBits) (if cmdwOp w = 3 then buf else [])) ∧
  (∀ (p : Params) (b : Byte) (i : Instr), decode p (.micro b) = .ok i → encode p i = .micro b)

/-- Words written out from R81, R82 and R90 decode to the instructions they stand for: one word of every host
operation, an illegal operation code, a reserved bit, and the opcode byte of every bus command. -/
def Obligations.WrittenOutWordsDecode : Prop :=
  decodeTableWord 32 0x00ABCDEF = some (.init 0xABCDEF 0) ∧
  decodeTableWord 64 0x0000010010001000 = some (.read 0x001000 256) ∧
  decodeTableWord 64 0x0000000220000010 = some (.fastRead 0x000010 2) ∧
  decode Params.default (.host 0x30001000 2 [0xAA, 0xBB]) = .ok (.pageProgram 0x001000 2 [0xAA, 0xBB]) ∧
  decodeTableWord 32 0x40001000 = some (.sectorErase 0x001000 0) ∧
  decodeTableWord 32 0x5000A000 = some (.blockErase32 0x00A000 0) ∧
  decodeTableWord 32 0x6001A000 = some (.blockErase64 0x01A000 0) ∧
  decodeTableWord 32 0x70000000 = some (.illegal 0x70000000) ∧
  decodeTableWord 32 0x11001000 = some (.illegal 0x11001000) ∧
  decodeTableWord 8 0x9F = some .readId ∧
  decodeTableWord 8 0x05 = some .readStatus1 ∧
  decodeTableWord 8 0x06 = some .writeEnable ∧
  decodeTableWord 8 0x04 = some .writeDisable ∧
  decodeTableWord 8 0x02 = some .pageProgramCmd ∧
  decodeTableWord 8 0x20 = some .sectorEraseCmd ∧
  decodeTableWord 8 0x52 = some .blockErase32Cmd ∧
  decodeTableWord 8 0xD8 = some .blockErase64Cmd ∧
  decodeTableWord 8 0xC7 = some .chipErase ∧
  decodeTableWord 8 0x03 = some .readCmd ∧
  decodeTableWord 8 0x0B = some .fastReadCmd

/-- R91: the one descriptor each step builds, from the operand registers. -/
def Obligations.DescriptorTable : Prop :=
  ∀ (s : State),
    descriptor s .readId = ⟨0x9F, none, [], 3⟩ ∧
    descriptor s .readStatus1 = ⟨s.cfg.opcodes.rdsr1, none, [], 1⟩ ∧
    descriptor s .writeEnable = ⟨s.cfg.opcodes.wren, none, [], 0⟩ ∧
    descriptor s .writeDisable = ⟨s.cfg.opcodes.wrdi, none, [], 0⟩ ∧
    descriptor s .pageProgram = ⟨s.cfg.opcodes.pp, some s.reqAddr, s.txBuf, 0⟩ ∧
    descriptor s .sectorErase = ⟨s.cfg.opcodes.se, some s.reqAddr, [], 0⟩ ∧
    descriptor s .blockErase32 = ⟨s.cfg.opcodes.be32, some s.reqAddr, [], 0⟩ ∧
    descriptor s .blockErase64 = ⟨s.cfg.opcodes.be64, some s.reqAddr, [], 0⟩ ∧
    descriptor s .chipErase = ⟨s.cfg.opcodes.ce, none, [], 0⟩ ∧
    descriptor s .read = ⟨s.cfg.opcodes.read, some s.reqAddr, [], s.reqLen⟩ ∧
    descriptor s .fastRead = ⟨s.cfg.opcodes.fread, some s.reqAddr, [], s.reqLen⟩

/-! ## The step and the request port -/

/-- A step with the port ready takes the request at its head and runs the decoded instruction: it refuses what `exec`
refuses; an instruction of one event or none (a read, a single command, an illegal request) is done in this one step,
which then is `exec`; of any other it is the first event (OperationIsItsEvents says what the further steps lead to). A
test-port byte that is no flash opcode is refused by name; with no request only the device may move, by completing as
the answer of this moment says (log 13), and an idle one stays; with an operation in progress a step is its next
event. -/
def Obligations.StepRunsDecodedRequest : Prop :=
  (∀ (s : State) (r : Request) (rest : List Request) (i : Instr), s.seq = .idle → s.port = r :: rest →
    decode s.cfg r = .ok i →
    step s = takeRequest i { s with port := rest } ∧
    (∀ x : Refusal, step s = .refused x ↔ exec i { s with port := rest } = .refused x) ∧
    ((readOf i).isSome = true ∨ (aloneOf i).isSome = true ∨ (∃ w, i = .illegal w) →
      step s = exec i { s with port := rest })) ∧
  (∀ (s : State) (r : Request) (rest : List Request) (b : Byte), s.seq = .idle → s.port = r :: rest →
    decode s.cfg r = .error (.unknownBusOpcode b) → step s = .refused (.unknownBusOpcode b)) ∧
  (∀ s : State, s.seq = .idle → s.port = [] → ∃ t : State, step s = .next t ∧
    t = { s with
      env := s.env.complete s.free (nextAnswer s).after, answers := s.answers.tail, free := s.free + 1 } ∧
    (∀ d, s.env = .reference d → d.busy = false → t.env = s.env)) ∧
  (∀ s : State, s.seq ≠ .idle → step s = .next (tick s))

/-- R28: while `SEQ` is not `IDLE` the port is not ready and a second request waits: a step leaves the port as it is,
and `exec` on such a state puts the request back at the head of the port and changes nothing else, whatever it is. -/
def Obligations.RequestWaitsWhileBusy : Prop :=
  ∀ s : State, s.seq ≠ .idle →
    (∀ t : State, step s = .next t → t.port = s.port) ∧
    (∀ i : Instr, exec i s = .next { s with port := encode s.cfg i :: s.port })

/-- R92 (and R93 on reserved bits): a host request whose operation code is 0x7 to 0xF or whose reserved bits are
not 0 ends at once with `Fail`; nothing else changes, whatever `INITED` is. -/
def Obligations.IllegalRequestFails : Prop :=
  ∀ (p : Params) (w : Word) (lenw : Nat) (buf : List Byte) (s : State),
    (7 ≤ (w >>> 28).toNat ∨ (w >>> 24) &&& 0xF ≠ 0) → s.seq = .idle →
    decode p (.host w lenw buf) = .ok (.illegal w) ∧ exec (.illegal w) s = .next { s with res := .fail }

/-- R138: before INIT has ended with `Ok` every host request but INIT is refused; a request with an illegal operation
code or reserved bits that are not 0 is not refused but fails. -/
def Obligations.UninitialisedRequestRefused : Prop :=
  ∀ (w : Word) (lenw : Nat) (buf : List Byte) (s : State), ReadyForInit s →
    ((7 ≤ (w >>> 28).toNat ∨ (w >>> 24) &&& 0xF ≠ 0) →
      ∃ t : State, exec (decodeHost s.cfg w lenw buf) s = .next t ∧ t.res = .fail) ∧
    (1 ≤ (w >>> 28).toNat → (w >>> 28).toNat < 7 → (w >>> 24) &&& 0xF = 0 →
      exec (decodeHost s.cfg w lenw buf) s = .refused .notInitialised)

/-- R110's precondition at the test port (notes/assumptions/6.md): before INIT has ended with `Ok` every
micro-operation is refused. -/
def Obligations.MicroOperationsNeedInit : Prop :=
  ∀ (i : Instr) (s : State), ReadyForInit s →
    ((aloneOf i).isSome = true ∨ i = .waitIdle ∨ i = .chipErase ∨ ∃ c, i = .writeSeq c) →
    exec i s = .refused .notInitialised

/-- R137: INIT after a successful INIT is refused. -/
def Obligations.SecondInitRefused : Prop :=
  ∀ (a : Addr) (n : Nat) (s : State), Ready s → exec (.init a n) s = .refused .alreadyInitialised

/-- R31, R90: parameters that are not well-formed are refused, by every request but an illegal one. -/
def Obligations.IllFormedParametersRefused : Prop :=
  ∀ (i : Instr) (s : State), s.seq = .idle → s.cfg.wf = false → (∀ w, i ≠ .illegal w) →
    exec i s = .refused .parametersRefused

/-- R63, R178, R74 (c), D18: with the reference device behind the transport a request outside it is refused: a read
that runs past its end, an erase at or above its size, a program that passes the page check but leaves the device or
a page of the device; so are the single commands and WRITE_SEQ of the test port when the operand registers ask for
that. The block itself checks none of it. -/
def Obligations.OutsideDeviceRefused : Prop :=
  ∀ (s : State) (d : Device), Ready s → s.env = .reference d →
    (∀ (i : Instr) (op : BitVec 4) (a : Addr) (n : Nat) (k : BusOp), readOf i = some (op, a, n, k) →
      d.size < a.toNat + n → exec i s = .refused .outsideDevice) ∧
    (∀ (i : Instr) (a : Addr) (n : Nat),
      i = .sectorErase a n ∨ i = .blockErase32 a n ∨ i = .blockErase64 a n →
      d.size ≤ a.toNat → exec i s = .refused .outsideDevice) ∧
    (∀ (a : Addr) (n : Nat) (buf : List Byte), s.geomIdx < s.cfg.geomTable.length →
      contained (.pageProgram a n buf) s →
      d.size ≤ a.toNat ∨ d.size < a.toNat + n ∨ d.page < a.toNat % d.page + n →
      exec (.pageProgram a n buf) s = .refused .outsideDevice) ∧
    (∀ (i : Instr) (k : BusOp), aloneOf i = some k → d.holds k (descriptor s k) = false →
      exec i s = .refused .outsideDevice) ∧
    (∀ c : BracketCmd, d.holds c.busOp (descriptor s c.busOp) = false →
      exec (.writeSeq c) s = .refused .outsideDevice)

/-! ## The transport multiplexer -/

/-- R112, R86, R53: in SPI mode an exchange is exactly one event: `send` of the frame when nothing comes back,
`transfer` with the inbound count when something does. The frame is the opcode, the address's three bytes with
the most significant first (none without an address), the filler bytes of FAST_READ, the data. The result is the
bus driver's, and `rx_len` bytes come back. -/
def Obligations.SpiExchangeIsOneFrame : Prop :=
  ∀ (cmd : Cmd) (s : State), s.mode = .spi →
    ∃ abytes out : List Byte,
      (cmd.addr = none → abytes = []) ∧
      (∀ a, cmd.addr = some a → ∃ b2 b1 b0 : Byte,
        abytes = [b2, b1, b0] ∧ b2.toNat * 65536 + b1.toNat * 256 + b0.toNat = a.toNat) ∧
      out = [cmd.opc] ++ abytes
        ++ (if cmd.opc = s.cfg.opcodes.fread then List.replicate s.cfg.frDummyBytes 0x00 else []) ++ cmd.tx ∧
      (xfer cmd s).1.ok = (nextAnswer s).ok ∧ (xfer cmd s).1.rx.length = cmd.rxLen ∧
      (xfer cmd s).2.events =
        ⟨s.seq, some cmd, if cmd.rxLen = 0 then .spiSend out else .spiTransfer out cmd.rxLen,
          if (nextAnswer s).ok then .ok (xfer cmd s).1.rx else .fail⟩ :: s.events

/-- R115, R88: in QSPI mode an exchange is exactly one peripheral call with the descriptor's fields; of every
descriptor the engine builds, at most one of data out and data in is there, the direction says which, and the
length is how many bytes. -/
def Obligations.QspiExchangeIsOneCall : Prop :=
  (∀ (cmd : Cmd) (s : State), s.mode = .qspi →
    (xfer cmd s).1.ok = (nextAnswer s).ok ∧ (xfer cmd s).1.rx.length = cmd.rxLen ∧
    (xfer cmd s).2.events =
      ⟨s.seq, some cmd, .qspiTransfer cmd.opc cmd.addr cmd.tx cmd.rxLen,
        if (nextAnswer s).ok then .ok (xfer cmd s).1.rx else .fail⟩ :: s.events) ∧
  (∀ (s : State) (k : BusOp),
    ((descriptor s k).tx = [] ∨ (descriptor s k).rxLen = 0) ∧
    qspiLength (descriptor s k) = (descriptor s k).tx.length + (descriptor s k).rxLen ∧
    (qspiDirection (descriptor s k) = .out ↔ (descriptor s k).tx ≠ []) ∧
    (qspiDirection (descriptor s k) = .inn ↔ (descriptor s k).rxLen ≠ 0))

/-- R110: an exchange writes no register of the block: only the outside agents, the answers they have left, the
free values and the events move. -/
def Obligations.ExchangeWritesNoRegister : Prop :=
  ∀ (cmd : Cmd) (s : State),
    (xfer cmd s).2 =
      { s with
        env := (xfer cmd s).2.env
        answers := s.answers.tail
        free := s.free + 1
        events := (xfer cmd s).2.events }

/-- R111: the mode changes how a descriptor is carried, not what is done: two runs of one operation from states
that differ in `MODE` alone agree in everything but `MODE` and the bus form of the events. -/
def Obligations.CommandsDoNotDependOnMode : Prop :=
  ∀ (i : Instr) (s : State) (m : Mode),
    outcomeMap State.noMode (exec i { s with mode := m }) = outcomeMap State.noMode (exec i s)

/-! ## INIT -/

/-- R134, R135 (and the success path of R131): with a good transport and a good identity read INIT ends with `Ok`
and `INITED = 1`, binds the mode, keeps the identity; an exact match selects its entry, whatever its place, no
match leaves `GEOM_IDX` as it is; the events are the hook, the identity read and one log call with the entry or
the unknown identity; nothing else changes. The identity is what the oracle answers or, with an idle reference device
behind the transport, its `DEV_ID` (R72). -/
def Obligations.InitSelectsGeometry : Prop :=
  ∀ (a : Addr) (n : Nat) (s : State) (a0 a1 a2 : Answer) (rest : List Answer) (id : Ident),
    ReadyForInit s → s.answers = a0 :: a1 :: a2 :: rest → a0.ok = true → a1.ok = true →
    (s.env = .oracle ∧ a1.rx = [id.manufacturer, id.memoryType, id.capacity] ∨
      ∃ d, s.env = .reference d ∧ d.busy = false ∧ d.id = id) →
    ∃ (t : State) (tag : LogTag), exec (.init a n) s = .next t ∧
      t = { s with
            mode := s.cfg.modeStrap, geomIdx := t.geomIdx, inited := true, res := .ok, reqOp := 0, reqAddr := a,
            reqLen := n, idBuf := id, answers := rest, free := s.free + 3, job := .none, phase := .start,
            events :=
              ⟨.probe, none, .log tag, .done⟩ ::
              ⟨.probe, some ⟨0x9F, none, [], 3⟩, frame s.cfg s.cfg.modeStrap ⟨0x9F, none, [], 3⟩,
                .ok [id.manufacturer, id.memoryType, id.capacity]⟩ ::
              ⟨.probe, none, .transportInit, .ok []⟩ :: s.events } ∧
      (∀ (i : Nat) (e : Geometry), s.cfg.geomTable[i]? = some e → e.ident = id →
        t.geomIdx = i ∧ tag = .geometryFound e) ∧
      ((∀ e ∈ s.cfg.geomTable, e.ident ≠ id) → t.geomIdx = s.geomIdx ∧ tag = .geometryUnknown id)

/-- R231: INIT does not wait for idle. If the device is still busy with work from before a reset when the identity
read reaches it, any three bytes may come back, and INIT ends with `Ok` on them; if no entry has them, with the
fallback. -/
def Obligations.InitOnBusyDeviceTakesAnyIdentity : Prop :=
  ∀ (a : Addr) (n : Nat) (s : State) (d : Device) (a0 a1 : Answer) (rest : List Answer) (m y c : Byte),
    ReadyForInit s → s.env = .reference d → d.busy = true → s.answers = a0 :: a1 :: rest →
    a0.ok = true → a0.after.now = false → a1.ok = true → a1.before.now = false → a1.rx = [m, y, c] →
    ∃ t : State, exec (.init a n) s = .next t ∧ t.res = .ok ∧ t.inited = true ∧ t.idBuf = ⟨m, y, c⟩ ∧
      ((∀ e ∈ s.cfg.geomTable, e.ident ≠ ⟨m, y, c⟩) → t.geomIdx = s.geomIdx)

/-- R136: a failed hook or a failed identity read ends INIT at once with `Fail`: no scan, no log, `GEOM_IDX`
unchanged, `INITED` stays 0; in the first case no bus exchange is made. What the operand registers hold after the
end is the model's reading (log 11). -/
def Obligations.InitFailureKeepsGeometry : Prop :=
  (∀ (a : Addr) (n : Nat) (s : State), ReadyForInit s → (nextAnswer s).ok = false →
    exec (.init a n) s = .next
      { s with
        mode := s.cfg.modeStrap, res := .fail, reqOp := 0, reqAddr := a, reqLen := n,
        env := s.env.complete s.free (nextAnswer s).after, answers := s.answers.tail,
        free := s.free + 1, job := .none, phase := .start,
        events := ⟨.probe, none, .transportInit, .fail⟩ :: s.events }) ∧
  (∀ (a : Addr) (n : Nat) (s : State) (a0 a1 : Answer) (rest : List Answer), ReadyForInit s →
    s.answers = a0 :: a1 :: rest → a0.ok = true → a1.ok = false →
    ∃ t : State, exec (.init a n) s = .next t ∧
      t = { s with
            mode := s.cfg.modeStrap, res := .fail, reqOp := 0, reqAddr := a, reqLen := n, idBuf := t.idBuf,
            env := t.env, answers := rest, free := s.free + 2, job := .none, phase := .start,
            events :=
              ⟨.probe, some ⟨0x9F, none, [], 3⟩, frame s.cfg s.cfg.modeStrap ⟨0x9F, none, [], 3⟩, .fail⟩ ::
              ⟨.probe, none, .transportInit, .ok []⟩ :: s.events })

/-- R130, R23: INIT runs whenever the block is idle and not initialised, whatever the agents answer; its result is
`Ok` or `Fail`, never `Timeout`, and `INITED` is set exactly on `Ok`. What the operand registers hold after the end is
the model's reading (log 11). -/
def Obligations.InitCompletes : Prop :=
  ∀ (a : Addr) (n : Nat) (s : State), ReadyForInit s →
    ∃ t : State, exec (.init a n) s = .next t ∧ t.seq = .idle ∧ t.mode = s.cfg.modeStrap ∧ t.reqOp = 0 ∧
      t.reqAddr = a ∧ t.reqLen = n ∧
      ((t.res = .ok ∧ t.inited = true) ∨ (t.res = .fail ∧ t.inited = false ∧ t.geomIdx = s.geomIdx))

/-! ## Read-class operations -/

/-- R175 to R177: READ and FAST_READ are one exchange of their command at the given address and length, with no
check of either by the block; the result is the exchange's, `REQ_LEN` bytes land in `RXBUF`, on success those that came
back; no other register changes, and the agents behind the transport are left as this one exchange leaves them. What the
operand registers hold after the end is the model's reading (log 11), and so is that `RXBUF` has `REQ_LEN` bytes also
after a failure (log 12). -/
def Obligations.ReadRunsOneExchange : Prop :=
  ∀ (i : Instr) (op : BitVec 4) (a : Addr) (n : Nat) (k : BusOp) (s : State),
    readOf i = some (op, a, n, k) → Ready s → insideDevice i s →
    ∃ t : State, exec i s = .next t ∧ t.rxBuf.length = n ∧
      (t.rxBuf, t.env) = respond (latched i s) (nextAnswer s) (descriptor (latched i s) k) ∧
      t = { s with
            reqOp := op, reqAddr := a, reqLen := n, rxBuf := t.rxBuf, env := t.env,
            res := if (nextAnswer s).ok then .ok else .fail, answers := s.answers.tail, free := s.free + 1,
            job := .none, phase := .start,
            events :=
              ⟨.issueCommand, some ⟨opcodeOf s.cfg.opcodes k, some a, [], n⟩,
                frame s.cfg s.mode ⟨opcodeOf s.cfg.opcodes k, some a, [], n⟩,
                if (nextAnswer s).ok then .ok t.rxBuf else .fail⟩ :: s.events } ∧
      (∀ (ans : Answer) (rest : List Answer), s.env = .oracle → s.answers = ans :: rest → ans.rx.length = n →
        t.rxBuf = ans.rx ∧ t.env = .oracle)

/-- R73, R54: with the reference device idle and the range inside it, a read that succeeds returns the bytes of
the array in address order and leaves the device as it was. -/
def Obligations.ReadReturnsArrayBytes : Prop :=
  ∀ (i : Instr) (op : BitVec 4) (a : Addr) (n : Nat) (k : BusOp) (s : State) (d : Device),
    readOf i = some (op, a, n, k) → Ready s → s.env = .reference d → d.busy = false →
    (nextAnswer s).ok = true → a.toNat + n ≤ d.size →
    ∃ t : State, exec i s = .next t ∧ t.res = .ok ∧ t.env = .reference d ∧ t.rxBuf.length = n ∧
      ∀ j, j < n → t.rxBuf[j]? = some (Memory.read d.mem (a.toNat + j))

/-- R177: FAST_READ returns the data READ returns for the same address and length, with the same result and the
same effect on the agents. -/
def Obligations.FastReadReturnsSameData : Prop :=
  ∀ (a : Addr) (n : Nat) (s t : State), Ready s → exec (.read a n) s = .next t →
    ∃ u : State, exec (.fastRead a n) s = .next u ∧ u.rxBuf = t.rxBuf ∧ u.res = t.res ∧ u.env = t.env

/-! ## Single bus commands -/

/-- R132, R150, R151, R152, R91: a bus command by itself is one exchange of its descriptor, without a bracket and
without a wait; its result is the exchange's. READ_STATUS1 leaves the byte in `SR_LAST`, the reads leave their
bytes in `RXBUF`, READ_ID touches `ID_BUF` only when it fails; no other register changes, and the agents behind the
transport are left as this one exchange leaves them. That a micro-operation runs so is the model's test port (log 6),
and the length of `RXBUF` after a failure its reading (log 12). -/
def Obligations.SingleCommandRunsOneExchange : Prop :=
  ∀ (i : Instr) (k : BusOp) (s : State), aloneOf i = some k → Ready s → insideDevice i s →
    ∃ (t : State) (q : Seq) (rx : List Byte), exec i s = .next t ∧ q ≠ .idle ∧
      rx.length = (descriptor s k).rxLen ∧ (rx, t.env) = respond s (nextAnswer s) (descriptor s k) ∧
      t = { s with
            srLast := if k = .readStatus1 then rx.getD 0 0 else s.srLast
            rxBuf := if k = .read ∨ k = .fastRead then rx else s.rxBuf
            idBuf := t.idBuf, env := t.env
            res := if (nextAnswer s).ok then .ok else .fail, answers := s.answers.tail, free := s.free + 1,
            job := .none, phase := .start,
            events :=
              ⟨q, some (descriptor s k), frame s.cfg s.mode (descriptor s k),
                if (nextAnswer s).ok then .ok rx else .fail⟩ :: s.events } ∧
      (k ≠ .readId ∨ (nextAnswer s).ok = true → t.idBuf = s.idBuf) ∧
      (∀ (ans : Answer) (rest : List Answer), s.env = .oracle → s.answers = ans :: rest →
        ans.rx.length = (descriptor s k).rxLen → rx = ans.rx ∧ t.env = .oracle)

/-! ## WAIT_IDLE -/

/-- R153 to R156: every WAIT_IDLE ends. It makes some status reads that all show busy, each followed by one delay, and
then a last status read: one that shows idle, and the result is `Ok`; one that failed, and the result is `Fail`; or
the 500th, which shows busy too, and the result is `Timeout`. It writes `POLL_CNT`, `SR_LAST` and `RES` only. -/
def Obligations.WaitIdleIsBounded : Prop :=
  ∀ s : State, Ready s →
    ∃ (t : State) (bs : List Byte) (e : Event), exec .waitIdle s = .next t ∧
      t = { s with
            pollCnt := t.pollCnt, srLast := t.srLast, res := t.res, env := t.env, answers := t.answers,
            free := t.free, events := e :: busyEvents s .waitIdlePre bs ++ s.events, job := .none,
            phase := .start } ∧
      (∀ b ∈ bs, busyBit b = true) ∧ t.pollCnt = bs.length + 1 ∧ t.pollCnt ≤ 500 ∧
      (t.res = .ok ∧ e = okEvent s .waitIdlePre .readStatus1 [t.srLast] ∧ busyBit t.srLast = false ∨
       t.res = .fail ∧ e = failEvent s .waitIdlePre .readStatus1 ∨
       t.res = .timeout ∧ e = okEvent s .waitIdlePre .readStatus1 [t.srLast] ∧ busyBit t.srLast = true ∧
         t.pollCnt = 500)

/-- R153: a device that shows busy `k` times and then idle, with `k` below the bound, gives `k + 1` status reads,
`k` delays between them and `Ok`. -/
def Obligations.WaitIdleEndsWhenIdle : Prop :=
  ∀ (s : State) (bs : List Byte) (b : Byte) (as rest : List Answer) (a : Answer), Ready s → s.env = .oracle →
    s.answers = as ++ a :: rest → busyAnswers bs as → statusAnswer b a → (∀ x ∈ bs, busyBit x = true) →
    busyBit b = false → bs.length < 500 →
    exec .waitIdle s = .next
      { s with
        pollCnt := bs.length + 1, srLast := b, res := .ok, answers := rest, free := s.free + 2 * bs.length + 1,
        job := .none, phase := .start,
        events := okEvent s .waitIdlePre .readStatus1 [b] :: busyEvents s .waitIdlePre bs ++ s.events }

/-- R155: a device that shows busy at all 500 reads gives 500 status reads, 499 delays and `Timeout`. -/
def Obligations.WaitIdleTimesOut : Prop :=
  ∀ (s : State) (bs : List Byte) (b : Byte) (as rest : List Answer) (a : Answer), Ready s → s.env = .oracle →
    s.answers = as ++ a :: rest → busyAnswers bs as → statusAnswer b a → (∀ x ∈ bs, busyBit x = true) →
    busyBit b = true → bs.length = 499 →
    exec .waitIdle s = .next
      { s with
        pollCnt := 500, srLast := b, res := .timeout, answers := rest, free := s.free + 999,
        job := .none, phase := .start,
        events := okEvent s .waitIdlePre .readStatus1 [b] :: busyEvents s .waitIdlePre bs ++ s.events }

/-- R154: a failed status read ends WAIT_IDLE at once with `Fail`, after any number of busy polls below the bound,
and so at the 500th read too; it is not retried. -/
def Obligations.WaitIdleFailsOnFailedRead : Prop :=
  ∀ (s : State) (bs : List Byte) (as rest : List Answer) (bad : Answer), Ready s → s.env = .oracle →
    s.answers = as ++ bad :: rest → busyAnswers bs as → (∀ x ∈ bs, busyBit x = true) → bad.ok = false →
    bs.length < 500 →
    ∃ t : State, exec .waitIdle s = .next t ∧
      t = { s with
            pollCnt := bs.length + 1, srLast := t.srLast, res := .fail, answers := rest,
            free := s.free + 2 * bs.length + 1, job := .none, phase := .start,
            events := failEvent s .waitIdlePre .readStatus1 :: busyEvents s .waitIdlePre bs ++ s.events }

/-- R156, R71: a delay is one event and writes no register of the block; the device may complete its work during it,
and if it does the state after the delay shows it idle with the work applied; if it does not it is as before. -/
def Obligations.DelayLetsDeviceComplete : Prop :=
  ∀ (n : Nat) (s : State),
    delayUs n s = { s with
      env := (delayUs n s).env, answers := s.answers.tail, free := s.free + 1,
      events := ⟨s.seq, none, .delayUs n, .done⟩ :: s.events } ∧
    (s.env = .oracle → (delayUs n s).env = .oracle) ∧
    ∀ d : Device, s.env = .reference d → ∃ d' : Device, (delayUs n s).env = .reference d' ∧
      ((nextAnswer s).after.now = false → d' = d) ∧ (d.busy = false → d' = d) ∧
      ((nextAnswer s).after.now = true → d.busy = true → d'.quiet ∧
        ∀ lo size, d.pending = some (.erase lo size) → d.touched = [] → d.wf →
          ∀ x, Memory.read d'.mem x = if lo ≤ x ∧ x < lo + size then 0xFF else Memory.read d.mem x)

/-- R157: bits 7 to 1 of the status bytes do not change a WAIT_IDLE: if the answers of two runs agree in success and
in bit 0 of every status byte, the runs make the same calls, count the same polls and end with the same result. -/
def Obligations.WaitIdleReadsBitZeroOnly : Prop :=
  ∀ (s : State) (as bs : List Answer), Ready s → s.env = .oracle →
    List.Forall₂ (fun a b => a.ok = b.ok ∧ ∃ x y : Byte, a.rx = [x] ∧ b.rx = [y] ∧ x &&& 1 = y &&& 1) as bs →
    ∃ t u : State, exec .waitIdle { s with answers := as } = .next t ∧
      exec .waitIdle { s with answers := bs } = .next u ∧
      u.res = t.res ∧ u.pollCnt = t.pollCnt ∧ u.events.map Event.call = t.events.map Event.call

/-! ## Write-class operations -/

/-- R163, R168, R57: for every page size a table may have, the page check says exactly that the range lies in one
page, over the naturals and without wrap. -/
def Obligations.PageCheckIsContainment : Prop :=
  ∀ (ps : Nat) (addr : Addr) (len : Nat), pageSizeOk ps = true →
    (pageCheck ps addr len = true ↔ addr.toNat % ps + len ≤ ps)

/-- R163: a PAGE_PROGRAM whose range leaves its page fails with no event, no answer used, no change to the agents
or the device; only the operand registers, `TXBUF` and `RES` are written. -/
def Obligations.PageProgramOutsidePageFails : Prop :=
  ∀ (a : Addr) (n : Nat) (buf : List Byte) (s : State), Ready s →
    s.geomIdx < s.cfg.geomTable.length → ¬ contained (.pageProgram a n buf) s →
    ∃ t : State, exec (.pageProgram a n buf) s = .next t ∧
      t = { s with
            reqOp := 0x3, reqAddr := a, reqLen := n, txBuf := t.txBuf, res := .fail, free := t.free,
            job := .none, phase := .start } ∧
      (buf.length = n → t.txBuf = buf)

/-- R160: with good exchanges and an idle device every bracketed instruction makes exactly five exchanges, in
order: write-enable, status read, its command, status read, write-disable; it ends with `Ok`. What the operand
registers and `TXBUF` hold after the end is the model's reading (log 11), the brackets of the test port its own
(log 6). -/
def Obligations.BracketMakesFiveExchanges : Prop :=
  ∀ (i : Instr) (c : BracketCmd) (s : State) (a0 a1 a2 a3 a4 : Answer) (rest : List Answer) (b1 b3 : Byte),
    bracketOf i = some c → Ready s → s.geomIdx < s.cfg.geomTable.length → contained i s →
    s.env = .oracle → s.answers = a0 :: a1 :: a2 :: a3 :: a4 :: rest →
    a0.ok = true → statusAnswer b1 a1 → a2.ok = true → statusAnswer b3 a3 → a4.ok = true →
    busyBit b1 = false → busyBit b3 = false →
    exec i s = .next
      { latched i s with
        pollCnt := 1, srLast := b3, res := .ok, answers := rest, free := (latched i s).free + 5,
        job := .none, phase := .start,
        events :=
          okEvent (latched i s) .writeDisable .writeDisable [] ::
          okEvent (latched i s) .waitIdlePost .readStatus1 [b3] ::
          okEvent (latched i s) .issueCommand c.busOp [] ::
          okEvent (latched i s) .waitIdlePre .readStatus1 [b1] ::
          okEvent (latched i s) .writeEnable .writeEnable [] :: s.events }

/-- R161, R205: every bracketed instruction whose command stays inside the device completes, whatever the agents answer.
No event follows one that failed, the command and the write-disable follow only a status read that showed idle, and a
write-disable is the last event whenever it is sent; the result is `Fail` exactly if the last event failed, `Ok`
exactly if it is a write-disable answered `Ok`, `Timeout` only at the bound of a wait. It writes only `SEQ`, `POLL_CNT`,
`SR_LAST` and `RES` beside its latched operands (logs 6 and 11). -/
def Obligations.BracketReturnsEarly : Prop :=
  ∀ (i : Instr) (c : BracketCmd) (s : State),
    bracketOf i = some c → Ready s → s.geomIdx < s.cfg.geomTable.length → contained i s → insideDevice i s →
    ∃ (t : State) (last : Event) (before : List Event), exec i s = .next t ∧
      t = { latched i s with
            pollCnt := t.pollCnt, srLast := t.srLast, res := t.res, env := t.env, answers := t.answers,
            free := t.free, events := last :: before ++ s.events, job := .none, phase := .start } ∧
      (∀ e ∈ before, e.reply ≠ .fail ∧ e.seq ≠ .writeDisable) ∧
      (t.res = .ok ↔ last.seq = .writeDisable ∧ last.reply = .ok []) ∧
      (t.res = .fail ↔ last.reply = .fail) ∧
      (t.res = .timeout → t.pollCnt = 500 ∧ busyBit t.srLast = true ∧ waiting last.seq) ∧
      (∀ (after older : List Event) (e : Event), last :: before = after ++ e :: older →
        (e.seq = .issueCommand ∨ e.seq = .writeDisable) →
        ∃ (b : Byte) (q : Seq) (more : List Event),
          older = okEvent (latched i s) q .readStatus1 [b] :: more ∧ waiting q ∧ busyBit b = false) ∧
      before.length ≤ 2000

/-- The source's invariant 2 (R160): inside a bracket the command and the write-disable are sent only right after a
status read that was answered `Ok` with the busy bit clear, and the first event is the write-enable. -/
def Obligations.BracketObservesIdleFirst : Prop :=
  ∀ (i : Instr) (c : BracketCmd) (s t : State) (new : List Event),
    bracketOf i = some c → Ready s → contained i s → s.geomIdx < s.cfg.geomTable.length →
    exec i s = .next t → t.events = new ++ s.events →
    (∃ e, new.getLast? = some e ∧ e.seq = .writeEnable ∧ e.cmd = some (descriptor (latched i s) .writeEnable)) ∧
    ∀ (after older : List Event) (e : Event), new = after ++ e :: older →
      (e.seq = .issueCommand ∨ e.seq = .writeDisable) →
      ∃ (b : Byte) (q : Seq) (more : List Event),
        older = okEvent (latched i s) q .readStatus1 [b] :: more ∧ waiting q ∧ busyBit b = false

/-- R202: `Timeout` comes from a WAIT_IDLE alone, so only the bracketed instructions and WAIT_IDLE can end with it,
and it means that the run's last events are 500 status reads that all succeeded and all showed the busy bit set, with
the 499 delays between them. -/
def Obligations.TimeoutMeansBusyReads : Prop :=
  ∀ (i : Instr) (s t : State), s.seq = .idle → exec i s = .next t → t.res = .timeout →
    ((∃ c, bracketOf i = some c) ∨ i = .waitIdle) ∧
    ∃ (q : Seq) (bs : List Byte) (b : Byte) (older : List Event), waiting q ∧ bs.length = 499 ∧
      (∀ x ∈ bs, busyBit x = true) ∧ busyBit b = true ∧
      t.events = okEvent (latched i s) q .readStatus1 [b] :: busyEvents (latched i s) q bs ++ older

/-! ## The reference device -/

/-- R72: the latch, status and identity commands in the device. An idle device sets the latch on WREN, clears it
on WRDI and returns its identity on RDID; the status read returns one byte whose bit 0 is the busy flag, busy or
not, and any such byte can come back; none of the four changes the array, whatever the device is doing. -/
def Obligations.DeviceLatchAndStatus : Prop :=
  ∀ (o : Opcodes) (c : Nat) (a : Answer) (any : List Byte) (d : Device) (addr : Option Addr) (tx : List Byte) (n : Nat),
    o.distinct = true →
    (d.busy = false → (d.receive o c a any ⟨o.wren, addr, tx, n⟩).2 = { d with wel := true }) ∧
    (d.busy = false → (d.receive o c a any ⟨o.wrdi, addr, tx, n⟩).2 = { d with wel := false }) ∧
    (d.busy = false → d.receive o c a any ⟨0x9F, addr, tx, n⟩
      = ([d.id.manufacturer, d.id.memoryType, d.id.capacity], d)) ∧
    (∃ b : Byte, d.receive o c a any ⟨o.rdsr1, addr, tx, n⟩ = ([b], d) ∧ busyBit b = d.busy) ∧
    (∀ b : Byte, busyBit b = d.busy → d.receive o c a [b] ⟨o.rdsr1, addr, tx, n⟩ = ([b], d)) ∧
    (∀ k : BusOp, k = .writeEnable ∨ k = .writeDisable ∨ k = .readId ∨ k = .readStatus1 →
      (d.receive o c a any ⟨opcodeOf o k, addr, tx, n⟩).2.mem = d.mem)

/-- R74 (b): a command other than the status read that reaches a busy device returns any bytes, leaves the device
busy with its pending work, and touches no byte outside the range of the program or erase it asks for: either the
command is ignored, or that range, and no other, is open from now until the device has completed. A command that asks
for no program or erase touches no byte at all, and only the two latch commands change anything, the latch. -/
def Obligations.BusyDeviceIsTouchedInRangeOnly : Prop :=
  ∀ (s : State) (k : BusOp) (c : Nat) (a : Answer) (any : List Byte) (d : Device),
    s.cfg.wf = true → d.busy = true → d.wf → k ≠ .readStatus1 →
    ∃ d' : Device, d.receive s.cfg.opcodes c a any (descriptor s k) = (any, d') ∧
      d'.busy = true ∧ d'.pending = d.pending ∧
      (d.workOf (descriptor s k) k = none →
        d' = { d with wel := d'.wel } ∧ (k ≠ .writeEnable → k ≠ .writeDisable → d' = d)) ∧
      (∀ w, d.workOf (descriptor s k) k = some w →
        d' = { d with mem := d'.mem, touched := d'.touched } ∧
        (d' = d ∨ d'.touched = w.range :: d.touched) ∧
        ∀ x, x < w.range.1 ∨ w.range.1 + w.range.2 ≤ x → Memory.read d'.mem x = Memory.read d.mem x)

/-- R71: a write-class command reaching an idle device changes nothing without the latch; with it, and inside the
device, the device becomes busy with exactly that work, and the array does not change yet. -/
def Obligations.WriteClassNeedsLatch : Prop :=
  ∀ (s : State) (c : BracketCmd) (m : Nat) (a : Answer) (any : List Byte) (d : Device),
    s.cfg.wf = true → d.busy = false →
    (d.wel = false → (d.receive s.cfg.opcodes m a any (descriptor s c.busOp)).2 = d) ∧
    (d.wel = true → d.holds c.busOp (descriptor s c.busOp) = true →
      (d.receive s.cfg.opcodes m a any (descriptor s c.busOp)).2 =
        { d with
          busy := true
          pending := some (match c with
            | .pageProgram => Work.program (target d.size s c).1 s.txBuf
            | _ => Work.erase (target d.size s c).1 (target d.size s c).2) })

/-- R71: completing an erase leaves every byte of the region erased and every other byte as it was; completing a
program puts the data bytes where the array was erased and leaves every byte outside the range as it was; the
device is idle afterwards with nothing pending. This holds of every byte that no command touched while the device was
busy (R74 (b), log 13); with no such command, of every byte. -/
def Obligations.CompletionAppliesWork : Prop :=
  ∀ (c : Nat) (m : Completion) (d : Device), Memory.wf d.mem = true → d.busy = true → m.now = true →
    d.complete c m =
      { d with mem := (d.complete c m).mem, wel := m.wel, busy := false, pending := none, touched := [] } ∧
    ∀ x, d.untouched x →
      (d.pending = none → Memory.read (d.complete c m).mem x = Memory.read d.mem x) ∧
      (∀ lo size, d.pending = some (.erase lo size) → Memory.read (d.complete c m).mem x =
        if lo ≤ x ∧ x < lo + size then 0xFF else Memory.read d.mem x) ∧
      (∀ lo data, d.pending = some (.program lo data) →
        (x < lo ∨ lo + data.length ≤ x → Memory.read (d.complete c m).mem x = Memory.read d.mem x) ∧
        (∀ i, x = lo + i → i < data.length → Memory.read d.mem x = 0xFF →
          some (Memory.read (d.complete c m).mem x) = data[i]?))

/-- R68: when an erase that starts on an idle device ends with `Ok`, however the agents brought it there, the device is
idle with its latch clear, every byte of the region reads as 0xFF and every other byte of the array is as before; and
under the premises of R74 (e) it does end with `Ok`. -/
def Obligations.ErasedRegionReadsErased : Prop :=
  ∀ (i : Instr) (c : BracketCmd) (s : State) (d : Device),
    bracketOf i = some c → c ≠ .pageProgram → Ready s → s.env = .reference d → d.quiet → d.wf → insideDevice i s →
    ∃ (t : State) (d' : Device), exec i s = .next t ∧ t.env = .reference d' ∧
      (t.res = .ok → d'.quiet ∧ d'.wel = false ∧
        ∀ x, Memory.read d'.mem x =
          if (target d.size (latched i s) c).1 ≤ x ∧
              x < (target d.size (latched i s) c).1 + (target d.size (latched i s) c).2
          then 0xFF else Memory.read d.mem x) ∧
      (completesInTime 1003 s → t.res = .ok)

/-- R68 (the source's read-back property): a program on an erased range of an idle device, inside it and with its page
size, followed by a read of the same range: if both end with `Ok` the read returns exactly the data, and under the
premises of R74 (e) both do. -/
def Obligations.ProgrammedDataReadsBack : Prop :=
  ∀ (a : Addr) (n : Nat) (buf : List Byte) (s : State) (d : Device),
    Ready s → s.geomIdx < s.cfg.geomTable.length → contained (.pageProgram a n buf) s → buf.length = n →
    s.env = .reference d → d.quiet → d.wf → a.toNat < d.size → a.toNat + n ≤ d.size →
    d.page = pageSize s.cfg s.geomIdx → (∀ j, j < n → Memory.read d.mem (a.toNat + j) = 0xFF) →
    ∃ t u : State, exec (.pageProgram a n buf) s = .next t ∧ exec (.read a n) t = .next u ∧
      (t.res = .ok → u.res = .ok → u.rxBuf = buf) ∧
      (completesInTime 1004 s → t.res = .ok ∧ u.res = .ok)

/-- The frame of the array: whatever the agents answer and however the operation ends, a bracketed instruction that
runs on an idle device changes no byte outside its target range (R54, R58). -/
def Obligations.BracketChangesTargetOnly : Prop :=
  ∀ (i : Instr) (c : BracketCmd) (s t : State) (d : Device),
    bracketOf i = some c → Ready s → s.env = .reference d → d.quiet → d.wf → exec i s = .next t →
    ∃ d' : Device, t.env = .reference d' ∧
      ∀ x, (x < (target d.size (latched i s) c).1 ∨
          (target d.size (latched i s) c).1 + (target d.size (latched i s) c).2 ≤ x) →
        Memory.read d'.mem x = Memory.read d.mem x

/-- R62 and the frame of the array: reads, status and identity reads, INIT, WAIT_IDLE and illegal requests leave an
idle device exactly as it was, the latch commands leave its array; a single program or erase command changes no byte
outside its range, and none at all before the device completes. -/
def Obligations.NonBracketLeavesArray : Prop :=
  (∀ (i : Instr) (s t : State) (d : Device), s.env = .reference d → d.busy = false → bracketOf i = none →
    writeCmdOf i = none → exec i s = .next t →
    ∃ d' : Device, t.env = .reference d' ∧ d'.mem = d.mem ∧ (i ≠ .writeEnable → i ≠ .writeDisable → d' = d)) ∧
  (∀ (i : Instr) (c : BracketCmd) (s t : State) (d : Device), s.env = .reference d → d.quiet → d.wf →
    writeCmdOf i = some c → exec i s = .next t →
    ∃ d' : Device, t.env = .reference d' ∧ ((nextAnswer s).after.now = false → d'.mem = d.mem) ∧
      ∀ x, (x < (target d.size s c).1 ∨ (target d.size s c).1 + (target d.size s c).2 ≤ x) →
        Memory.read d'.mem x = Memory.read d.mem x)

/-! ## Single events and whole operations -/

/-- R5, R24, R39: a step is exactly one event, which carries the `SEQ` state it is in: that of the operation in
progress, or, from `IDLE`, the first state of the operation whose request the step takes. The only steps without an
event are from `IDLE` to `IDLE`: one with no request at the port, and one whose request ends at once with `Fail` (R92,
R163). That these are steps, and that a request and its first event are one step, is the model's choice (log 5), and so
is the first state of a micro-operation of the test port (log 6). -/
def Obligations.StepIsOneEvent : Prop :=
  ∀ s t : State, coherent s → step s = .next t →
    (s.seq ≠ .idle ∧ ∃ e : Event, t.events = e :: s.events ∧ e.seq = s.seq) ∨
    (s.seq = .idle ∧ s.port = [] ∧ t.seq = .idle ∧ t.events = s.events) ∨
    (s.seq = .idle ∧ ∃ (r : Request) (rest : List Request) (i : Instr) (u : State), s.port = r :: rest ∧
      decode s.cfg r = .ok i ∧ accept i { s with port := rest } = .next u ∧
      ((u.seq = .idle ∧ endsAtOnce i s ∧ t = u ∧ t.res = .fail ∧ t.events = s.events) ∨
       (u.seq = firstSeq i ∧ u.seq ≠ .idle ∧ ∃ e : Event, t.events = e :: s.events ∧ e.seq = u.seq)))

/-- R39: how `SEQ` advances in a bracket: an event leaves `SEQ` where it is (a wait that goes on), moves it to the
next state of the sequence, or ends the operation in `IDLE`; it ends it early only with a result other than
`Ok`. -/
def Obligations.SeqAdvancesInOrder : Prop :=
  ∀ (s : State) (c : BracketCmd), coherent s → s.job = .writeClass c →
    (tick s).seq = .idle ∧ ((tick s).res = .ok → s.seq = .writeDisable) ∨
    ((tick s).seq = s.seq ∧ waiting s.seq) ∨
    (s.seq = .writeEnable ∧ (tick s).seq = .waitIdlePre) ∨
    (s.seq = .waitIdlePre ∧ (tick s).seq = .issueCommand) ∨
    (s.seq = .issueCommand ∧ (tick s).seq = .waitIdlePost) ∨
    (s.seq = .waitIdlePost ∧ (tick s).seq = .writeDisable)

/-- The two grains agree, and every operation ends (R5, R65 (a), R216, R244): from a state whose port holds the request
of an instruction that `exec` runs, single steps lead to exactly the state `exec` gives, after at most 2001 of them,
and until then `SEQ` is not `IDLE`. -/
def Obligations.OperationIsItsEvents : Prop :=
  ∀ (s t : State) (r : Request) (rest : List Request) (i : Instr), s.seq = .idle → s.port = r :: rest →
    decode s.cfg r = .ok i → exec i { s with port := rest } = .next t →
    ∃ n, 1 ≤ n ∧ n ≤ 2001 ∧ Host.Core.run Sys2Proof.core n s = .next t ∧
      ∀ (m : Nat) (u : State), 1 ≤ m → m < n → Host.Core.run Sys2Proof.core m s = .next u → u.seq ≠ .idle

/-! ## Rules about the whole machine -/

/-- R36: once `INITED = 1`, `MODE`, `GEOM_IDX` and `INITED` never change again, in any step, with any result. -/
def Obligations.InitialisedBindingIsFrozen : Prop :=
  ∀ s t : State, MachineInv s → s.inited = true → step s = .next t →
    t.mode = s.mode ∧ t.geomIdx = s.geomIdx ∧ t.inited = true

/-- R6, R37: no step changes a parameter. -/
def Obligations.ParametersNeverChange : Prop :=
  ∀ s t : State, step s = .next t → t.cfg = s.cfg

/-- R216: after any result `SEQ = IDLE`, and a block that took requests takes the next one; INIT that ends with `Ok`
leaves a block that takes requests, and one that ends with `Fail` a block that takes INIT again (R232). -/
def Obligations.OperationsEndIdle : Prop :=
  ∀ (i : Instr) (s t : State), s.seq = .idle → exec i s = .next t →
    t.seq = .idle ∧ (Ready s → Ready t) ∧
      (ReadyForInit s → (t.res = .ok → Ready t) ∧ (t.res = .fail → ReadyForInit t))

/-- R27: no operation reads `RES`, and each overwrites it: what stood in it before makes no difference. -/
def Obligations.ResultIsNeverRead : Prop :=
  ∀ (i : Instr) (s : State) (r : Result), s.seq = .idle → exec i { s with res := r } = exec i s

/-- R93: the length of an erase and the address and length of INIT have no effect: two requests that differ in
them end the same but for the operand registers that hold them. -/
def Obligations.IgnoredOperandsHaveNoEffect : Prop :=
  ∀ (a b : Addr) (n m : Nat) (s : State), s.seq = .idle →
    exec (.sectorErase a m) s = outcomeMap (fun t => { t with reqLen := m }) (exec (.sectorErase a n) s) ∧
    exec (.blockErase32 a m) s = outcomeMap (fun t => { t with reqLen := m }) (exec (.blockErase32 a n) s) ∧
    exec (.blockErase64 a m) s = outcomeMap (fun t => { t with reqLen := m }) (exec (.blockErase64 a n) s) ∧
    exec (.init b m) s = outcomeMap (fun t => { t with reqAddr := b, reqLen := m }) (exec (.init a n) s)

/-- R27, R84: the result codes are 0, 1 and 2, and 3 is never produced. -/
def Obligations.ResultCodes : Prop :=
  Result.code .ok = 0 ∧ Result.code .fail = 1 ∧ Result.code .timeout = 2 ∧ ∀ r : Result, Result.code r ≠ 3
end

