-- ==== Sys2Proof/Laws/Decode.lean ====
section
/-! SUPPORT. The fields of a built command word, the opcode lookup, and what the parameters' checks say. -/

namespace Sys2Proof

@[simp] theorem cmdwOp_mkCmdw (op : BitVec 4) (a : Addr) : cmdwOp (mkCmdw op a) = op := by
  apply BitVec.eq_of_getLsbD_eq
  intro i hi
  simp only [cmdwOp, mkCmdw, BitVec.getLsbD_extractLsb', BitVec.getLsbD_append]
  simp only [hi, show ¬ 28 + i < 24 by omega, show ¬ 28 + i - 24 < 4 by omega,
    show 28 + i - 24 - 4 = i by omega, if_false, decide_true, Bool.true_and]

@[simp] theorem cmdwRsv_mkCmdw (op : BitVec 4) (a : Addr) : cmdwRsv (mkCmdw op a) = 0 := by
  apply BitVec.eq_of_getLsbD_eq
  intro i hi
  simp only [cmdwRsv, mkCmdw, BitVec.getLsbD_extractLsb', BitVec.getLsbD_append]
  simp [show ¬ 24 + i < 24 by omega]
  omega

@[simp] theorem cmdwAddr_mkCmdw (op : BitVec 4) (a : Addr) : cmdwAddr (mkCmdw op a) = a := by
  apply BitVec.eq_of_getLsbD_eq
  intro i hi
  simp only [cmdwAddr, mkCmdw, BitVec.getLsbD_extractLsb', BitVec.getLsbD_append]
  simp [hi]

/-- A page size a table may have is a power of two (R31 (b)). -/
theorem pageSizeOk_pow {n : Nat} (h : pageSizeOk n = true) : ∃ k, n = 2 ^ k := by
  simp only [pageSizeOk, List.any_eq_true, beq_iff_eq] at h
  obtain ⟨k, -, hk⟩ := h
  exact ⟨k, hk⟩

/-- A bus command is found again from its opcode byte, since the eleven values differ (R90). -/
theorem busOpOf_opcodeOf {o : Opcodes} (h : o.distinct = true) (k : BusOp) :
    busOpOf o (opcodeOf o k) = some k := by
  have h' : (busOps.map (opcodeOf o)).Nodup := by
    have h2 : busOps.map (opcodeOf o) = o.all := rfl
    rw [h2]
    exact of_decide_eq_true h
  have hk : k ∈ busOps := by cases k <;> decide
  have hinj := List.inj_on_of_nodup_map h'
  unfold busOpOf
  cases hf : busOps.find? fun j => opcodeOf o j == opcodeOf o k with
  | none =>
    rw [List.find?_eq_none] at hf
    exact absurd (by simp) (hf k hk)
  | some j =>
    have hj := List.find?_some hf
    exact congrArg some (hinj (List.mem_of_find?_eq_some hf) hk (by simpa using hj))

/-- An opcode byte that is found is the byte of the command it stands for. -/
theorem opcodeOf_of_busOpOf {o : Opcodes} {b : Byte} {k : BusOp} (h : busOpOf o b = some k) :
    opcodeOf o k = b := by simpa using List.find?_some h

theorem Params.wf_distinct {p : Params} (h : p.wf = true) : p.opcodes.distinct = true := by
  simp only [Params.wf, Bool.and_eq_true] at h
  exact h.1.1.1.2

theorem Params.wf_table {p : Params} (h : p.wf = true) :
    p.geomTable ≠ [] ∧ (∀ e ∈ p.geomTable, pageSizeOk e.pageSize = true) ∧
      (p.geomTable.map Geometry.ident).Nodup := by
  simp only [Params.wf, geomTableOk, Bool.and_eq_true, List.all_eq_true, decide_eq_true_eq] at h
  exact ⟨by simpa using h.1.1.1.1.1.1, h.1.1.1.1.1.2, h.1.1.1.1.2⟩

end Sys2Proof
end

