-- ==== Sys2Proof/Laws/State.lean ====
section
/-! SUPPORT. One lemma per field of State and per update of Machine/Ops.lean, so that no proof unfolds a record
update. -/

namespace Sys2Proof.Machine

/-! ## emit -/

@[simp] theorem emit_mode (cmd : Option Cmd) (call : Call) (reply : Reply) (s : State) : (emit cmd call reply s).mode = s.mode := rfl
@[simp] theorem emit_geomIdx (cmd : Option Cmd) (call : Call) (reply : Reply) (s : State) : (emit cmd call reply s).geomIdx = s.geomIdx := rfl
@[simp] theorem emit_inited (cmd : Option Cmd) (call : Call) (reply : Reply) (s : State) : (emit cmd call reply s).inited = s.inited := rfl
@[simp] theorem emit_seq (cmd : Option Cmd) (call : Call) (reply : Reply) (s : State) : (emit cmd call reply s).seq = s.seq := rfl
@[simp] theorem emit_pollCnt (cmd : Option Cmd) (call : Call) (reply : Reply) (s : State) : (emit cmd call reply s).pollCnt = s.pollCnt := rfl
@[simp] theorem emit_srLast (cmd : Option Cmd) (call : Call) (reply : Reply) (s : State) : (emit cmd call reply s).srLast = s.srLast := rfl
@[simp] theorem emit_res (cmd : Option Cmd) (call : Call) (reply : Reply) (s : State) : (emit cmd call reply s).res = s.res := rfl
@[simp] theorem emit_reqOp (cmd : Option Cmd) (call : Call) (reply : Reply) (s : State) : (emit cmd call reply s).reqOp = s.reqOp := rfl
@[simp] theorem emit_reqAddr (cmd : Option Cmd) (call : Call) (reply : Reply) (s : State) : (emit cmd call reply s).reqAddr = s.reqAddr := rfl
@[simp] theorem emit_reqLen (cmd : Option Cmd) (call : Call) (reply : Reply) (s : State) : (emit cmd call reply s).reqLen = s.reqLen := rfl
@[simp] theorem emit_txBuf (cmd : Option Cmd) (call : Call) (reply : Reply) (s : State) : (emit cmd call reply s).txBuf = s.txBuf := rfl
@[simp] theorem emit_rxBuf (cmd : Option Cmd) (call : Call) (reply : Reply) (s : State) : (emit cmd call reply s).rxBuf = s.rxBuf := rfl
@[simp] theorem emit_idBuf (cmd : Option Cmd) (call : Call) (reply : Reply) (s : State) : (emit cmd call reply s).idBuf = s.idBuf := rfl
@[simp] theorem emit_cfg (cmd : Option Cmd) (call : Call) (reply : Reply) (s : State) : (emit cmd call reply s).cfg = s.cfg := rfl
@[simp] theorem emit_env (cmd : Option Cmd) (call : Call) (reply : Reply) (s : State) : (emit cmd call reply s).env = s.env := rfl
@[simp] theorem emit_answers (cmd : Option Cmd) (call : Call) (reply : Reply) (s : State) : (emit cmd call reply s).answers = s.answers := rfl
@[simp] theorem emit_port (cmd : Option Cmd) (call : Call) (reply : Reply) (s : State) : (emit cmd call reply s).port = s.port := rfl
@[simp] theorem emit_events (cmd : Option Cmd) (call : Call) (reply : Reply) (s : State) : (emit cmd call reply s).events = ⟨s.seq, cmd, call, reply⟩ :: s.events := rfl
@[simp] theorem emit_free (cmd : Option Cmd) (call : Call) (reply : Reply) (s : State) : (emit cmd call reply s).free = s.free := rfl
@[simp] theorem emit_job (cmd : Option Cmd) (call : Call) (reply : Reply) (s : State) : (emit cmd call reply s).job = s.job := rfl
@[simp] theorem emit_phase (cmd : Option Cmd) (call : Call) (reply : Reply) (s : State) : (emit cmd call reply s).phase = s.phase := rfl

/-! ## useAnswer -/

@[simp] theorem useAnswer_mode (s : State) : (useAnswer s).mode = s.mode := rfl
@[simp] theorem useAnswer_geomIdx (s : State) : (useAnswer s).geomIdx = s.geomIdx := rfl
@[simp] theorem useAnswer_inited (s : State) : (useAnswer s).inited = s.inited := rfl
@[simp] theorem useAnswer_seq (s : State) : (useAnswer s).seq = s.seq := rfl
@[simp] theorem useAnswer_pollCnt (s : State) : (useAnswer s).pollCnt = s.pollCnt := rfl
@[simp] theorem useAnswer_srLast (s : State) : (useAnswer s).srLast = s.srLast := rfl
@[simp] theorem useAnswer_res (s : State) : (useAnswer s).res = s.res := rfl
@[simp] theorem useAnswer_reqOp (s : State) : (useAnswer s).reqOp = s.reqOp := rfl
@[simp] theorem useAnswer_reqAddr (s : State) : (useAnswer s).reqAddr = s.reqAddr := rfl
@[simp] theorem useAnswer_reqLen (s : State) : (useAnswer s).reqLen = s.reqLen := rfl
@[simp] theorem useAnswer_txBuf (s : State) : (useAnswer s).txBuf = s.txBuf := rfl
@[simp] theorem useAnswer_rxBuf (s : State) : (useAnswer s).rxBuf = s.rxBuf := rfl
@[simp] theorem useAnswer_idBuf (s : State) : (useAnswer s).idBuf = s.idBuf := rfl
@[simp] theorem useAnswer_cfg (s : State) : (useAnswer s).cfg = s.cfg := rfl
@[simp] theorem useAnswer_env (s : State) : (useAnswer s).env = s.env := rfl
@[simp] theorem useAnswer_answers (s : State) : (useAnswer s).answers = s.answers.tail := rfl
@[simp] theorem useAnswer_port (s : State) : (useAnswer s).port = s.port := rfl
@[simp] theorem useAnswer_events (s : State) : (useAnswer s).events = s.events := rfl
@[simp] theorem useAnswer_free (s : State) : (useAnswer s).free = s.free + 1 := rfl
@[simp] theorem useAnswer_job (s : State) : (useAnswer s).job = s.job := rfl
@[simp] theorem useAnswer_phase (s : State) : (useAnswer s).phase = s.phase := rfl

/-! ## deviceMoment -/

@[simp] theorem deviceMoment_mode (s : State) : (deviceMoment s).mode = s.mode := rfl
@[simp] theorem deviceMoment_geomIdx (s : State) : (deviceMoment s).geomIdx = s.geomIdx := rfl
@[simp] theorem deviceMoment_inited (s : State) : (deviceMoment s).inited = s.inited := rfl
@[simp] theorem deviceMoment_seq (s : State) : (deviceMoment s).seq = s.seq := rfl
@[simp] theorem deviceMoment_pollCnt (s : State) : (deviceMoment s).pollCnt = s.pollCnt := rfl
@[simp] theorem deviceMoment_srLast (s : State) : (deviceMoment s).srLast = s.srLast := rfl
@[simp] theorem deviceMoment_res (s : State) : (deviceMoment s).res = s.res := rfl
@[simp] theorem deviceMoment_reqOp (s : State) : (deviceMoment s).reqOp = s.reqOp := rfl
@[simp] theorem deviceMoment_reqAddr (s : State) : (deviceMoment s).reqAddr = s.reqAddr := rfl
@[simp] theorem deviceMoment_reqLen (s : State) : (deviceMoment s).reqLen = s.reqLen := rfl
@[simp] theorem deviceMoment_txBuf (s : State) : (deviceMoment s).txBuf = s.txBuf := rfl
@[simp] theorem deviceMoment_rxBuf (s : State) : (deviceMoment s).rxBuf = s.rxBuf := rfl
@[simp] theorem deviceMoment_idBuf (s : State) : (deviceMoment s).idBuf = s.idBuf := rfl
@[simp] theorem deviceMoment_cfg (s : State) : (deviceMoment s).cfg = s.cfg := rfl
@[simp] theorem deviceMoment_env (s : State) : (deviceMoment s).env = s.env.complete s.free (nextAnswer s).after := rfl
@[simp] theorem deviceMoment_answers (s : State) : (deviceMoment s).answers = s.answers.tail := rfl
@[simp] theorem deviceMoment_port (s : State) : (deviceMoment s).port = s.port := rfl
@[simp] theorem deviceMoment_events (s : State) : (deviceMoment s).events = s.events := rfl
@[simp] theorem deviceMoment_free (s : State) : (deviceMoment s).free = s.free + 1 := rfl
@[simp] theorem deviceMoment_job (s : State) : (deviceMoment s).job = s.job := rfl
@[simp] theorem deviceMoment_phase (s : State) : (deviceMoment s).phase = s.phase := rfl

/-! ## delayUs -/

@[simp] theorem delayUs_mode (n : Nat) (s : State) : (delayUs n s).mode = s.mode := rfl
@[simp] theorem delayUs_geomIdx (n : Nat) (s : State) : (delayUs n s).geomIdx = s.geomIdx := rfl
@[simp] theorem delayUs_inited (n : Nat) (s : State) : (delayUs n s).inited = s.inited := rfl
@[simp] theorem delayUs_seq (n : Nat) (s : State) : (delayUs n s).seq = s.seq := rfl
@[simp] theorem delayUs_pollCnt (n : Nat) (s : State) : (delayUs n s).pollCnt = s.pollCnt := rfl
@[simp] theorem delayUs_srLast (n : Nat) (s : State) : (delayUs n s).srLast = s.srLast := rfl
@[simp] theorem delayUs_res (n : Nat) (s : State) : (delayUs n s).res = s.res := rfl
@[simp] theorem delayUs_reqOp (n : Nat) (s : State) : (delayUs n s).reqOp = s.reqOp := rfl
@[simp] theorem delayUs_reqAddr (n : Nat) (s : State) : (delayUs n s).reqAddr = s.reqAddr := rfl
@[simp] theorem delayUs_reqLen (n : Nat) (s : State) : (delayUs n s).reqLen = s.reqLen := rfl
@[simp] theorem delayUs_txBuf (n : Nat) (s : State) : (delayUs n s).txBuf = s.txBuf := rfl
@[simp] theorem delayUs_rxBuf (n : Nat) (s : State) : (delayUs n s).rxBuf = s.rxBuf := rfl
@[simp] theorem delayUs_idBuf (n : Nat) (s : State) : (delayUs n s).idBuf = s.idBuf := rfl
@[simp] theorem delayUs_cfg (n : Nat) (s : State) : (delayUs n s).cfg = s.cfg := rfl
@[simp] theorem delayUs_env (n : Nat) (s : State) : (delayUs n s).env = s.env.complete s.free (nextAnswer s).after := rfl
@[simp] theorem delayUs_answers (n : Nat) (s : State) : (delayUs n s).answers = s.answers.tail := rfl
@[simp] theorem delayUs_port (n : Nat) (s : State) : (delayUs n s).port = s.port := rfl
@[simp] theorem delayUs_events (n : Nat) (s : State) : (delayUs n s).events = ⟨s.seq, none, .delayUs n, .done⟩ :: s.events := rfl
@[simp] theorem delayUs_free (n : Nat) (s : State) : (delayUs n s).free = s.free + 1 := rfl
@[simp] theorem delayUs_job (n : Nat) (s : State) : (delayUs n s).job = s.job := rfl
@[simp] theorem delayUs_phase (n : Nat) (s : State) : (delayUs n s).phase = s.phase := rfl

/-! ## logCall -/

@[simp] theorem logCall_mode (tag : LogTag) (s : State) : (logCall tag s).mode = s.mode := rfl
@[simp] theorem logCall_geomIdx (tag : LogTag) (s : State) : (logCall tag s).geomIdx = s.geomIdx := rfl
@[simp] theorem logCall_inited (tag : LogTag) (s : State) : (logCall tag s).inited = s.inited := rfl
@[simp] theorem logCall_seq (tag : LogTag) (s : State) : (logCall tag s).seq = s.seq := rfl
@[simp] theorem logCall_pollCnt (tag : LogTag) (s : State) : (logCall tag s).pollCnt = s.pollCnt := rfl
@[simp] theorem logCall_srLast (tag : LogTag) (s : State) : (logCall tag s).srLast = s.srLast := rfl
@[simp] theorem logCall_res (tag : LogTag) (s : State) : (logCall tag s).res = s.res := rfl
@[simp] theorem logCall_reqOp (tag : LogTag) (s : State) : (logCall tag s).reqOp = s.reqOp := rfl
@[simp] theorem logCall_reqAddr (tag : LogTag) (s : State) : (logCall tag s).reqAddr = s.reqAddr := rfl
@[simp] theorem logCall_reqLen (tag : LogTag) (s : State) : (logCall tag s).reqLen = s.reqLen := rfl
@[simp] theorem logCall_txBuf (tag : LogTag) (s : State) : (logCall tag s).txBuf = s.txBuf := rfl
@[simp] theorem logCall_rxBuf (tag : LogTag) (s : State) : (logCall tag s).rxBuf = s.rxBuf := rfl
@[simp] theorem logCall_idBuf (tag : LogTag) (s : State) : (logCall tag s).idBuf = s.idBuf := rfl
@[simp] theorem logCall_cfg (tag : LogTag) (s : State) : (logCall tag s).cfg = s.cfg := rfl
@[simp] theorem logCall_env (tag : LogTag) (s : State) : (logCall tag s).env = s.env.complete s.free (nextAnswer s).after := rfl
@[simp] theorem logCall_answers (tag : LogTag) (s : State) : (logCall tag s).answers = s.answers.tail := rfl
@[simp] theorem logCall_port (tag : LogTag) (s : State) : (logCall tag s).port = s.port := rfl
@[simp] theorem logCall_events (tag : LogTag) (s : State) : (logCall tag s).events = ⟨s.seq, none, .log tag, .done⟩ :: s.events := rfl
@[simp] theorem logCall_free (tag : LogTag) (s : State) : (logCall tag s).free = s.free + 1 := rfl
@[simp] theorem logCall_job (tag : LogTag) (s : State) : (logCall tag s).job = s.job := rfl
@[simp] theorem logCall_phase (tag : LogTag) (s : State) : (logCall tag s).phase = s.phase := rfl

/-! ## latch -/

@[simp] theorem latch_mode (op : BitVec 4) (addr : Addr) (len : Nat) (s : State) : (latch op addr len s).mode = s.mode := rfl
@[simp] theorem latch_geomIdx (op : BitVec 4) (addr : Addr) (len : Nat) (s : State) : (latch op addr len s).geomIdx = s.geomIdx := rfl
@[simp] theorem latch_inited (op : BitVec 4) (addr : Addr) (len : Nat) (s : State) : (latch op addr len s).inited = s.inited := rfl
@[simp] theorem latch_seq (op : BitVec 4) (addr : Addr) (len : Nat) (s : State) : (latch op addr len s).seq = s.seq := rfl
@[simp] theorem latch_pollCnt (op : BitVec 4) (addr : Addr) (len : Nat) (s : State) : (latch op addr len s).pollCnt = s.pollCnt := rfl
@[simp] theorem latch_srLast (op : BitVec 4) (addr : Addr) (len : Nat) (s : State) : (latch op addr len s).srLast = s.srLast := rfl
@[simp] theorem latch_res (op : BitVec 4) (addr : Addr) (len : Nat) (s : State) : (latch op addr len s).res = s.res := rfl
@[simp] theorem latch_reqOp (op : BitVec 4) (addr : Addr) (len : Nat) (s : State) : (latch op addr len s).reqOp = op := rfl
@[simp] theorem latch_reqAddr (op : BitVec 4) (addr : Addr) (len : Nat) (s : State) : (latch op addr len s).reqAddr = addr := rfl
@[simp] theorem latch_reqLen (op : BitVec 4) (addr : Addr) (len : Nat) (s : State) : (latch op addr len s).reqLen = len := rfl
@[simp] theorem latch_txBuf (op : BitVec 4) (addr : Addr) (len : Nat) (s : State) : (latch op addr len s).txBuf = s.txBuf := rfl
@[simp] theorem latch_rxBuf (op : BitVec 4) (addr : Addr) (len : Nat) (s : State) : (latch op addr len s).rxBuf = s.rxBuf := rfl
@[simp] theorem latch_idBuf (op : BitVec 4) (addr : Addr) (len : Nat) (s : State) : (latch op addr len s).idBuf = s.idBuf := rfl
@[simp] theorem latch_cfg (op : BitVec 4) (addr : Addr) (len : Nat) (s : State) : (latch op addr len s).cfg = s.cfg := rfl
@[simp] theorem latch_env (op : BitVec 4) (addr : Addr) (len : Nat) (s : State) : (latch op addr len s).env = s.env := rfl
@[simp] theorem latch_answers (op : BitVec 4) (addr : Addr) (len : Nat) (s : State) : (latch op addr len s).answers = s.answers := rfl
@[simp] theorem latch_port (op : BitVec 4) (addr : Addr) (len : Nat) (s : State) : (latch op addr len s).port = s.port := rfl
@[simp] theorem latch_events (op : BitVec 4) (addr : Addr) (len : Nat) (s : State) : (latch op addr len s).events = s.events := rfl
@[simp] theorem latch_free (op : BitVec 4) (addr : Addr) (len : Nat) (s : State) : (latch op addr len s).free = s.free := rfl
@[simp] theorem latch_job (op : BitVec 4) (addr : Addr) (len : Nat) (s : State) : (latch op addr len s).job = s.job := rfl
@[simp] theorem latch_phase (op : BitVec 4) (addr : Addr) (len : Nat) (s : State) : (latch op addr len s).phase = s.phase := rfl

/-! ## setSeq -/

@[simp] theorem setSeq_mode (q : Seq) (s : State) : (setSeq q s).mode = s.mode := rfl
@[simp] theorem setSeq_geomIdx (q : Seq) (s : State) : (setSeq q s).geomIdx = s.geomIdx := rfl
@[simp] theorem setSeq_inited (q : Seq) (s : State) : (setSeq q s).inited = s.inited := rfl
@[simp] theorem setSeq_seq (q : Seq) (s : State) : (setSeq q s).seq = q := rfl
@[simp] theorem setSeq_pollCnt (q : Seq) (s : State) : (setSeq q s).pollCnt = s.pollCnt := rfl
@[simp] theorem setSeq_srLast (q : Seq) (s : State) : (setSeq q s).srLast = s.srLast := rfl
@[simp] theorem setSeq_res (q : Seq) (s : State) : (setSeq q s).res = s.res := rfl
@[simp] theorem setSeq_reqOp (q : Seq) (s : State) : (setSeq q s).reqOp = s.reqOp := rfl
@[simp] theorem setSeq_reqAddr (q : Seq) (s : State) : (setSeq q s).reqAddr = s.reqAddr := rfl
@[simp] theorem setSeq_reqLen (q : Seq) (s : State) : (setSeq q s).reqLen = s.reqLen := rfl
@[simp] theorem setSeq_txBuf (q : Seq) (s : State) : (setSeq q s).txBuf = s.txBuf := rfl
@[simp] theorem setSeq_rxBuf (q : Seq) (s : State) : (setSeq q s).rxBuf = s.rxBuf := rfl
@[simp] theorem setSeq_idBuf (q : Seq) (s : State) : (setSeq q s).idBuf = s.idBuf := rfl
@[simp] theorem setSeq_cfg (q : Seq) (s : State) : (setSeq q s).cfg = s.cfg := rfl
@[simp] theorem setSeq_env (q : Seq) (s : State) : (setSeq q s).env = s.env := rfl
@[simp] theorem setSeq_answers (q : Seq) (s : State) : (setSeq q s).answers = s.answers := rfl
@[simp] theorem setSeq_port (q : Seq) (s : State) : (setSeq q s).port = s.port := rfl
@[simp] theorem setSeq_events (q : Seq) (s : State) : (setSeq q s).events = s.events := rfl
@[simp] theorem setSeq_free (q : Seq) (s : State) : (setSeq q s).free = s.free := rfl
@[simp] theorem setSeq_job (q : Seq) (s : State) : (setSeq q s).job = s.job := rfl
@[simp] theorem setSeq_phase (q : Seq) (s : State) : (setSeq q s).phase = .start := rfl

/-! ## enter -/

@[simp] theorem enter_mode (j : Job) (q : Seq) (s : State) : (enter j q s).mode = s.mode := rfl
@[simp] theorem enter_geomIdx (j : Job) (q : Seq) (s : State) : (enter j q s).geomIdx = s.geomIdx := rfl
@[simp] theorem enter_inited (j : Job) (q : Seq) (s : State) : (enter j q s).inited = s.inited := rfl
@[simp] theorem enter_seq (j : Job) (q : Seq) (s : State) : (enter j q s).seq = q := rfl
@[simp] theorem enter_pollCnt (j : Job) (q : Seq) (s : State) : (enter j q s).pollCnt = s.pollCnt := rfl
@[simp] theorem enter_srLast (j : Job) (q : Seq) (s : State) : (enter j q s).srLast = s.srLast := rfl
@[simp] theorem enter_res (j : Job) (q : Seq) (s : State) : (enter j q s).res = s.res := rfl
@[simp] theorem enter_reqOp (j : Job) (q : Seq) (s : State) : (enter j q s).reqOp = s.reqOp := rfl
@[simp] theorem enter_reqAddr (j : Job) (q : Seq) (s : State) : (enter j q s).reqAddr = s.reqAddr := rfl
@[simp] theorem enter_reqLen (j : Job) (q : Seq) (s : State) : (enter j q s).reqLen = s.reqLen := rfl
@[simp] theorem enter_txBuf (j : Job) (q : Seq) (s : State) : (enter j q s).txBuf = s.txBuf := rfl
@[simp] theorem enter_rxBuf (j : Job) (q : Seq) (s : State) : (enter j q s).rxBuf = s.rxBuf := rfl
@[simp] theorem enter_idBuf (j : Job) (q : Seq) (s : State) : (enter j q s).idBuf = s.idBuf := rfl
@[simp] theorem enter_cfg (j : Job) (q : Seq) (s : State) : (enter j q s).cfg = s.cfg := rfl
@[simp] theorem enter_env (j : Job) (q : Seq) (s : State) : (enter j q s).env = s.env := rfl
@[simp] theorem enter_answers (j : Job) (q : Seq) (s : State) : (enter j q s).answers = s.answers := rfl
@[simp] theorem enter_port (j : Job) (q : Seq) (s : State) : (enter j q s).port = s.port := rfl
@[simp] theorem enter_events (j : Job) (q : Seq) (s : State) : (enter j q s).events = s.events := rfl
@[simp] theorem enter_free (j : Job) (q : Seq) (s : State) : (enter j q s).free = s.free := rfl
@[simp] theorem enter_job (j : Job) (q : Seq) (s : State) : (enter j q s).job = j := rfl
@[simp] theorem enter_phase (j : Job) (q : Seq) (s : State) : (enter j q s).phase = .start := rfl

/-! ## finish -/

@[simp] theorem finish_mode (r : Result) (s : State) : (finish r s).mode = s.mode := rfl
@[simp] theorem finish_geomIdx (r : Result) (s : State) : (finish r s).geomIdx = s.geomIdx := rfl
@[simp] theorem finish_inited (r : Result) (s : State) : (finish r s).inited = s.inited := rfl
@[simp] theorem finish_seq (r : Result) (s : State) : (finish r s).seq = .idle := rfl
@[simp] theorem finish_pollCnt (r : Result) (s : State) : (finish r s).pollCnt = s.pollCnt := rfl
@[simp] theorem finish_srLast (r : Result) (s : State) : (finish r s).srLast = s.srLast := rfl
@[simp] theorem finish_res (r : Result) (s : State) : (finish r s).res = r := rfl
@[simp] theorem finish_reqOp (r : Result) (s : State) : (finish r s).reqOp = s.reqOp := rfl
@[simp] theorem finish_reqAddr (r : Result) (s : State) : (finish r s).reqAddr = s.reqAddr := rfl
@[simp] theorem finish_reqLen (r : Result) (s : State) : (finish r s).reqLen = s.reqLen := rfl
@[simp] theorem finish_txBuf (r : Result) (s : State) : (finish r s).txBuf = s.txBuf := rfl
@[simp] theorem finish_rxBuf (r : Result) (s : State) : (finish r s).rxBuf = s.rxBuf := rfl
@[simp] theorem finish_idBuf (r : Result) (s : State) : (finish r s).idBuf = s.idBuf := rfl
@[simp] theorem finish_cfg (r : Result) (s : State) : (finish r s).cfg = s.cfg := rfl
@[simp] theorem finish_env (r : Result) (s : State) : (finish r s).env = s.env := rfl
@[simp] theorem finish_answers (r : Result) (s : State) : (finish r s).answers = s.answers := rfl
@[simp] theorem finish_port (r : Result) (s : State) : (finish r s).port = s.port := rfl
@[simp] theorem finish_events (r : Result) (s : State) : (finish r s).events = s.events := rfl
@[simp] theorem finish_free (r : Result) (s : State) : (finish r s).free = s.free := rfl
@[simp] theorem finish_job (r : Result) (s : State) : (finish r s).job = .none := rfl
@[simp] theorem finish_phase (r : Result) (s : State) : (finish r s).phase = .start := rfl

/-! ## resetBlock -/

@[simp] theorem resetBlock_mode (s : State) : (resetBlock s).mode = .spi := rfl
@[simp] theorem resetBlock_geomIdx (s : State) : (resetBlock s).geomIdx = 0 := rfl
@[simp] theorem resetBlock_inited (s : State) : (resetBlock s).inited = false := rfl
@[simp] theorem resetBlock_seq (s : State) : (resetBlock s).seq = .idle := rfl
@[simp] theorem resetBlock_pollCnt (s : State) : (resetBlock s).pollCnt = 0 := rfl
@[simp] theorem resetBlock_srLast (s : State) : (resetBlock s).srLast = 0 := rfl
@[simp] theorem resetBlock_res (s : State) : (resetBlock s).res = .ok := rfl
@[simp] theorem resetBlock_reqOp (s : State) : (resetBlock s).reqOp = 0 := rfl
@[simp] theorem resetBlock_reqAddr (s : State) : (resetBlock s).reqAddr = 0 := rfl
@[simp] theorem resetBlock_reqLen (s : State) : (resetBlock s).reqLen = 0 := rfl
@[simp] theorem resetBlock_txBuf (s : State) : (resetBlock s).txBuf = [] := rfl
@[simp] theorem resetBlock_rxBuf (s : State) : (resetBlock s).rxBuf = [] := rfl
@[simp] theorem resetBlock_idBuf (s : State) : (resetBlock s).idBuf = ⟨0, 0, 0⟩ := rfl
@[simp] theorem resetBlock_cfg (s : State) : (resetBlock s).cfg = s.cfg := rfl
@[simp] theorem resetBlock_env (s : State) : (resetBlock s).env = s.env := rfl
@[simp] theorem resetBlock_answers (s : State) : (resetBlock s).answers = s.answers := rfl
@[simp] theorem resetBlock_port (s : State) : (resetBlock s).port = s.port := rfl
@[simp] theorem resetBlock_events (s : State) : (resetBlock s).events = s.events := rfl
@[simp] theorem resetBlock_free (s : State) : (resetBlock s).free = s.free := rfl
@[simp] theorem resetBlock_job (s : State) : (resetBlock s).job = .none := rfl
@[simp] theorem resetBlock_phase (s : State) : (resetBlock s).phase = .start := rfl

end Sys2Proof.Machine
end

