-- ==== Sys2Proof/Laws/Ops.lean ====
section
/-! SUPPORT. What each shared operation can do, said once: an exchange, a bus command, a status read, the waits, the
bracket, the admission of a request. -/

namespace Sys2Proof.Machine

/-! ## Byte lists -/

@[simp] theorem freeBytes_length (c n : Nat) : (freeBytes c n).length = n := by simp [freeBytes]

@[simp] theorem fit_length (c n : Nat) (l : List Byte) : (fit c n l).length = n := by
  unfold fit
  split_ifs with h
  · exact h
  · simp

/-- A list of the right length stays as it is. -/
theorem fit_of_length {c n : Nat} {l : List Byte} (h : l.length = n) : fit c n l = l := if_pos h

@[simp] theorem fit_single (c : Nat) (b : Byte) : fit c 1 [b] = [b] := rfl

/-! ## What an exchange leaves alone -/

/-- `t` differs from `s` at most in what exchanges, polls and delays write: the counters and buffers of the
exchanges, the outside agents, the events. -/
structure Exchanged (s t : State) : Prop where
  mode : t.mode = s.mode
  geomIdx : t.geomIdx = s.geomIdx
  inited : t.inited = s.inited
  seq : t.seq = s.seq
  res : t.res = s.res
  reqOp : t.reqOp = s.reqOp
  reqAddr : t.reqAddr = s.reqAddr
  reqLen : t.reqLen = s.reqLen
  txBuf : t.txBuf = s.txBuf
  cfg : t.cfg = s.cfg
  port : t.port = s.port
  job : t.job = s.job
  phase : t.phase = s.phase

theorem Exchanged.refl (s : State) : Exchanged s s := ⟨rfl, rfl, rfl, rfl, rfl, rfl, rfl, rfl, rfl, rfl, rfl, rfl, rfl⟩

theorem Exchanged.trans {s t u : State} (h : Exchanged s t) (k : Exchanged t u) : Exchanged s u :=
  ⟨k.mode.trans h.mode, k.geomIdx.trans h.geomIdx, k.inited.trans h.inited, k.seq.trans h.seq, k.res.trans h.res,
   k.reqOp.trans h.reqOp, k.reqAddr.trans h.reqAddr, k.reqLen.trans h.reqLen, k.txBuf.trans h.txBuf,
   k.cfg.trans h.cfg, k.port.trans h.port, k.job.trans h.job, k.phase.trans h.phase⟩

/-- The descriptor of a bus command reads only fields that exchanges leave alone. -/
theorem Exchanged.descriptor {s t : State} (h : Exchanged s t) (k : BusOp) : descriptor t k = descriptor s k := by
  cases k <;> simp [Machine.descriptor, h.cfg, h.reqAddr, h.reqLen, h.txBuf]

/-! ## Exchanges -/

@[simp] theorem xfer_ok (cmd : Cmd) (s : State) : (xfer cmd s).1.ok = (nextAnswer s).ok := rfl

@[simp] theorem respond_length (s : State) (a : Answer) (cmd : Cmd) : (respond s a cmd).1.length = cmd.rxLen := by
  simp only [respond]
  split <;> simp

/-- `XFER` returns a list of `rx_len` bytes (R110). -/
@[simp] theorem xfer_rx_length (cmd : Cmd) (s : State) : (xfer cmd s).1.rx.length = cmd.rxLen :=
  respond_length s (nextAnswer s) cmd

theorem xfer_rx (cmd : Cmd) (s : State) : (xfer cmd s).1.rx = (respond s (nextAnswer s) cmd).1 := rfl

/-- Everything `XFER` does: one event, one answer used up, the agents moved on. -/
theorem xfer_state (cmd : Cmd) (s : State) :
    (xfer cmd s).2 =
      { s with
        env := (respond s (nextAnswer s) cmd).2
        answers := s.answers.tail
        free := s.free + 1
        events := ⟨s.seq, some cmd, frame s.cfg s.mode cmd,
          if (nextAnswer s).ok then .ok (respond s (nextAnswer s) cmd).1 else .fail⟩ :: s.events } := rfl

theorem xfer_exchanged (cmd : Cmd) (s : State) : Exchanged s (xfer cmd s).2 :=
  ⟨rfl, rfl, rfl, rfl, rfl, rfl, rfl, rfl, rfl, rfl, rfl, rfl, rfl⟩

theorem deliver_exchanged (k : BusOp) (x : Exchange) (s : State) : Exchanged s (deliver k x s) := by
  cases k <;> simp only [deliver] <;> (try split) <;>
    exact ⟨rfl, rfl, rfl, rfl, rfl, rfl, rfl, rfl, rfl, rfl, rfl, rfl, rfl⟩

@[simp] theorem deliver_events (k : BusOp) (x : Exchange) (s : State) : (deliver k x s).events = s.events := by
  cases k <;> first | rfl | (simp only [deliver]; split <;> rfl)

@[simp] theorem deliver_env (k : BusOp) (x : Exchange) (s : State) : (deliver k x s).env = s.env := by
  cases k <;> first | rfl | (simp only [deliver]; split <;> rfl)

@[simp] theorem deliver_answers (k : BusOp) (x : Exchange) (s : State) : (deliver k x s).answers = s.answers := by
  cases k <;> first | rfl | (simp only [deliver]; split <;> rfl)

@[simp] theorem deliver_free (k : BusOp) (x : Exchange) (s : State) : (deliver k x s).free = s.free := by
  cases k <;> first | rfl | (simp only [deliver]; split <;> rfl)

@[simp] theorem deliver_pollCnt (k : BusOp) (x : Exchange) (s : State) : (deliver k x s).pollCnt = s.pollCnt := by
  cases k <;> first | rfl | (simp only [deliver]; split <;> rfl)

/-- One exchange ends with `Ok` or `Fail` as the bus driver says (R110, R117). -/
@[simp] theorem micro_result (k : BusOp) (s : State) :
    (micro k s).1 = if (nextAnswer s).ok then .ok else .fail := rfl

theorem micro_exchanged (k : BusOp) (s : State) : Exchanged s (micro k s).2 :=
  (xfer_exchanged _ s).trans (deliver_exchanged _ _ _)

/-- The one event of a bus command. -/
theorem micro_events (k : BusOp) (s : State) :
    (micro k s).2.events =
      ⟨s.seq, some (descriptor s k), frame s.cfg s.mode (descriptor s k),
        if (nextAnswer s).ok then .ok (respond s (nextAnswer s) (descriptor s k)).1 else .fail⟩ :: s.events := by
  simp [micro, xfer_state]

@[simp] theorem micro_pollCnt (k : BusOp) (s : State) : (micro k s).2.pollCnt = s.pollCnt := by
  simp [micro, xfer_state]

@[simp] theorem micro_answers (k : BusOp) (s : State) : (micro k s).2.answers = s.answers.tail := by
  simp [micro, xfer_state]

@[simp] theorem micro_free (k : BusOp) (s : State) : (micro k s).2.free = s.free + 1 := by
  simp [micro, xfer_state]

@[simp] theorem micro_env (k : BusOp) (s : State) :
    (micro k s).2.env = (respond s (nextAnswer s) (descriptor s k)).2 := by
  simp [micro, xfer_state]

/-- READ_STATUS1 leaves the returned byte in `SR_LAST` (R26, R150). -/
theorem readStatus1_srLast (s : State) :
    (micro .readStatus1 s).2.srLast = (respond s (nextAnswer s) (descriptor s .readStatus1)).1.getD 0 0 := rfl

/-- The reads leave the returned bytes in `RXBUF` (R29, R175). -/
theorem read_rxBuf (s : State) :
    (micro .read s).2.rxBuf = (respond s (nextAnswer s) (descriptor s .read)).1 := rfl

theorem fastRead_rxBuf (s : State) :
    (micro .fastRead s).2.rxBuf = (respond s (nextAnswer s) (descriptor s .fastRead)).1 := rfl

/-- READ_ID is one exchange; only a failure touches `ID_BUF` (R132, 90_conflicts.md C10). -/
theorem readId_exchanged (s : State) : Exchanged s (readId s).2 :=
  (xfer_exchanged (descriptor s .readId) s).trans (deliver_exchanged .readId _ _)

/-- The one event of READ_ID. -/
theorem readId_events (s : State) :
    (readId s).2.events =
      ⟨s.seq, some (descriptor s .readId), frame s.cfg s.mode (descriptor s .readId),
        if (nextAnswer s).ok then .ok (respond s (nextAnswer s) (descriptor s .readId)).1 else .fail⟩
        :: s.events := by
  simp [readId, xfer_state]

/-- The transport hook of INIT (R131). -/
theorem transportInit_exchanged (s : State) : Exchanged s (transportInit s).2 :=
  ⟨rfl, rfl, rfl, rfl, rfl, rfl, rfl, rfl, rfl, rfl, rfl, rfl, rfl⟩

/-! ## Waits -/

theorem delayUs_exchanged (n : Nat) (s : State) : Exchanged s (delayUs n s) :=
  ⟨rfl, rfl, rfl, rfl, rfl, rfl, rfl, rfl, rfl, rfl, rfl, rfl, rfl⟩

theorem poll_exchanged (s : State) : Exchanged s (poll s).2 :=
  Exchanged.trans (t := { s with pollCnt := s.pollCnt + 1 })
    ⟨rfl, rfl, rfl, rfl, rfl, rfl, rfl, rfl, rfl, rfl, rfl, rfl, rfl⟩ (micro_exchanged _ _)

@[simp] theorem poll_pollCnt (s : State) : (poll s).2.pollCnt = s.pollCnt + 1 := by simp [poll, readStatus1]

/-- One round of the loop (R153). -/
theorem pollLoop_succ (fuel : Nat) (s : State) :
    pollLoop (fuel + 1) s =
      match pollOutcome (poll s).1 (poll s).2 with
      | .ended r => (r, (poll s).2)
      | .again => pollLoop fuel (delayUs (poll s).2.cfg.pollDelayUs (poll s).2) := rfl

theorem pollLoop_exchanged (fuel : Nat) (s : State) : Exchanged s (pollLoop fuel s).2 := by
  induction fuel generalizing s with
  | zero => exact Exchanged.refl s
  | succ fuel ih =>
    rw [pollLoop_succ]
    split
    · exact poll_exchanged s
    · exact ((poll_exchanged s).trans (delayUs_exchanged _ _)).trans (ih _)

theorem waitIdle_exchanged (s : State) : Exchanged s (waitIdle s).2 :=
  Exchanged.trans (t := { s with pollCnt := 0 })
    ⟨rfl, rfl, rfl, rfl, rfl, rfl, rfl, rfl, rfl, rfl, rfl, rfl, rfl⟩ (pollLoop_exchanged _ _)

/-! ## Sequencing -/

/-- `try X` (R8): what a sequence ends with is either its first part, ended by a result other than `Ok`, or what
follows an `Ok`. -/
theorem andThen_cases (x : Result × State) (k : State → Result × State) :
    (x.1 ≠ .ok ∧ andThen x k = x) ∨ (x.1 = .ok ∧ andThen x k = k x.2) := by
  rcases x with ⟨r, s⟩
  cases r <;> simp [andThen]

@[simp] theorem andThen_ok (s : State) (k : State → Result × State) : andThen (.ok, s) k = k s := rfl

/-! ## Admission -/

/-- If an admitted request has a next state, either it waits at the port or it has run (R28). -/
theorem whenReady_next {i : Instr} {s t : State} {k : State → Host.Outcome State Fault Refusal}
    (h : whenReady i s k = .next t) :
    (s.seq ≠ .idle ∧ t = waitAtPort i s) ∨ (s.seq = .idle ∧ s.cfg.wf = true ∧ s.inited = true ∧ k s = .next t) := by
  unfold whenReady at h
  split_ifs at h with h1 h2 h3 <;> simp_all

theorem whenReadyForInit_next {i : Instr} {s t : State} {k : State → State} (h : whenReadyForInit i s k = .next t) :
    (s.seq ≠ .idle ∧ t = waitAtPort i s) ∨ (s.seq = .idle ∧ s.cfg.wf = true ∧ s.inited = false ∧ t = k s) := by
  unfold whenReadyForInit at h
  split_ifs at h with h1 h2 h3 <;> simp_all

/-- Where the conditions hold, the request runs. -/
theorem whenReady_ready (i : Instr) {s : State} (h : Ready s) (k : State → Host.Outcome State Fault Refusal) :
    whenReady i s k = k s := by
  obtain ⟨h1, h2, h3⟩ := h
  simp [whenReady, h1, h2, h3]

theorem whenReadyForInit_ready (i : Instr) {s : State} (h : ReadyForInit s) (k : State → State) :
    whenReadyForInit i s k = .next (k s) := by
  obtain ⟨h1, h2, h3⟩ := h
  simp [whenReadyForInit, h1, h2, h3]

/-- A request whose command stays inside the device runs, any other is refused (R63). -/
theorem withinDevice_next {k : BusOp} {s t : State} {run : State → State} (h : withinDevice k s run = .next t) :
    reaches k s = true ∧ t = run s := by
  unfold withinDevice at h
  split_ifs at h with hr
  exact ⟨hr, (Host.Outcome.next.inj h).symm⟩

theorem withinDevice_inside {k : BusOp} {s : State} (h : reaches k s = true) (run : State → State) :
    withinDevice k s run = .next (run s) := if_pos h

/-- A command without an address reaches every device. -/
theorem reaches_plain {k : BusOp} (s : State) (h : k = .readId ∨ k = .readStatus1 ∨ k = .writeEnable ∨
    k = .writeDisable ∨ k = .chipErase) : reaches k s = true := by
  rcases h with rfl | rfl | rfl | rfl | rfl <;> · unfold reaches; split <;> rfl

/-- With the oracle behind the transport no command is refused. -/
theorem reaches_oracle {s : State} (h : s.env = .oracle) (k : BusOp) : reaches k s = true := by
  unfold reaches
  rw [h]

/-! ## Latching -/

@[simp] theorem loadTx_cfg (buf : List Byte) (s : State) : (loadTx buf s).cfg = s.cfg := by
  unfold loadTx; split <;> rfl

@[simp] theorem loadTx_reqLen (buf : List Byte) (s : State) : (loadTx buf s).reqLen = s.reqLen := by
  unfold loadTx; split <;> rfl

@[simp] theorem loadTx_reqAddr (buf : List Byte) (s : State) : (loadTx buf s).reqAddr = s.reqAddr := by
  unfold loadTx; split <;> rfl

@[simp] theorem loadTx_geomIdx (buf : List Byte) (s : State) : (loadTx buf s).geomIdx = s.geomIdx := by
  unfold loadTx; split <;> rfl

/-- `TXBUF` holds `REQ_LEN` bytes (R29). -/
theorem loadTx_txBuf_length (buf : List Byte) (s : State) : (loadTx buf s).txBuf.length = s.reqLen := by
  unfold loadTx
  split_ifs with h
  · exact h
  · simp

end Sys2Proof.Machine
end

