-- ==== Sys2Proof/Laws/Exec.lean ====
section
/-! SUPPORT. What `exec` can do, said once: each instruction as its admission and its body, and the seven ways an
instruction run in `IDLE` can end in a next state. -/

namespace Sys2Proof.Machine

/-! ## Each instruction as admission and body -/

theorem exec_init (a : Addr) (n : Nat) (s : State) :
    exec (.init a n) s = whenReadyForInit (.init a n) s fun s => initialise (latch 0x0 a n s) := rfl

theorem exec_pageProgram (a : Addr) (n : Nat) (buf : List Byte) (s : State) :
    exec (.pageProgram a n buf) s =
      whenReady (.pageProgram a n buf) s fun s => pageProgram (loadTx buf (latch 0x3 a n s)) := rfl

theorem exec_waitIdle (s : State) :
    exec .waitIdle s = whenReady .waitIdle s fun s => .next (finishWith (waitIdle (enter .wait .waitIdlePre s))) := rfl

/-- The bracketed instructions without a check. -/
theorem exec_bracket {i : Instr} {c : BracketCmd} (hc : bracketOf i = some c) (hp : ∀ a n b, i ≠ .pageProgram a n b)
    (s : State) : exec i s = whenReady i s fun s => bracket c (latched i s) := by
  cases i <;> simp only [bracketOf, reduceCtorEq, Option.some.injEq] at hc <;> subst hc <;>
    first | rfl | exact absurd rfl (hp _ _ _)

/-- `SEQ` during a bus command run by itself. -/
def aloneSeq : BusOp → Seq
  | .readId => .probe
  | .readStatus1 => .waitIdlePre
  | .writeEnable => .writeEnable
  | .writeDisable => .writeDisable
  | _ => .issueCommand

theorem aloneSeq_ne_idle (k : BusOp) : aloneSeq k ≠ .idle := by cases k <;> simp [aloneSeq]

theorem exec_alone {i : Instr} {k : BusOp} (hk : aloneOf i = some k) (s : State) :
    exec i s = whenReady i s (commandAlone k (aloneSeq k)) := by
  cases i <;> simp only [aloneOf, reduceCtorEq, Option.some.injEq] at hk <;> subst hk <;> rfl

/-- The two reads, with their operands. -/
theorem exec_readClass {i : Instr} {op : BitVec 4} {a : Addr} {n : Nat} {k : BusOp}
    (h : readOf i = some (op, a, n, k)) (s : State) :
    exec i s = whenReady i s fun s => withinDevice k (latch op a n s) (runRead k) := by
  cases i <;> simp only [readOf, reduceCtorEq, Option.some.injEq, Prod.mk.injEq] at h <;>
    (obtain ⟨rfl, rfl, rfl, rfl⟩ := h; rfl)

/-- PAGE_PROGRAM's check, on the latched operands. -/
theorem pageProgram_latched (a : Addr) (n : Nat) (buf : List Byte) (s : State) :
    pageProgram (loadTx buf (latch 0x3 a n s)) =
      if pageCheck (pageSize s.cfg s.geomIdx) a n then bracket .pageProgram (loadTx buf (latch 0x3 a n s))
      else .next (finish .fail (loadTx buf (latch 0x3 a n s))) := by
  simp [pageProgram]

/-! ## The ways an instruction ends -/

/-- How an instruction run with the port ready comes to its next state. -/
inductive Ran (i : Instr) (s t : State) : Prop
  /-- ILLEGAL (R92). -/
  | illegal (w : Word) (hi : i = .illegal w) (ht : t = { s with res := .fail })
  /-- INIT (R131). -/
  | init (a : Addr) (n : Nat) (hi : i = .init a n) (hp : s.cfg.wf = true) (hn : s.inited = false)
      (ht : t = initialise (latch 0x0 a n s))
  /-- One bus command (R132, R150 to R152, R91). -/
  | alone (k : BusOp) (hi : aloneOf i = some k) (hr : Ready s) (hd : reaches k s = true)
      (ht : t = runAlone k (aloneSeq k) s)
  /-- WAIT_IDLE (R153). -/
  | wait (hi : i = .waitIdle) (hr : Ready s) (ht : t = finishWith (waitIdle (enter .wait .waitIdlePre s)))
  /-- READ, FAST_READ (R175). -/
  | read (op : BitVec 4) (a : Addr) (n : Nat) (k : BusOp) (hi : readOf i = some (op, a, n, k)) (hr : Ready s)
      (hd : reaches k (latch op a n s) = true) (ht : t = runRead k (latch op a n s))
  /-- PAGE_PROGRAM whose check failed (R163). -/
  | rejected (a : Addr) (n : Nat) (buf : List Byte) (hi : i = .pageProgram a n buf) (hr : Ready s)
      (hc : pageCheck (pageSize s.cfg s.geomIdx) a n = false) (ht : t = finish .fail (latched i s))
  /-- A bracket (R160), PAGE_PROGRAM's after its check. -/
  | bracket (c : BracketCmd) (hi : bracketOf i = some c) (hr : Ready s)
      (hc : ∀ a n buf, i = .pageProgram a n buf → pageCheck (pageSize s.cfg s.geomIdx) a n = true)
      (hd : reaches c.busOp (latched i s) = true) (ht : t = runBracket c (latched i s))

/-- An admitted request that runs in `IDLE`. -/
theorem whenReady_ran {i : Instr} {s t : State} {k : State → Host.Outcome State Fault Refusal} (hs : s.seq = .idle)
    (h : whenReady i s k = .next t) : Ready s ∧ k s = .next t := by
  rcases whenReady_next h with h | h
  · exact absurd hs h.1
  · exact ⟨⟨hs, h.2.1, h.2.2.1⟩, h.2.2.2⟩

theorem exec_ran {i : Instr} {s t : State} (hs : s.seq = .idle) (h : exec i s = .next t) : Ran i s t := by
  cases i with
  | illegal w =>
    refine .illegal w rfl ?_
    change execIllegal w s = .next t at h
    rw [execIllegal, if_neg (not_not.mpr hs)] at h
    cases h
    rfl
  | init a n =>
    rw [exec_init] at h
    rcases whenReadyForInit_next h with h | h
    · exact absurd hs h.1
    · exact .init a n rfl h.2.1 h.2.2.1 h.2.2.2
  | pageProgram a n buf =>
    rw [exec_pageProgram] at h
    obtain ⟨hr, ht⟩ := whenReady_ran hs h
    rw [pageProgram_latched] at ht
    split_ifs at ht with hc
    · obtain ⟨hd, ht⟩ := withinDevice_next ht
      refine .bracket _ rfl hr ?_ hd ht
      rintro a' n' buf' he
      cases he
      exact hc
    · exact .rejected a n buf rfl hr (by simpa using hc) (Host.Outcome.next.inj ht).symm
  | waitIdle =>
    obtain ⟨hr, ht⟩ := whenReady_ran hs (exec_waitIdle s ▸ h)
    exact .wait rfl hr (Host.Outcome.next.inj ht).symm
  | read | fastRead =>
    rw [exec_readClass rfl] at h
    obtain ⟨hr, ht⟩ := whenReady_ran hs h
    obtain ⟨hd, ht⟩ := withinDevice_next ht
    exact .read _ _ _ _ rfl hr hd ht
  | sectorErase | blockErase32 | blockErase64 | chipErase | writeSeq =>
    rw [exec_bracket rfl (by simp)] at h
    obtain ⟨hr, ht⟩ := whenReady_ran hs h
    obtain ⟨hd, ht⟩ := withinDevice_next ht
    exact .bracket _ rfl hr (by simp) hd ht
  | readId | readStatus1 | writeEnable | writeDisable | pageProgramCmd | sectorEraseCmd | blockErase32Cmd
  | blockErase64Cmd | readCmd | fastReadCmd =>
    rw [exec_alone rfl] at h
    obtain ⟨hr, ht⟩ := whenReady_ran hs h
    obtain ⟨hd, ht⟩ := withinDevice_next ht
    exact .alone _ rfl hr hd ht

/-- A bracketed instruction that is ready, whose range stays in its page and in the device, runs its bracket. -/
theorem exec_runs_bracket {i : Instr} {c : BracketCmd} {s : State} (hc : bracketOf i = some c) (hr : Ready s)
    (hp : ∀ a n buf, i = .pageProgram a n buf → pageCheck (pageSize s.cfg s.geomIdx) a n = true)
    (hd : reaches c.busOp (latched i s) = true) : exec i s = .next (runBracket c (latched i s)) := by
  cases i with
  | pageProgram a n buf =>
    cases hc
    rw [exec_pageProgram, whenReady_ready _ hr, pageProgram_latched, if_pos (hp _ _ _ rfl)]
    exact withinDevice_inside hd _
  | _ =>
    rw [exec_bracket hc (by simp), whenReady_ready _ hr]
    exact withinDevice_inside hd _

/-! ## What sequences keep -/

/-- A property of the state that holds after the first part and is kept by the rest holds in the end. -/
theorem andThen_state {P : State → Prop} {x : Result × State} {k : State → Result × State} (h : P x.2)
    (hk : ∀ s, P s → P (k s).2) : P (andThen x k).2 := by
  rcases andThen_cases x k with ⟨-, h'⟩ | ⟨-, h'⟩ <;> rw [h']
  · exact h
  · exact hk _ h

/-- A property that the moves of `SEQ`, single commands and waits keep is kept by the bracket. -/
theorem writeSeq_state {P : State → Prop} (hseq : ∀ q s, P s → P (setSeq q s))
    (hmicro : ∀ k s, P s → P (micro k s).2) (hwait : ∀ s, P s → P (waitIdle s).2) (c : BracketCmd) (s : State)
    (h : P s) : P (writeSeq c s).2 :=
  andThen_state (hmicro _ _ (hseq _ _ h)) fun _ h1 =>
    andThen_state (hwait _ (hseq _ _ h1)) fun _ h2 =>
      andThen_state (hmicro _ _ (hseq _ _ h2)) fun _ h3 =>
        andThen_state (hwait _ (hseq _ _ h3)) fun _ h4 => hmicro _ _ (hseq _ _ h4)

end Sys2Proof.Machine
end

