-- ==== Sys2Proof/Laws/Memory.lean ====
section
/-! SUPPORT. The laws of the byte array: what each operation leaves at each address, and that every operation keeps
the canonical form. -/

namespace Sys2Proof.Machine

theorem Memory.wf_cons (c : Host.Cell) (m : Memory) :
    Memory.wf (c :: m) = true ↔ c.2 ≠ Memory.unlisted ∧ (∀ d ∈ m, c.1 < d.1) ∧ Memory.wf m = true := by
  simp [Memory.wf, and_assoc]

/-! ## Membership -/

theorem Memory.mem_insert {a : Nat} {v : Byte} {m : Memory} {d : Host.Cell} (h : d ∈ Memory.insert a v m) :
    d = (a, v) ∨ d ∈ m := by
  induction m with
  | nil => simpa [Memory.insert] using h
  | cons c m ih =>
    simp only [Memory.insert] at h
    split_ifs at h
    · simpa using h
    · simp only [List.mem_cons] at h ⊢
      tauto
    · simp only [List.mem_cons] at h ⊢
      rcases h with h | h
      · exact .inr (.inl h)
      · rcases ih h with h | h
        · exact .inl h
        · exact .inr (.inr h)

theorem Memory.mem_write {m : Memory} {a : Nat} {v : Byte} {d : Host.Cell} (h : d ∈ Memory.write m a v) :
    d.1 = a ∨ d ∈ m := by
  unfold Memory.write at h
  split_ifs at h
  · exact .inr (List.mem_filter.mp h).1
  · rcases Memory.mem_insert h with h | h
    · exact .inl (by rw [h])
    · exact .inr h

/-! ## The canonical form -/

theorem Memory.wf_insert {m : Memory} (h : Memory.wf m = true) (a : Nat) {v : Byte} (hv : v ≠ Memory.unlisted) :
    Memory.wf (Memory.insert a v m) = true := by
  induction m with
  | nil => simpa [Memory.insert, Memory.wf] using hv
  | cons c m ih =>
    obtain ⟨hc, hlt, hm⟩ := (Memory.wf_cons c m).mp h
    simp only [Memory.insert]
    split_ifs with h1 h2
    · refine (Memory.wf_cons _ _).mpr ⟨hv, ?_, h⟩
      intro d hd
      rcases List.mem_cons.mp hd with rfl | hd
      · exact h1
      · exact lt_trans h1 (hlt d hd)
    · subst h2
      exact (Memory.wf_cons _ _).mpr ⟨hv, hlt, hm⟩
    · refine (Memory.wf_cons _ _).mpr ⟨hc, ?_, ih hm⟩
      intro d hd
      rcases Memory.mem_insert hd with rfl | hd
      · show c.1 < a
        omega
      · exact hlt d hd

theorem Memory.wf_filter {m : Memory} (h : Memory.wf m = true) (p : Host.Cell → Bool) :
    Memory.wf (m.filter p) = true := by
  induction m with
  | nil => rfl
  | cons c m ih =>
    obtain ⟨hc, hlt, hm⟩ := (Memory.wf_cons c m).mp h
    by_cases hp : p c
    · simp only [List.filter_cons, hp, if_true]
      exact (Memory.wf_cons _ _).mpr ⟨hc, fun d hd => hlt d (List.mem_filter.mp hd).1, ih hm⟩
    · simpa [List.filter_cons, hp] using ih hm

theorem Memory.wf_write {m : Memory} (h : Memory.wf m = true) (a : Nat) (v : Byte) :
    Memory.wf (Memory.write m a v) = true := by
  unfold Memory.write
  split_ifs with hv
  · exact Memory.wf_filter h _
  · exact Memory.wf_insert h a hv

theorem Memory.wf_eraseRange {m : Memory} (h : Memory.wf m = true) (lo size : Nat) :
    Memory.wf (Memory.eraseRange m lo size) = true := Memory.wf_filter h _

theorem Memory.wf_program (c : Nat) {m : Memory} (h : Memory.wf m = true) (a : Nat) (ds : List Byte) :
    Memory.wf (Memory.program c m a ds) = true := by
  induction ds generalizing m a with
  | nil => exact h
  | cons d ds ih => exact ih (Memory.wf_write h _ _) _

theorem Memory.wf_writeCells {m : Memory} (h : Memory.wf m = true) (cells : List Host.Cell) :
    Memory.wf (Memory.writeCells m cells) = true := by
  induction cells generalizing m with
  | nil => exact h
  | cons c cells ih => exact ih (Memory.wf_write h _ _)

theorem Memory.wf_anyIn (c : Nat) {m : Memory} (h : Memory.wf m = true) (lo size : Nat) :
    Memory.wf (Memory.anyIn c m lo size) = true := Memory.wf_writeCells (Memory.wf_eraseRange h _ _) _

/-! ## Addresses stay below a bound -/

/-- Every listed address is below `n`. -/
def Memory.below (m : Memory) (n : Nat) : Prop := ∀ c ∈ m, c.1 < n

theorem Memory.below_write {m : Memory} {n a : Nat} (h : Memory.below m n) (ha : a < n) (v : Byte) :
    Memory.below (Memory.write m a v) n := by
  intro d hd
  rcases Memory.mem_write hd with hd | hd
  · omega
  · exact h d hd

theorem Memory.below_eraseRange {m : Memory} {n : Nat} (h : Memory.below m n) (lo size : Nat) :
    Memory.below (Memory.eraseRange m lo size) n := fun d hd => h d (List.mem_filter.mp hd).1

theorem Memory.below_program (c : Nat) {m : Memory} {n : Nat} (h : Memory.below m n) (a : Nat) (ds : List Byte)
    (hn : a + ds.length ≤ n) : Memory.below (Memory.program c m a ds) n := by
  induction ds generalizing m a with
  | nil => exact h
  | cons d ds ih =>
    simp only [List.length_cons] at hn
    exact ih (Memory.below_write h (by omega) _) _ (by omega)

theorem Memory.below_writeCells {m : Memory} {n : Nat} (h : Memory.below m n) {l : List Host.Cell}
    (hl : ∀ x ∈ l, x.1 < n) : Memory.below (Memory.writeCells m l) n := by
  induction l generalizing m with
  | nil => exact h
  | cons x l ih =>
    exact ih (Memory.below_write h (hl x (List.mem_cons_self ..)) _) fun y hy => hl y (List.mem_cons_of_mem _ hy)

theorem Memory.below_anyIn (c : Nat) {m : Memory} {n : Nat} (h : Memory.below m n) {lo size : Nat}
    (hn : ∀ x, lo ≤ x → x < lo + size → x < n) : Memory.below (Memory.anyIn c m lo size) n :=
  Memory.below_writeCells (Memory.below_eraseRange h _ _) fun x hx => by
    have := (List.mem_filter.mp hx).2
    simp only [Bool.and_eq_true, decide_eq_true_eq] at this
    exact hn x.1 this.1 this.2

/-! ## Reading after an operation -/

theorem Memory.read_of_lt {m : Memory} {a : Nat} (h : ∀ d ∈ m, a < d.1) : Memory.read m a = Memory.unlisted := by
  induction m with
  | nil => rfl
  | cons c m ih =>
    have hc := h c (List.mem_cons_self ..)
    simp only [Memory.read, if_neg (show ¬ c.1 = a by omega)]
    exact ih fun d hd => h d (List.mem_cons_of_mem _ hd)

theorem Memory.read_insert (a : Nat) (v : Byte) (m : Memory) (h : Memory.wf m = true) (x : Nat) :
    Memory.read (Memory.insert a v m) x = if x = a then v else Memory.read m x := by
  induction m with
  | nil => simp [Memory.insert, Memory.read, eq_comm]
  | cons c m ih =>
    obtain ⟨-, -, hm⟩ := (Memory.wf_cons c m).mp h
    simp only [Memory.insert]
    by_cases hx : x = a
    · subst hx
      rw [if_pos rfl]
      split_ifs with h1 h2
      · simp [Memory.read]
      · simp [Memory.read]
      · simp [Memory.read, Ne.symm h2, ih hm]
    · rw [if_neg hx]
      split_ifs with h1 h2
      · simp [Memory.read, Ne.symm hx]
      · subst h2; simp [Memory.read, Ne.symm hx]
      · simp [Memory.read, ih hm, hx]

theorem Memory.read_filter {m : Memory} (h : Memory.wf m = true) (p : Nat → Bool) (x : Nat) :
    Memory.read (m.filter fun c => p c.1) x = if p x then Memory.read m x else Memory.unlisted := by
  induction m with
  | nil => simp [Memory.read]
  | cons c m ih =>
    obtain ⟨-, hlt, hm⟩ := (Memory.wf_cons c m).mp h
    by_cases hx : c.1 = x
    · subst hx
      by_cases hp : p c.1
      · simp [hp, Memory.read]
      · simp only [List.filter_cons, hp, if_false, Bool.false_eq_true]
        exact Memory.read_of_lt fun d hd => hlt d (List.mem_filter.mp hd).1
    · by_cases hp : p c.1
      · simp [hp, Memory.read, hx, ih hm]
      · simp [hp, Memory.read, hx, ih hm]

/-- Read after write: the written address gives the value, every other address what it gave before. -/
theorem Memory.read_write {m : Memory} (h : Memory.wf m = true) (a : Nat) (v : Byte) (x : Nat) :
    Memory.read (Memory.write m a v) x = if x = a then v else Memory.read m x := by
  unfold Memory.write
  split_ifs with hv hx hx
  · subst hx; subst hv
    simpa [Memory.remove] using Memory.read_filter h (fun c => decide (c ≠ x)) x
  · simpa [Memory.remove, hx] using Memory.read_filter h (fun c => decide (c ≠ a)) x
  · simp [Memory.read_insert a v m h, hx]
  · simp [Memory.read_insert a v m h, hx]

theorem Memory.read_eraseRange {m : Memory} (h : Memory.wf m = true) (lo size x : Nat) :
    Memory.read (Memory.eraseRange m lo size) x
      = if lo ≤ x ∧ x < lo + size then Config.erasedByte else Memory.read m x := by
  have := Memory.read_filter h (fun a => !(decide (lo ≤ a) && decide (a < lo + size))) x
  simp only [Memory.eraseRange, this]
  by_cases hx : lo ≤ x ∧ x < lo + size
  · simp [hx, Memory.unlisted]
  · rw [if_neg hx, if_pos (by simp only [not_and] at hx; simp; omega)]

/-- Leaving a region open leaves every byte outside it. -/
theorem Memory.read_anyIn_outside (c : Nat) {m : Memory} (h : Memory.wf m = true) (lo size x : Nat)
    (hx : x < lo ∨ lo + size ≤ x) : Memory.read (Memory.anyIn c m lo size) x = Memory.read m x := by
  suffices ∀ (l : List Host.Cell), (∀ y ∈ l, y.1 ≠ x) → ∀ m : Memory, Memory.wf m = true →
      Memory.read (Memory.writeCells m l) x = Memory.read m x by
    refine (this _ (fun y hy => ?_) _ (Memory.wf_eraseRange h lo size)).trans ?_
    · have := (List.mem_filter.mp hy).2
      simp only [Bool.and_eq_true, decide_eq_true_eq] at this
      omega
    · rw [Memory.read_eraseRange h, if_neg (by omega)]
  intro l
  induction l with
  | nil => exact fun _ _ _ => rfl
  | cons y l ih =>
    intro hl m h
    refine (ih (fun z hz => hl z (List.mem_cons_of_mem _ hz)) _ (Memory.wf_write h _ _)).trans ?_
    rw [Memory.read_write h, if_neg fun he => hl y (List.mem_cons_self ..) he.symm]

/-- A program leaves every byte outside its range. -/
theorem Memory.read_program_outside (c : Nat) {m : Memory} (h : Memory.wf m = true) (a : Nat) (ds : List Byte)
    (x : Nat) (hx : x < a ∨ a + ds.length ≤ x) : Memory.read (Memory.program c m a ds) x = Memory.read m x := by
  induction ds generalizing m a with
  | nil => rfl
  | cons d ds ih =>
    simp only [List.length_cons] at hx
    simp only [Memory.program]
    rw [ih (Memory.wf_write h _ _) _ (by omega), Memory.read_write h, if_neg (by omega)]

/-- A program puts the data bytes where the array was erased. -/
theorem Memory.read_program_erased (c : Nat) {m : Memory} (h : Memory.wf m = true) (a : Nat) (ds : List Byte)
    (i : Nat) (hi : i < ds.length) (he : Memory.read m (a + i) = Config.erasedByte) :
    Memory.read (Memory.program c m a ds) (a + i) = ds[i] := by
  induction ds generalizing m a i with
  | nil => simp at hi
  | cons d ds ih =>
    simp only [Memory.program]
    cases i with
    | zero =>
      rw [Memory.read_program_outside c (Memory.wf_write h _ _) _ _ _ (by omega), Memory.read_write h]
      have he' : Memory.read m a = Config.erasedByte := by simpa using he
      simp [he']
    | succ i =>
      have := ih (Memory.wf_write h a (if Memory.read m a = Config.erasedByte then d else Config.freeCell c a))
        (a + 1) i (by simpa using hi) (by rw [Memory.read_write h, if_neg (by omega), ← he]; congr 1; omega)
      rw [show a + (i + 1) = a + 1 + i by omega, this]
      rfl

end Sys2Proof.Machine
end

