-- ==== Sys2Proof/Laws/Device.lean ====
section
/-! SUPPORT. What the reference device can do: every exchange keeps its array canonical and its parameters, an idle
device changes its array in no exchange whose command stays inside it, and what a completion leaves. -/

namespace Sys2Proof.Machine

/-! ## The canonical form -/

/-- The device's array is canonical and lies in the device. -/
def Device.arrayWf (d : Device) (m : Memory) : Prop := Memory.wf m = true ∧ Memory.below m d.size

theorem Device.arrayWf_anyIn (c : Nat) {d : Device} {m : Memory} (h : d.arrayWf m) (r : Nat × Nat) :
    d.arrayWf (d.anyIn c m r) :=
  ⟨Memory.wf_anyIn _ h.1 _ _, Memory.below_anyIn _ h.2 fun x h1 h2 => by omega⟩

theorem Device.arrayWf_foldl (c : Nat) {d : Device} (rs : List (Nat × Nat)) {m : Memory} (h : d.arrayWf m) :
    d.arrayWf (rs.foldl (d.anyIn c) m) := by
  induction rs generalizing m with
  | nil => exact h
  | cons r rs ih => exact ih (Device.arrayWf_anyIn c h r)

theorem Device.settled_wf (c : Nat) {d : Device} (h : d.wf) : d.arrayWf (d.settled c) := by
  obtain ⟨h1, h2, h3⟩ := h
  refine Device.arrayWf_foldl c _ ?_
  cases hp : d.pending with
  | none => exact ⟨h1, h2⟩
  | some w =>
    rw [hp] at h3
    cases w with
    | program lo data => exact ⟨Memory.wf_program _ h1 _ _, Memory.below_program _ h2 _ _ h3⟩
    | erase lo n => exact ⟨Memory.wf_eraseRange h1 _ _, Memory.below_eraseRange h2 _ _⟩

theorem Device.complete_wf (c : Nat) (x : Completion) {d : Device} (h : d.wf) : (d.complete c x).wf := by
  unfold Device.complete
  split_ifs
  · exact ⟨(Device.settled_wf c h).1, (Device.settled_wf c h).2, trivial⟩
  · exact h

theorem Device.disturb_wf (c : Nat) (r : Nat × Nat) {d : Device} (h : d.wf) : (d.disturb c r).wf :=
  ⟨(Device.arrayWf_anyIn c ⟨h.1, h.2.1⟩ r).1, (Device.arrayWf_anyIn c ⟨h.1, h.2.1⟩ r).2, h.2.2⟩

theorem Device.accept_wf (c : Nat) (a : Answer) (k : BusOp) (cmd : Cmd) {d : Device} (h : d.wf) :
    (d.accept c a k cmd).wf := by
  unfold Device.accept
  cases hw : d.workOf cmd k with
  | none => exact h
  | some w =>
    simp only
    split_ifs with h1 h2 h3
    · exact h
    · refine ⟨h.1, h.2.1, ?_⟩
      cases k <;> simp only [Device.workOf, reduceCtorEq, Option.some.injEq] at hw <;> subst hw <;> try trivial
      simp only [Device.holds, Device.holdsProgram, Bool.and_eq_true, decide_eq_true_eq] at h2
      exact h2.1.2
    · exact Device.disturb_wf _ _ h
    · exact h

theorem Device.collide_wf (c : Nat) (a : Answer) (k : BusOp) (cmd : Cmd) {d : Device} (h : d.wf) :
    (d.collide c a k cmd).wf := by
  unfold Device.collide
  split
  · exact h
  · split_ifs
    · exact Device.disturb_wf _ _ h
    · exact h

theorem Device.receive_wf (o : Opcodes) (c : Nat) (a : Answer) (any : List Byte) (cmd : Cmd) {d : Device}
    (h : d.wf) : (d.receive o c a any cmd).2.wf := by
  unfold Device.receive
  split
  · dsimp only
    split_ifs
    · exact Device.disturb_wf _ _ h
    · exact h
  · next k _ =>
    split_ifs
    · cases k <;> first | exact h | exact Device.collide_wf _ _ _ _ h
    · cases k <;> first | exact h | exact Device.accept_wf _ _ _ _ h

theorem Device.take_wf (o : Opcodes) (c : Nat) (a : Answer) (any : List Byte) (cmd : Cmd) {d : Device}
    (h : d.wf) : (d.take o c a any cmd).2.wf := by
  unfold Device.take
  split_ifs
  · exact Device.receive_wf _ _ _ _ _ h
  · exact Device.receive_wf _ _ _ _ _ h
  · exact h

theorem Device.exchange_wf (o : Opcodes) (c : Nat) (a : Answer) (cmd : Cmd) {d : Device} (h : d.wf) :
    (d.exchange o c a cmd).2.wf :=
  Device.complete_wf _ _ (Device.take_wf _ _ _ _ _ (Device.complete_wf _ _ h))

/-- The agents' array is canonical. -/
def Env.wf : Env → Prop
  | .oracle => True
  | .reference d => d.wf

theorem device?_wf_iff (s : State) : (∀ d, s.device? = some d → d.wf) ↔ s.env.wf := by
  unfold State.device? Env.wf
  cases s.env <;> simp

theorem Env.complete_wf (c : Nat) (x : Completion) {e : Env} (h : e.wf) : (e.complete c x).wf := by
  cases e with
  | oracle => trivial
  | reference d => exact Device.complete_wf _ _ h

theorem respond_wf (s : State) (a : Answer) (cmd : Cmd) (h : s.env.wf) : (respond s a cmd).2.wf := by
  unfold respond
  cases he : s.env with
  | oracle => trivial
  | reference d => rw [he] at h; exact Device.exchange_wf _ _ _ _ h

theorem micro_env_wf (k : BusOp) (s : State) (h : s.env.wf) : (micro k s).2.env.wf := by
  rw [micro_env]
  exact respond_wf _ _ _ h

theorem pollLoop_env_wf (fuel : Nat) (s : State) (h : s.env.wf) : (pollLoop fuel s).2.env.wf := by
  induction fuel generalizing s with
  | zero => exact h
  | succ fuel ih =>
    rw [pollLoop_succ]
    split
    · exact micro_env_wf _ _ h
    · exact ih _ (Env.complete_wf _ _ (micro_env_wf _ _ h))

theorem waitIdle_env_wf (s : State) (h : s.env.wf) : (waitIdle s).2.env.wf := pollLoop_env_wf _ _ h

theorem writeSeq_env_wf (c : BracketCmd) (s : State) (h : s.env.wf) : (writeSeq c s).2.env.wf :=
  writeSeq_state (P := fun s => s.env.wf) (fun _ _ h => h) micro_env_wf waitIdle_env_wf c s h

/-! ## Completing -/

/-- An idle device has no step of its own to take (R71). -/
theorem Device.complete_idle (c : Nat) (x : Completion) {d : Device} (h : d.busy = false) : d.complete c x = d := by
  simp [Device.complete, h]

/-- A device that does not complete stays as it is. -/
theorem Device.complete_not (c : Nat) {x : Completion} (d : Device) (h : x.now = false) : d.complete c x = d := by
  simp [Device.complete, h]

/-- Everything a completion can do. -/
theorem Device.complete_cases (c : Nat) (x : Completion) (d : Device) :
    d.complete c x = d ∨ (d.busy = true ∧ x.now = true ∧
      d.complete c x = { d with mem := d.settled c, wel := x.wel, busy := false, pending := none, touched := [] }) := by
  unfold Device.complete
  split_ifs with h
  · simp only [Bool.and_eq_true] at h
    exact .inr ⟨h.2, h.1, rfl⟩
  · exact .inl rfl

/-- A device that was touched by nothing unspecified applies its pending work alone (R71). -/
theorem Device.settled_of_untouched (c : Nat) {d : Device} {w : Work} (ht : d.touched = []) (hp : d.pending = some w) :
    d.settled c = w.apply c d.mem := by
  simp [Device.settled, ht, hp]

/-- A byte that was touched by nothing unspecified holds what the pending work alone leaves there (R71). -/
theorem Device.read_settled (c : Nat) {d : Device} {x : Nat} (h : Memory.wf d.mem = true) (hx : d.untouched x) :
    Memory.read (d.settled c) x = Memory.read (d.pending.elim d.mem (Work.apply c d.mem)) x := by
  suffices ∀ (rs : List (Nat × Nat)) (m : Memory), (∀ r ∈ rs, x < r.1 ∨ r.1 + r.2 ≤ x) → Memory.wf m = true →
      Memory.read (rs.foldl (d.anyIn c) m) x = Memory.read m x by
    unfold Device.settled
    cases d.pending with
    | none => exact this _ _ hx h
    | some w =>
      cases w with
      | program a data => exact this _ _ hx (Memory.wf_program c h _ _)
      | erase lo size => exact this _ _ hx (Memory.wf_eraseRange h _ _)
  intro rs
  induction rs with
  | nil => exact fun _ _ _ => rfl
  | cons r rs ih =>
    intro m hr hm
    refine (ih _ (fun r' h' => hr r' (List.mem_cons_of_mem _ h')) (Memory.wf_anyIn c hm _ _)).trans ?_
    have := hr r (List.mem_cons_self ..)
    exact Memory.read_anyIn_outside c hm _ _ _ (by omega)

@[simp] theorem Device.complete_size (c : Nat) (x : Completion) (d : Device) : (d.complete c x).size = d.size := by
  unfold Device.complete; split <;> rfl

@[simp] theorem Device.complete_page (c : Nat) (x : Completion) (d : Device) : (d.complete c x).page = d.page := by
  unfold Device.complete; split <;> rfl

@[simp] theorem Device.complete_id (c : Nat) (x : Completion) (d : Device) : (d.complete c x).id = d.id := by
  unfold Device.complete; split <;> rfl

/-! ## Receiving -/

/-- Everything an idle device does with a command that stays inside it: nothing, a move of the latch, or the start of
the command's work (R71 to R73). The array changes in none of them. -/
theorem Device.whenIdle_cases (c : Nat) (a : Answer) (any : List Byte) (cmd : Cmd) (d : Device) (k : BusOp)
    (hk : d.holds k cmd = true) :
    (d.whenIdle c a any cmd k).2 = d ∨
    (k = .writeEnable ∧ (d.whenIdle c a any cmd k).2 = { d with wel := true }) ∨
    (k = .writeDisable ∧ (d.whenIdle c a any cmd k).2 = { d with wel := false }) ∨
    (d.wel = true ∧ ∃ w, d.workOf cmd k = some w ∧ (d.whenIdle c a any cmd k).2 = d.start w) := by
  cases k with
  | readId | readStatus1 | read | fastRead => exact .inl rfl
  | writeEnable => exact .inr (.inl ⟨rfl, rfl⟩)
  | writeDisable => exact .inr (.inr (.inl ⟨rfl, rfl⟩))
  | pageProgram | sectorErase | blockErase32 | blockErase64 | chipErase =>
    cases hw : d.wel
    · exact .inl (by simp [Device.whenIdle, Device.accept, Device.workOf, hw])
    · exact .inr (.inr (.inr ⟨rfl, _, rfl, by simp [Device.whenIdle, Device.accept, Device.workOf, hw, hk]⟩))

/-- What a well-formed parameter set makes of a descriptor's opcode byte. -/
theorem busOpOf_descriptor {s : State} (h : s.cfg.wf = true) (k : BusOp) :
    busOpOf s.cfg.opcodes (descriptor s k).opc = some k := by
  rw [show (descriptor s k).opc = opcodeOf s.cfg.opcodes k by cases k <;> rfl]
  exact busOpOf_opcodeOf (Params.wf_distinct h) k

end Sys2Proof.Machine
end

