-- ==== Sys2Proof/Laws/PerInstr.lean ====
section
/-! SUPPORT. What is said of every instruction as syntax, one lemma for each constructor. Family `EncodingForm`: where an
instruction's words stand. A host request is a command word whose reserved bits are 0 and whose address field is the
instruction's (R81), a bus row is one opcode byte (R90), the two names without an encoding are the names themselves
(R96). -/

namespace Sys2Proof.Laws.EncodingForm

open Sys2Proof

/-- The form of an instruction's words, for all parameters. -/
def Statement (i : Instr) : Prop :=
  ∀ p : Params,
    match i with
    | .init a _ => ∃ w n buf, encode p i = .host w n buf ∧ cmdwRsv w = 0 ∧ cmdwAddr w = a
    | .read a _ => ∃ w n buf, encode p i = .host w n buf ∧ cmdwRsv w = 0 ∧ cmdwAddr w = a
    | .fastRead a _ => ∃ w n buf, encode p i = .host w n buf ∧ cmdwRsv w = 0 ∧ cmdwAddr w = a
    | .pageProgram a _ _ => ∃ w n buf, encode p i = .host w n buf ∧ cmdwRsv w = 0 ∧ cmdwAddr w = a
    | .sectorErase a _ => ∃ w n buf, encode p i = .host w n buf ∧ cmdwRsv w = 0 ∧ cmdwAddr w = a
    | .blockErase32 a _ => ∃ w n buf, encode p i = .host w n buf ∧ cmdwRsv w = 0 ∧ cmdwAddr w = a
    | .blockErase64 a _ => ∃ w n buf, encode p i = .host w n buf ∧ cmdwRsv w = 0 ∧ cmdwAddr w = a
    | .illegal w => encode p i = .host w 0 []
    | .waitIdle => encode p i = .pseudo .waitIdle
    | .writeSeq c => encode p i = .pseudo (.writeSeq c)
    | _ => ∃ b : Byte, encode p i = .micro b ∧ b ∈ p.opcodes.all

theorem init (a : Addr) (n : Nat) : Statement (.init a n) := fun _ => ⟨_, _, _, rfl, cmdwRsv_mkCmdw _ _, cmdwAddr_mkCmdw _ _⟩

theorem read (a : Addr) (n : Nat) : Statement (.read a n) := fun _ => ⟨_, _, _, rfl, cmdwRsv_mkCmdw _ _, cmdwAddr_mkCmdw _ _⟩

theorem fastRead (a : Addr) (n : Nat) : Statement (.fastRead a n) := fun _ => ⟨_, _, _, rfl, cmdwRsv_mkCmdw _ _, cmdwAddr_mkCmdw _ _⟩

theorem pageProgram (a : Addr) (n : Nat) (buf : List Byte) : Statement (.pageProgram a n buf) := fun _ => ⟨_, _, _, rfl, cmdwRsv_mkCmdw _ _, cmdwAddr_mkCmdw _ _⟩

theorem sectorErase (a : Addr) (n : Nat) : Statement (.sectorErase a n) := fun _ => ⟨_, _, _, rfl, cmdwRsv_mkCmdw _ _, cmdwAddr_mkCmdw _ _⟩

theorem blockErase32 (a : Addr) (n : Nat) : Statement (.blockErase32 a n) := fun _ => ⟨_, _, _, rfl, cmdwRsv_mkCmdw _ _, cmdwAddr_mkCmdw _ _⟩

theorem blockErase64 (a : Addr) (n : Nat) : Statement (.blockErase64 a n) := fun _ => ⟨_, _, _, rfl, cmdwRsv_mkCmdw _ _, cmdwAddr_mkCmdw _ _⟩

theorem illegal (w : Word) : Statement (.illegal w) := fun _ => rfl

theorem readId : Statement .readId := fun _ => ⟨_, rfl, by simp [opcodeOf, Opcodes.all]⟩

theorem readStatus1 : Statement .readStatus1 := fun _ => ⟨_, rfl, by simp [opcodeOf, Opcodes.all]⟩

theorem writeEnable : Statement .writeEnable := fun _ => ⟨_, rfl, by simp [opcodeOf, Opcodes.all]⟩

theorem writeDisable : Statement .writeDisable := fun _ => ⟨_, rfl, by simp [opcodeOf, Opcodes.all]⟩

theorem pageProgramCmd : Statement .pageProgramCmd := fun _ => ⟨_, rfl, by simp [opcodeOf, Opcodes.all]⟩

theorem sectorEraseCmd : Statement .sectorEraseCmd := fun _ => ⟨_, rfl, by simp [opcodeOf, Opcodes.all]⟩

theorem blockErase32Cmd : Statement .blockErase32Cmd := fun _ => ⟨_, rfl, by simp [opcodeOf, Opcodes.all]⟩

theorem blockErase64Cmd : Statement .blockErase64Cmd := fun _ => ⟨_, rfl, by simp [opcodeOf, Opcodes.all]⟩

theorem chipErase : Statement .chipErase := fun _ => ⟨_, rfl, by simp [opcodeOf, Opcodes.all]⟩

theorem readCmd : Statement .readCmd := fun _ => ⟨_, rfl, by simp [opcodeOf, Opcodes.all]⟩

theorem fastReadCmd : Statement .fastReadCmd := fun _ => ⟨_, rfl, by simp [opcodeOf, Opcodes.all]⟩

theorem waitIdle : Statement .waitIdle := fun _ => rfl

theorem writeSeq (c : BracketCmd) : Statement (.writeSeq c) := fun _ => rfl

end Sys2Proof.Laws.EncodingForm
end

