-- ==== Sys2Proof/Laws/Step.lean ====
section
/-! SUPPORT. What a step can do, said once: the next event of the operation in progress, a moment of the device, or a
request taken; how a request is accepted; and that acceptance refuses exactly what the whole operation refuses. -/

namespace Sys2Proof.Machine

/-! ## Acceptance as admission and body -/

theorem accept_init (a : Addr) (n : Nat) (s : State) :
    accept (.init a n) s = whenReadyForInit (.init a n) s fun s =>
      enter .init .probe { latch 0x0 a n s with mode := s.cfg.modeStrap } := rfl

theorem accept_waitIdle (s : State) :
    accept .waitIdle s = whenReady .waitIdle s fun s => .next (enter .wait .waitIdlePre { s with pollCnt := 0 }) := rfl

theorem accept_bracket {i : Instr} {c : BracketCmd} (hc : bracketOf i = some c) (hp : ∀ a n b, i ≠ .pageProgram a n b)
    (s : State) : accept i s = whenReady i s fun s => acceptBracket c (latched i s) := by
  cases i <;> simp only [bracketOf, reduceCtorEq, Option.some.injEq] at hc <;> subst hc <;>
    first | rfl | exact absurd rfl (hp _ _ _)

theorem accept_alone {i : Instr} {k : BusOp} (hk : aloneOf i = some k) (s : State) :
    accept i s = whenReady i s (acceptAlone k (aloneSeq k)) := by
  cases i <;> simp only [aloneOf, reduceCtorEq, Option.some.injEq] at hk <;> subst hk <;> rfl

theorem accept_readClass {i : Instr} {op : BitVec 4} {a : Addr} {n : Nat} {k : BusOp}
    (h : readOf i = some (op, a, n, k)) (s : State) :
    accept i s = whenReady i s fun s => withinDevice k (latch op a n s) (enter (.readClass k) .issueCommand) := by
  cases i <;> simp only [readOf, reduceCtorEq, Option.some.injEq, Prod.mk.injEq] at h <;>
    (obtain ⟨rfl, rfl, rfl, rfl⟩ := h; rfl)

theorem accept_pageProgram (a : Addr) (n : Nat) (buf : List Byte) (s : State) :
    accept (.pageProgram a n buf) s = whenReady (.pageProgram a n buf) s fun s =>
      if pageCheck (pageSize s.cfg s.geomIdx) a n then acceptBracket .pageProgram (loadTx buf (latch 0x3 a n s))
      else .next (finish .fail (loadTx buf (latch 0x3 a n s))) := by
  simp [accept]

/-! ## The ways a request is accepted -/

/-- How a request taken with the port ready is accepted, with the state before its first event. -/
inductive Accepted (i : Instr) (s t : State) : Prop
  /-- ILLEGAL (R92). -/
  | illegal (w : Word) (hi : i = .illegal w) (ht : t = { s with res := .fail })
  /-- INIT (R131). -/
  | init (a : Addr) (n : Nat) (hi : i = .init a n) (hp : s.cfg.wf = true) (hn : s.inited = false)
      (ht : t = enter .init .probe { latch 0x0 a n s with mode := s.cfg.modeStrap })
  /-- One bus command. -/
  | alone (k : BusOp) (hi : aloneOf i = some k) (hr : Ready s) (hd : reaches k s = true)
      (ht : t = enter (.alone k) (aloneSeq k) s)
  /-- WAIT_IDLE. -/
  | wait (hi : i = .waitIdle) (hr : Ready s) (ht : t = enter .wait .waitIdlePre { s with pollCnt := 0 })
  /-- READ, FAST_READ. -/
  | read (op : BitVec 4) (a : Addr) (n : Nat) (k : BusOp) (hi : readOf i = some (op, a, n, k)) (hr : Ready s)
      (hd : reaches k (latch op a n s) = true) (ht : t = enter (.readClass k) .issueCommand (latch op a n s))
  /-- PAGE_PROGRAM whose check failed (R163). -/
  | rejected (a : Addr) (n : Nat) (buf : List Byte) (hi : i = .pageProgram a n buf) (hr : Ready s)
      (hc : pageCheck (pageSize s.cfg s.geomIdx) a n = false) (ht : t = finish .fail (latched i s))
  /-- A bracket. -/
  | bracket (c : BracketCmd) (hi : bracketOf i = some c) (hr : Ready s)
      (hc : ∀ a n buf, i = .pageProgram a n buf → pageCheck (pageSize s.cfg s.geomIdx) a n = true)
      (hd : reaches c.busOp (latched i s) = true) (ht : t = enter (.writeClass c) .writeEnable (latched i s))

theorem accept_accepted {i : Instr} {s t : State} (hs : s.seq = .idle) (h : accept i s = .next t) :
    Accepted i s t := by
  cases i with
  | illegal w =>
    refine .illegal w rfl ?_
    change execIllegal w s = .next t at h
    rw [execIllegal, if_neg (not_not.mpr hs)] at h
    cases h
    rfl
  | init a n =>
    rw [accept_init] at h
    rcases whenReadyForInit_next h with h | h
    · exact absurd hs h.1
    · exact .init a n rfl h.2.1 h.2.2.1 h.2.2.2
  | pageProgram a n buf =>
    rw [accept_pageProgram] at h
    obtain ⟨hr, ht⟩ := whenReady_ran hs h
    split_ifs at ht with hc
    · obtain ⟨hd, ht⟩ := withinDevice_next ht
      refine .bracket _ rfl hr ?_ hd ht
      rintro a' n' buf' he
      cases he
      exact hc
    · exact .rejected a n buf rfl hr (by simpa using hc) (Host.Outcome.next.inj ht).symm
  | waitIdle =>
    obtain ⟨hr, ht⟩ := whenReady_ran hs (accept_waitIdle s ▸ h)
    exact .wait rfl hr (Host.Outcome.next.inj ht).symm
  | read | fastRead =>
    rw [accept_readClass rfl] at h
    obtain ⟨hr, ht⟩ := whenReady_ran hs h
    obtain ⟨hd, ht⟩ := withinDevice_next ht
    exact .read _ _ _ _ rfl hr hd ht
  | sectorErase | blockErase32 | blockErase64 | chipErase | writeSeq =>
    rw [accept_bracket rfl (by simp)] at h
    obtain ⟨hr, ht⟩ := whenReady_ran hs h
    obtain ⟨hd, ht⟩ := withinDevice_next ht
    exact .bracket _ rfl hr (by simp) hd ht
  | readId | readStatus1 | writeEnable | writeDisable | pageProgramCmd | sectorEraseCmd | blockErase32Cmd
  | blockErase64Cmd | readCmd | fastReadCmd =>
    rw [accept_alone rfl] at h
    obtain ⟨hr, ht⟩ := whenReady_ran hs h
    obtain ⟨hd, ht⟩ := withinDevice_next ht
    exact .alone _ rfl hr hd ht

/-- `SEQ` after acceptance (R39): the first state of the operation, or `IDLE` for a request that ends at once. -/
theorem accept_seq {i : Instr} {s t : State} (hs : s.seq = .idle) (h : accept i s = .next t) :
    (t.seq = firstSeq i ∧ t.seq ≠ .idle) ∨ (t.seq = .idle ∧ endsAtOnce i s) := by
  cases accept_accepted hs h with
  | illegal w hi ht => exact .inr ⟨by rw [ht]; exact hs, .inl ⟨w, hi⟩⟩
  | init a n hi _ _ ht => subst hi ht; exact .inl ⟨rfl, by simp⟩
  | alone k hi _ _ ht =>
    subst ht
    refine .inl ⟨?_, aloneSeq_ne_idle k⟩
    cases i <;> simp only [aloneOf, reduceCtorEq, Option.some.injEq] at hi <;> subst hi <;> rfl
  | wait hi _ ht => subst hi ht; exact .inl ⟨rfl, by simp⟩
  | read op a n k hi _ _ ht =>
    subst ht
    refine .inl ⟨?_, by simp⟩
    cases i <;> simp only [readOf, reduceCtorEq] at hi <;> rfl
  | rejected a n buf hi _ hc ht => exact .inr ⟨by rw [ht]; rfl, .inr ⟨a, n, buf, hi, hc⟩⟩
  | bracket c hi _ _ _ ht =>
    subst ht
    refine .inl ⟨?_, by simp⟩
    cases i <;> simp only [bracketOf, reduceCtorEq] at hi <;> rfl

/-! ## Acceptance and the whole operation -/

/-- Two outcomes of one kind: both next states, or the same stop. -/
def sameKind (x y : Host.Outcome State Fault Refusal) : Prop :=
  (∃ t u, x = .next t ∧ y = .next u) ∨ (∃ r, x = .refused r ∧ y = .refused r)

theorem sameKind_whenReady (i : Instr) (s : State) {k l : State → Host.Outcome State Fault Refusal}
    (h : sameKind (k s) (l s)) : sameKind (whenReady i s k) (whenReady i s l) := by
  unfold whenReady
  split_ifs
  · exact .inl ⟨_, _, rfl, rfl⟩
  · exact .inr ⟨_, rfl, rfl⟩
  · exact .inr ⟨_, rfl, rfl⟩
  · exact h

theorem sameKind_withinDevice (k : BusOp) (s : State) (f g : State → State) :
    sameKind (withinDevice k s f) (withinDevice k s g) := by
  unfold withinDevice
  split_ifs
  · exact .inl ⟨_, _, rfl, rfl⟩
  · exact .inr ⟨_, rfl, rfl⟩

/-- A request is refused when it is taken exactly where the operation as a whole is, for the same reason. -/
theorem accept_sameKind (i : Instr) (s : State) : sameKind (accept i s) (exec i s) := by
  cases i with
  | illegal w =>
    change sameKind (execIllegal w s) (execIllegal w s)
    unfold execIllegal
    split_ifs <;> exact .inl ⟨_, _, rfl, rfl⟩
  | init a n =>
    rw [exec_init, accept_init]
    unfold whenReadyForInit
    split_ifs <;> first | exact .inl ⟨_, _, rfl, rfl⟩ | exact .inr ⟨_, rfl, rfl⟩
  | pageProgram a n buf =>
    rw [exec_pageProgram, accept_pageProgram]
    refine sameKind_whenReady _ _ ?_
    rw [pageProgram_latched]
    split_ifs
    · exact sameKind_withinDevice _ _ _ _
    · exact .inl ⟨_, _, rfl, rfl⟩
  | waitIdle =>
    rw [exec_waitIdle, accept_waitIdle]
    exact sameKind_whenReady _ _ (.inl ⟨_, _, rfl, rfl⟩)
  | read | fastRead =>
    rw [exec_readClass rfl, accept_readClass rfl]
    exact sameKind_whenReady _ _ (sameKind_withinDevice _ _ _ _)
  | sectorErase | blockErase32 | blockErase64 | chipErase | writeSeq =>
    rw [exec_bracket rfl (by simp), accept_bracket rfl (by simp)]
    exact sameKind_whenReady _ _ (sameKind_withinDevice _ _ _ _)
  | readId | readStatus1 | writeEnable | writeDisable | pageProgramCmd | sectorEraseCmd | blockErase32Cmd
  | blockErase64Cmd | readCmd | fastReadCmd =>
    rw [exec_alone rfl, accept_alone rfl]
    exact sameKind_whenReady _ _ (sameKind_withinDevice _ _ _ _)

/-! ## Steps -/

theorem takeRequest_next {i : Instr} {s u : State} (h : takeRequest i s = .next u) :
    ∃ t, accept i s = .next t ∧ u = if t.seq = .idle then t else tick t := by
  unfold takeRequest at h
  split at h
  · next t ht => exact ⟨t, ht, (Host.Outcome.next.inj h).symm⟩
  · cases h
  · cases h

theorem fetch_some {s t : State} {x : Except Reject Instr} (h : fetch s = some (x, t)) :
    ∃ r rest, s.port = r :: rest ∧ x = decode s.cfg r ∧ t = { s with port := rest } := by
  unfold fetch at h
  split at h
  · cases h
  · next r rest hp => cases h; exact ⟨r, rest, hp, rfl, rfl⟩

/-- Everything a step can do. -/
theorem step_next {s t : State} (h : step s = .next t) :
    (s.seq ≠ .idle ∧ t = tick s) ∨ (s.seq = .idle ∧ s.port = [] ∧ t = deviceMoment s) ∨
    (∃ r rest i, s.seq = .idle ∧ s.port = r :: rest ∧ decode s.cfg r = .ok i ∧
      takeRequest i { s with port := rest } = .next t) := by
  unfold step at h
  split_ifs at h with hs
  · cases h; exact .inl ⟨hs, rfl⟩
  · simp only [not_not, ne_eq] at hs
    split at h
    · next hf =>
      cases h
      refine .inr (.inl ⟨hs, ?_, rfl⟩)
      unfold fetch at hf
      split at hf
      · assumption
      · cases hf
    · next i u heq =>
      obtain ⟨r, rest, hp, hd, rfl⟩ := fetch_some heq
      exact .inr (.inr ⟨r, rest, i, hs, hp, hd.symm, h⟩)
    · cases h

/-- A step with an operation in progress is its next event. -/
theorem step_of_busy {s : State} (h : s.seq ≠ .idle) : step s = .next (tick s) := by simp [step, h]

end Sys2Proof.Machine
end

