-- ==== Sys2Proof/Laws/Tick.lean ====
section
/-! SUPPORT. What one event of an operation in progress does to `SEQ`, to the result and to the events (R5, R39), and
what INIT does besides its events. -/

namespace Sys2Proof.Machine

/-! ## After a micro-operation -/

/-- `Ok` goes on, any other result ends the operation with it (R39, R205). -/
theorem onward_cases (x : Result × State) (k : State → State) :
    (x.1 = .ok ∧ onward x k = k x.2) ∨ (x.1 ≠ .ok ∧ onward x k = finish x.1 x.2) := by
  rcases x with ⟨r, s⟩
  cases r <;> simp [onward]

@[simp] theorem advance_seq (q : Seq) (s : State) : (advance q s).seq = q := by cases q <;> rfl

@[simp] theorem advance_events (q : Seq) (s : State) : (advance q s).events = s.events := by cases q <;> rfl

@[simp] theorem finish_seq_idle (r : Result) (s : State) : (finish r s).seq = .idle := rfl

theorem onward_events (x : Result × State) {k : State → State} (hk : ∀ s, (k s).events = s.events) :
    (onward x k).events = x.2.events := by
  rcases onward_cases x k with ⟨-, h⟩ | ⟨-, h⟩ <;> rw [h]
  · exact hk _
  · rfl

/-! ## One event of a wait -/

/-- The delay, or one status read and what follows it (R153). -/
theorem tickWait_cases (k : State → State) (s : State) :
    (s.phase = .delaying ∧ tickWait k s = { delayUs s.cfg.pollDelayUs s with phase := .start }) ∨
    (s.phase ≠ .delaying ∧ ∃ r, pollOutcome (poll s).1 (poll s).2 = .ended r ∧
      tickWait k s = onward (r, (poll s).2) k) ∨
    (s.phase ≠ .delaying ∧ pollOutcome (poll s).1 (poll s).2 = .again ∧
      tickWait k s = { (poll s).2 with phase := .delaying }) := by
  unfold tickWait
  split_ifs with h
  · exact .inl ⟨h, rfl⟩
  · cases ho : pollOutcome (poll s).1 (poll s).2 with
    | ended r => exact .inr (.inl ⟨h, r, rfl, by simp only [ho]⟩)
    | again => exact .inr (.inr ⟨h, rfl, by simp only [ho]⟩)

/-! ## INIT -/

theorem selectGeometry_eq (s : State) :
    selectGeometry s = { s with geomIdx := (selectGeometry s).geomIdx } := by
  unfold selectGeometry
  split <;> rfl

/-- The three ways INIT ends (R131, R136): the hook fails, the identity read fails, or both succeed. `e` is the state
in which the hook is called. -/
theorem initialise_cases (s : State) :
    let e := enter .init .probe { s with mode := s.cfg.modeStrap }
    ((transportInit e).1 = false ∧ initialise s = finish .fail (transportInit e).2) ∨
    ((transportInit e).1 = true ∧ (readId (transportInit e).2).1.ok = false ∧
      initialise s = finish .fail (readId (transportInit e).2).2) ∨
    ((transportInit e).1 = true ∧ (readId (transportInit e).2).1.ok = true ∧
      initialise s = concludeInit (selectGeometry
        { (readId (transportInit e).2).2 with idBuf := identOf (readId (transportInit e).2).1.rx })) := by
  unfold initialise
  simp only
  split_ifs with h1 h2
  · exact .inr (.inr ⟨h1, h2, rfl⟩)
  · exact .inr (.inl ⟨h1, by simpa using h2, rfl⟩)
  · exact .inl ⟨by simpa using h1, rfl⟩

end Sys2Proof.Machine
end

