-- ==== Sys2Proof/Laws/Wait.lean ====
section
/-! SUPPORT. Everything one bus command and one WAIT_IDLE can do: the frame, the events, and the ways each ends. -/

namespace Sys2Proof.Machine

/-! ## The frame of polls and commands -/

/-- `t` is `s` but for what polls and commands without returned bytes write. -/
def Polled (s t : State) : Prop :=
  t = { s with
        pollCnt := t.pollCnt, srLast := t.srLast, env := t.env, answers := t.answers, free := t.free,
        events := t.events }

theorem Polled.refl (s : State) : Polled s s := rfl

theorem Polled.trans {s t u : State} (h : Polled s t) (k : Polled t u) : Polled s u := by
  unfold Polled at *
  rw [k, h]

theorem poll_polled (s : State) : Polled s (poll s).2 := rfl

theorem delayUs_polled (n : Nat) (s : State) : Polled s (delayUs n s) := rfl

/-- The commands of a bracket besides the status read return no bytes (R91). -/
theorem command_rxLen (c : BracketCmd) (s : State) : (descriptor s c.busOp).rxLen = 0 := by cases c <;> rfl

theorem command_polled (c : BracketCmd) (s : State) : Polled s (micro c.busOp s).2 := by cases c <;> rfl

theorem latch_polled (k : BusOp) (hk : k = .writeEnable ∨ k = .writeDisable) (s : State) :
    Polled s (micro k s).2 := by
  rcases hk with rfl | rfl <;> rfl

/-- A command without returned bytes is one event, answered `Ok` or `Fail`, and that is its result (R110). -/
theorem micro_cases {k : BusOp} {s : State} (h : (descriptor s k).rxLen = 0) :
    ((micro k s).1 = .ok ∧ (micro k s).2.events = okEvent s s.seq k [] :: s.events) ∨
    ((micro k s).1 = .fail ∧
      (micro k s).2.events =
        ⟨s.seq, some (descriptor s k), frame s.cfg s.mode (descriptor s k), .fail⟩ :: s.events) := by
  have hn : (respond s (nextAnswer s) (descriptor s k)).1 = [] :=
    List.length_eq_zero_iff.mp ((respond_length _ _ _).trans h)
  rw [micro_events, micro_result, hn]
  cases (nextAnswer s).ok
  · exact .inr ⟨rfl, rfl⟩
  · exact .inl ⟨rfl, rfl⟩

/-! ## The events of a wait -/

theorem busyEvents_congr {s t : State} (hc : t.cfg = s.cfg) (hm : t.mode = s.mode) (q : Seq) (bs : List Byte) :
    busyEvents t q bs = busyEvents s q bs := by
  induction bs with
  | nil => rfl
  | cons b bs ih =>
    simp only [busyEvents, ih]
    simp [delayEvent, okEvent, hc, hm, descriptor]

theorem statusEvent_congr {s t : State} (hc : t.cfg = s.cfg) (hm : t.mode = s.mode) (q : Seq) (rx : List Byte) :
    okEvent t q .readStatus1 rx = okEvent s q .readStatus1 rx := by
  simp [okEvent, descriptor, hc, hm]

theorem failEvent_congr {s t : State} (hc : t.cfg = s.cfg) (hm : t.mode = s.mode) (q : Seq) :
    failEvent t q .readStatus1 = failEvent s q .readStatus1 := by
  simp [failEvent, descriptor, hc, hm]

@[simp] theorem busyEvents_length (s : State) (q : Seq) (bs : List Byte) :
    (busyEvents s q bs).length = 2 * bs.length := by
  induction bs with
  | nil => rfl
  | cons b bs ih => simp [busyEvents, ih]; omega

/-- The events of busy polls stand in the wait and none of them failed. -/
theorem mem_busyEvents {s : State} {q : Seq} {bs : List Byte} {e : Event} (h : e ∈ busyEvents s q bs) :
    e.seq = q ∧ e.reply ≠ .fail := by
  induction bs with
  | nil => simp [busyEvents] at h
  | cons b bs ih =>
    simp only [busyEvents, List.mem_append, List.mem_cons, List.not_mem_nil, or_false] at h
    rcases h with h | rfl | rfl
    · exact ih h
    · simp [delayEvent]
    · simp [okEvent]

/-- One status read: one event, `Ok` with the byte in `SR_LAST`, or `Fail` (R150). -/
theorem poll_cases (s : State) :
    ((poll s).1 = .ok ∧
      (poll s).2.events = okEvent s s.seq .readStatus1 [(poll s).2.srLast] :: s.events) ∨
    ((poll s).1 = .fail ∧
      (poll s).2.events =
        failEvent s s.seq .readStatus1 :: s.events) := by
  let u : State := { s with pollCnt := s.pollCnt + 1 }
  have hl : (respond u (nextAnswer u) (descriptor u .readStatus1)).1.length = 1 := respond_length _ _ _
  obtain ⟨b, hb⟩ := List.length_eq_one_iff.mp hl
  have he := micro_events .readStatus1 u
  have hs : (poll s).2.srLast = b := (readStatus1_srLast u).trans (by rw [hb]; rfl)
  have hr : (poll s).1 = if (nextAnswer u).ok then .ok else .fail := rfl
  rw [hb] at he
  rw [hs, hr, show (poll s).2.events = _ from he]
  cases (nextAnswer u).ok
  · exact .inr ⟨rfl, rfl⟩
  · exact .inl ⟨rfl, rfl⟩

/-- Everything the loop of WAIT_IDLE does with `f` reads left: busy polls, then a last read that shows idle, fails, or
is the last the bound allows (R153 to R155). -/
structure Waited (f : Nat) (s : State) (x : Result × State) : Prop where
  frame : Polled s x.2
  trace : ∃ (bs : List Byte) (e : Event), (∀ b ∈ bs, busyBit b = true) ∧ e.seq = s.seq ∧ bs.length < f ∧
    x.2.events = e :: busyEvents s s.seq bs ++ s.events ∧ x.2.pollCnt = s.pollCnt + bs.length + 1 ∧
    ((x.1 = .ok ∧ e = okEvent s s.seq .readStatus1 [x.2.srLast] ∧ busyBit x.2.srLast = false) ∨
     (x.1 = .fail ∧ e = failEvent s s.seq .readStatus1) ∨
     (x.1 = .timeout ∧ bs.length + 1 = f ∧ e = okEvent s s.seq .readStatus1 [x.2.srLast] ∧
       busyBit x.2.srLast = true))

theorem pollLoop_waited (f : Nat) (s : State) (h0 : 0 < f) (hc : s.pollCnt + f = Config.pollBound) :
    Waited f s (pollLoop f s) := by
  induction f generalizing s with
  | zero => omega
  | succ f ih =>
    rw [pollLoop_succ]
    have hp : (poll s).2.pollCnt = s.pollCnt + 1 := poll_pollCnt s
    rcases poll_cases s with ⟨h1, he⟩ | ⟨h1, he⟩
    · cases hb : busyBit (poll s).2.srLast with
      | false =>
        rw [show pollOutcome (poll s).1 (poll s).2 = .ended .ok by simp [pollOutcome, h1, hb]]
        exact ⟨poll_polled s, [], _, by simp, rfl, by simp, by simpa [busyEvents] using he, by simp,
          .inl ⟨rfl, rfl, hb⟩⟩
      | true =>
        rcases Nat.eq_zero_or_pos f with rfl | hf
        · have hb' : s.pollCnt + 1 = Config.pollBound := hc
          rw [show pollOutcome (poll s).1 (poll s).2 = .ended .timeout by simp [pollOutcome, h1, hb, hb']]
          exact ⟨poll_polled s, [], _, by simp, rfl, by simp, by simpa [busyEvents] using he, by simp,
            .inr (.inr ⟨rfl, rfl, rfl, hb⟩)⟩
        · have hne : ¬ s.pollCnt + 1 = Config.pollBound := by omega
          rw [show pollOutcome (poll s).1 (poll s).2 = .again by simp [pollOutcome, h1, hb, hne]]
          simp only
          generalize hv : delayUs (poll s).2.cfg.pollDelayUs (poll s).2 = v
          have hx : Exchanged s v := hv ▸ (poll_exchanged s).trans (delayUs_exchanged _ _)
          have hfr : Polled s v := hv ▸ (poll_polled s).trans (delayUs_polled _ _)
          have hvp : v.pollCnt = s.pollCnt + 1 := by rw [← hv]; exact hp
          have hve : v.events =
              delayEvent s s.seq :: okEvent s s.seq .readStatus1 [(poll s).2.srLast] :: s.events := by
            rw [← hv]
            simp [delayUs, emit, he, delayEvent, (poll_exchanged s).seq, (poll_exchanged s).cfg]
          obtain ⟨hfr', bs, e, hbs, hes, hl, hev, hpc, hcs⟩ := ih v hf (by omega)
          refine ⟨hfr.trans hfr', (poll s).2.srLast :: bs, e, by simpa [hb] using hbs, by rw [hes, hx.seq],
            by simpa using hl, ?_, by rw [hpc, hvp]; simp; omega, ?_⟩
          · simp [hev, busyEvents, hve, busyEvents_congr hx.cfg hx.mode, hx.seq]
          · rw [hx.seq, statusEvent_congr hx.cfg hx.mode, failEvent_congr hx.cfg hx.mode] at hcs
            simpa using hcs
    · rw [show pollOutcome (poll s).1 (poll s).2 = .ended .fail by simp [pollOutcome, h1]]
      exact ⟨poll_polled s, [], _, by simp, rfl, by simp, by simpa [busyEvents] using he, by simp,
        .inr (.inl ⟨rfl, rfl⟩)⟩

/-- Everything one WAIT_IDLE does. -/
theorem waitIdle_waited (s : State) : Waited Config.pollBound { s with pollCnt := 0 } (waitIdle s) :=
  pollLoop_waited _ _ (by decide) (by simp)

end Sys2Proof.Machine
end

