-- ==== Sys2Proof/Tests/Slice0.lean ====
section
/-! SUPPORT. The model's own tests: ill-formed terms refused, words written out from the spec's encodings, vectors of
95_test_vectors.md (the vector's id stands in each docstring), and a witness for every statement that has
hypotheses. Every expected value is the spec's. -/

namespace Sys2Proof.Tests

open Sys2Proof.Machine

/-! ## Small states and answers -/

/-- A good exchange that returns `rx`, during which the device completes nothing. -/
def good (rx : List Byte) : Answer :=
  { ok := true, rx := rx, before := ⟨false, false⟩, after := ⟨false, false⟩, took := false, welOpen := false,
    part := 0 }

/-- A good exchange before whose command the device completes its work. -/
def done : Answer := { good [0x00] with before := ⟨true, false⟩ }

/-- A good event at whose end the device completes its work. -/
def ends : Answer := { good [] with after := ⟨true, false⟩ }

/-- A failed exchange. -/
def bad : Answer := { good [] with ok := false }

/-- The block after INIT in the given mode, with the answers to come. -/
def up (m : Mode) (as : List Answer) : State :=
  { State.reset with mode := m, inited := true, geomIdx := 1, answers := as }

/-- The block after reset, with the answers to come. -/
def cold (as : List Answer) : State := { State.reset with answers := as }

/-- A reference device of 16 MiB that holds the given cells. -/
def chip (mem : Memory) : Device :=
  { size := 16777216, page := 256, id := ⟨0x11, 0x22, 0x33⟩, mem := mem, wel := false, busy := false, pending := none,
    touched := [] }

/-- The block after INIT, with the reference device behind it. -/
def wired (mem : Memory) (as : List Answer) : State := { up .spi as with env := .reference (chip mem) }

/-- The state a next step leads to; reset where there is none. -/
def after (o : Host.Outcome State Fault Refusal) : State :=
  match o with
  | .next s => s
  | .fault _ => State.reset
  | .refused _ => State.reset

/-- The calls of a run from a state without events, in order, and the result. -/
def run (o : Host.Outcome State Fault Refusal) : List Call × Result :=
  ((after o).events.reverse.map Event.call, (after o).res)

/-! ## Ill-formed parameters and instructions are refused -/

theorem test_default_wf : Params.default.wf = true := by decide
theorem test_empty_table_ill : { Params.default with geomTable := [] }.wf = false := by decide
theorem test_page_size_ill :
    { Params.default with geomTable := [⟨"A", ⟨1, 2, 3⟩, 65536, 65536, 4096, 384⟩] }.wf = false := by decide
theorem test_page_size_zero_ill :
    { Params.default with geomTable := [⟨"A", ⟨1, 2, 3⟩, 65536, 65536, 4096, 0⟩] }.wf = false := by decide
theorem test_page_size_too_big_ill :
    { Params.default with geomTable := [⟨"A", ⟨1, 2, 3⟩, 65536, 65536, 4096, 33554432⟩] }.wf = false := by decide
theorem test_same_identity_ill :
    { Params.default with
      geomTable := [⟨"A", ⟨1, 2, 3⟩, 65536, 65536, 4096, 256⟩, ⟨"B", ⟨1, 2, 3⟩, 65536, 65536, 4096, 512⟩] }.wf
      = false := by decide
theorem test_same_opcode_ill :
    { Params.default with opcodes := { Opcodes.default with fread := 0x03 } }.wf = false := by decide
theorem test_rdid_opcode_ill :
    { Params.default with opcodes := { Opcodes.default with ce := 0x9F } }.wf = false := by decide
theorem test_delay_low_ill : { Params.default with pollDelayUs := 9 }.wf = false := by decide
theorem test_delay_high_ill : { Params.default with pollDelayUs := 100 }.wf = false := by decide
theorem test_len_bits_ill : { Params.default with lenBits := 24 }.wf = false := by decide
theorem test_length_ill : (Instr.read 0 4294967296).wf Params.default = false := by decide
theorem test_buffer_ill : (Instr.pageProgram 0 2 [0xAA]).wf Params.default = false := by decide
theorem test_illegal_ill : (Instr.illegal 0x10001000).wf Params.default = false := by decide

/-! ## Decoding: words written out from R81, R82 and R90 -/

/-- VH12. -/
theorem test_decode_init : decodeTableWord 64 0x0000000700ABCDEF = some (.init 0xABCDEF 7) := by decide
/-- VH2. -/
theorem test_decode_read : decodeTableWord 64 0x0000010010001000 = some (.read 0x001000 256) := by decide
/-- VH8. -/
theorem test_decode_read_last : decodeTableWord 64 0x0000000110FFFFFF = some (.read 0xFFFFFF 1) := by decide
/-- VH3. -/
theorem test_decode_fast_read : decodeTableWord 64 0x0000000220000010 = some (.fastRead 0x000010 2) := by decide
/-- VB5's request, R81. -/
theorem test_decode_page_program :
    decode Params.default (.host 0x30001000 2 [0xAA, 0xBB]) = .ok (.pageProgram 0x001000 2 [0xAA, 0xBB]) := by decide
/-- VH5. -/
theorem test_decode_sector_erase : decodeTableWord 32 0x40001000 = some (.sectorErase 0x001000 0) := by decide
/-- VH6. -/
theorem test_decode_block_erase_32 : decodeTableWord 32 0x5000A000 = some (.blockErase32 0x00A000 0) := by decide
/-- VH7. -/
theorem test_decode_block_erase_64 : decodeTableWord 32 0x6001A000 = some (.blockErase64 0x01A000 0) := by decide
/-- VH9. -/
theorem test_decode_illegal_7 : decodeTableWord 32 0x70000000 = some (.illegal 0x70000000) := by decide
/-- VH10. -/
theorem test_decode_illegal_f : decodeTableWord 32 0xF0001000 = some (.illegal 0xF0001000) := by decide
/-- VH11. -/
theorem test_decode_reserved : decodeTableWord 32 0x11001000 = some (.illegal 0x11001000) := by decide
theorem test_decode_read_id : decodeTableWord 8 0x9F = some .readId := by decide
theorem test_decode_read_status1 : decodeTableWord 8 0x05 = some .readStatus1 := by decide
theorem test_decode_write_enable : decodeTableWord 8 0x06 = some .writeEnable := by decide
theorem test_decode_write_disable : decodeTableWord 8 0x04 = some .writeDisable := by decide
theorem test_decode_page_program_cmd : decodeTableWord 8 0x02 = some .pageProgramCmd := by decide
theorem test_decode_sector_erase_cmd : decodeTableWord 8 0x20 = some .sectorEraseCmd := by decide
theorem test_decode_block_erase_32_cmd : decodeTableWord 8 0x52 = some .blockErase32Cmd := by decide
theorem test_decode_block_erase_64_cmd : decodeTableWord 8 0xD8 = some .blockErase64Cmd := by decide
theorem test_decode_chip_erase : decodeTableWord 8 0xC7 = some .chipErase := by decide
theorem test_decode_read_cmd : decodeTableWord 8 0x03 = some .readCmd := by decide
theorem test_decode_fast_read_cmd : decodeTableWord 8 0x0B = some .fastReadCmd := by decide
/-- R96: the two names without an encoding. -/
theorem test_decode_wait_idle : decode Params.default (.pseudo .waitIdle) = .ok .waitIdle := by decide
theorem test_decode_write_seq :
    decode Params.default (.pseudo (.writeSeq .chipErase)) = .ok (.writeSeq .chipErase) := by decide
/-- A byte that is none of the eleven flash opcodes is rejected by name (R93). -/
theorem test_decode_unknown :
    decode Params.default (.micro 0x00) = .error (.unknownBusOpcode 0x00) := by decide

/-! ## Transport (VT) -/

/-- VT1. -/
theorem test_frame_read_id : frame Params.default .spi ⟨0x9F, none, [], 3⟩ = .spiTransfer [0x9F] 3 := by decide
/-- VT3, QSPI. -/
theorem test_frame_wren_qspi : frame Params.default .qspi ⟨0x06, none, [], 0⟩ = .qspiTransfer 0x06 none [] 0 := by
  decide
/-- VT5. -/
theorem test_frame_program :
    frame Params.default .spi ⟨0x02, some 0x001000, [0xAA, 0xBB], 0⟩
      = .spiSend [0x02, 0x00, 0x10, 0x00, 0xAA, 0xBB] := by decide
/-- VT6, R87. -/
theorem test_frame_address :
    frame Params.default .spi ⟨0x02, some 0x123456, [], 0⟩ = .spiSend [0x02, 0x12, 0x34, 0x56] := by decide
/-- VT12 with one dummy byte. -/
theorem test_frame_dummy :
    frame { Params.default with frDummyBytes := 1 } .spi ⟨0x0B, some 0x000010, [], 2⟩
      = .spiTransfer [0x0B, 0x00, 0x00, 0x10, 0x00] 2 := by decide
/-- VT12, QSPI: no dummy byte. -/
theorem test_frame_dummy_qspi :
    frame { Params.default with frDummyBytes := 1 } .qspi ⟨0x0B, some 0x000010, [], 2⟩
      = .qspiTransfer 0x0B (some 0x000010) [] 2 := by decide
/-- VT13: address 0 is an address. -/
theorem test_frame_read_nothing :
    frame Params.default .spi ⟨0x03, some 0x000000, [], 0⟩ = .spiSend [0x03, 0x00, 0x00, 0x00] := by decide

/-! ## INIT (VI) and ILLEGAL (VH9 to VH11) -/

/-- VI2. -/
theorem test_init_match :
    (after (exec (.init 0 0) (cold [good [], good [0x11, 0x22, 0x33], good []]))).geomIdx = 1 ∧
    (after (exec (.init 0 0) (cold [good [], good [0x11, 0x22, 0x33], good []]))).inited = true ∧
    (run (exec (.init 0 0) (cold [good [], good [0x11, 0x22, 0x33], good []]))).2 = .ok := by decide
/-- VI6: no log. -/
theorem test_init_fail :
    run (exec (.init 0 0) (cold [good [], bad])) = ([.transportInit, .spiTransfer [0x9F] 3], .fail) ∧
    (after (exec (.init 0 0) (cold [good [], bad]))).inited = false := by decide
/-- VH11: no event, `Fail`, though INIT has not run. -/
theorem test_illegal : run (step { cold [] with port := [.host 0x11001000 256 []] }) = ([], .fail) := by decide

/-! ## Reads (VR) -/

/-- VR1. -/
theorem test_read :
    run (exec (.read 0x001000 4) (up .spi [good [0x11, 0x11, 0x11, 0x11]]))
      = ([.spiTransfer [0x03, 0x00, 0x10, 0x00] 4], .ok) := by decide
/-- VR3. -/
theorem test_read_crosses_page :
    (after (exec (.read 0x0010FE 4) (wired [(0x10FE, 1), (0x10FF, 2), (0x1100, 3), (0x1101, 4)] [good []]))).rxBuf
      = [1, 2, 3, 4] := by decide
/-- VR4. -/
theorem test_fast_read :
    run (exec (.fastRead 0x000010 2) (up .spi [good [0xAA, 0xBB]]))
      = ([.spiTransfer [0x0B, 0x00, 0x00, 0x10] 2], .ok) := by decide

/-! ## Write-class operations (VB, VA, VK) -/

/-- VB1. -/
theorem test_sector_erase :
    run (exec (.sectorErase 0x001000 0)
        (up .spi [good [], good [0x00], good [], good [0x01], good [], good [0x00], good []]))
      = ([.spiSend [0x06], .spiTransfer [0x05] 1, .spiSend [0x20, 0x00, 0x10, 0x00], .spiTransfer [0x05] 1,
          .delayUs 50, .spiTransfer [0x05] 1, .spiSend [0x04]], .ok) := by decide
/-- VB2. -/
theorem test_sector_erase_qspi :
    run (exec (.sectorErase 0x001000 0) (up .qspi [good [], good [0x00], good [], good [0x00], good []]))
      = ([.qspiTransfer 0x06 none [] 0, .qspiTransfer 0x05 none [] 1, .qspiTransfer 0x20 (some 0x001000) [] 0,
          .qspiTransfer 0x05 none [] 1, .qspiTransfer 0x04 none [] 0], .ok) := by decide
/-- VA4: no write-disable after the failed command. -/
theorem test_block_erase_32_aborts :
    run (exec (.blockErase32 0x00A000 0) (up .spi [good [], good [0x00], bad]))
      = ([.spiSend [0x06], .spiTransfer [0x05] 1, .spiSend [0x52, 0x00, 0xA0, 0x00]], .fail) := by decide
/-- VB4 in the reference device: the last byte of the block is erased, the next one is not. -/
theorem test_block_erase_64 :
    (match (after (exec (.blockErase64 0x01A000 0)
        (wired [(0x01FFFF, 0), (0x020000, 0)] [good [], good [0x00], good [], done, good []]))).env with
      | .reference d => some (d.mem, d.wel, d.busy)
      | .oracle => none) = some ([(0x020000, 0)], false, false) := by decide
/-- VB5. -/
theorem test_page_program :
    run (exec (.pageProgram 0x001000 2 [0xAA, 0xBB]) (up .spi [good [], good [0x02], good [], good [0x00], good []]))
      = ([.spiSend [0x06], .spiTransfer [0x05] 1, .spiSend [0x02, 0x00, 0x10, 0x00, 0xAA, 0xBB],
          .spiTransfer [0x05] 1, .spiSend [0x04]], .ok) := by decide
/-- VK11: no wrap. -/
theorem test_page_check_no_wrap : pageCheck 256 0x000001 0xFFFFFFFF = false := by decide
/-- VK4 and VK5. -/
theorem test_page_check_edge : pageCheck 256 0x0010FF 1 = true ∧ pageCheck 256 0x0010FF 2 = false := by decide
/-- VK12 to VK15. -/
theorem test_page_check_512 :
    pageCheck 512 0x001012 256 = true ∧ pageCheck 512 0x001100 256 = true ∧ pageCheck 512 0x001100 300 = false ∧
      pageCheck 512 0x0011FF 2 = false := by decide
/-- VB4: the frame of CHIP_ERASE. -/
theorem test_chip_erase :
    run (exec .chipErase (up .spi [good [], good [0x00], bad]))
      = ([.spiSend [0x06], .spiTransfer [0x05] 1, .spiSend [0xC7]], .fail) := by decide
/-- R160 through the pseudo row: VA1. -/
theorem test_write_seq : run (exec (.writeSeq .sectorErase) (up .spi [bad])) = ([.spiSend [0x06]], .fail) := by decide

/-! ## Single commands and WAIT_IDLE (VT, VW) -/

/-- Section 6: READ_STATUS1 leaves the byte in `SR_LAST`. -/
theorem test_read_status1 : (after (exec .readStatus1 (up .spi [good [0x5A]]))).srLast = 0x5A := by decide
theorem test_write_enable : run (exec .writeEnable (up .spi [good []])) = ([.spiSend [0x06]], .ok) := by decide
theorem test_write_disable : run (exec .writeDisable (up .spi [bad])) = ([.spiSend [0x04]], .fail) := by decide
theorem test_read_id :
    run (exec .readId (up .spi [good [0x11, 0x22, 0x33]])) = ([.spiTransfer [0x9F] 3], .ok) := by decide
/-- VT8: the address comes from the operand register. -/
theorem test_block_erase_32_cmd :
    run (exec .blockErase32Cmd { up .spi [good []] with reqAddr := 0x00A000 })
      = ([.spiSend [0x52, 0x00, 0xA0, 0x00]], .ok) := by decide
/-- VT11. -/
theorem test_read_cmd :
    run (exec .readCmd { up .spi [good [0x77]] with reqAddr := 0xFFFFFF, reqLen := 1 })
      = ([.spiTransfer [0x03, 0xFF, 0xFF, 0xFF] 1], .ok) := by decide
/-- VW10. -/
theorem test_wait_idle :
    run (exec .waitIdle (up .spi [good [0x03], good [], good [0x03], good [], good [0x02]]))
      = ([.spiTransfer [0x05] 1, .delayUs 50, .spiTransfer [0x05] 1, .delayUs 50, .spiTransfer [0x05] 1], .ok) := by
  decide
/-- VW6. -/
theorem test_wait_idle_fails :
    run (exec .waitIdle (up .spi [good [0x01], good [], bad]))
      = ([.spiTransfer [0x05] 1, .delayUs 50, .spiTransfer [0x05] 1], .fail) := by decide

/-- A program in the reference device puts its bytes where the array was erased and nowhere else (R71). -/
theorem test_program_in_device :
    (match (after (exec (.pageProgram 0x001000 2 [0xAA, 0xBB])
        (wired [] [good [], good [0x00], good [], done, good []]))).env with
      | .reference d => some (d.mem, d.wel, d.busy)
      | .oracle => none) = some ([(0x001000, 0xAA), (0x001001, 0xBB)], false, false) := by decide

/-- R63, R178: a read that runs past the end of the device is refused, one that ends at it is not. -/
theorem test_read_past_end :
    exec (.read 0xFFFFFF 2) (wired [] []) = .refused .outsideDevice ∧
    (after (exec (.read 0xFFFFFF 1) (wired [(0xFFFFFF, 0x11)] [good []]))).rxBuf = [0x11] := ⟨rfl, by decide⟩

/-- R156: a device that completes during the delay is idle in the state after it. -/
theorem test_delay_completes :
    (match (delayUs 50 { up .spi [ends] with
        env := .reference ((chip [(0x000010, 0x00)]).start (.erase 0 4096)) }).env with
      | .reference d => some (d.mem, d.busy, d.pending)
      | .oracle => none) = some ([], false, none) := by decide

/-- R5: the first step of a sector erase is its write-enable, the second the first status read. -/
theorem test_steps_are_events :
    (match Host.Core.run Sys2Proof.core 1 { up .spi [good []] with port := [.host 0x40001000 0 []] } with
      | .next s => some (s.seq, s.events.map Event.call)
      | _ => none) = some (.waitIdlePre, [.spiSend [0x06]]) ∧
    (match Host.Core.run Sys2Proof.core 2 { up .spi [good [], good [0x00]] with port := [.host 0x40001000 0 []] } with
      | .next s => some (s.seq, s.events.map Event.call)
      | _ => none) = some (.issueCommand, [.spiTransfer [0x05] 1, .spiSend [0x06]]) := by decide

/-- A command to a device without the latch changes nothing (R71). -/
theorem test_erase_cmd_without_latch :
    (match (after (exec .sectorEraseCmd { wired [(0x000010, 0x00)] [good []] with reqAddr := 0x000010 })).env with
      | .reference d => some (d.mem, d.busy, d.pending)
      | .oracle => none) = some ([(0x000010, 0x00)], false, none) := by decide

/-! ## Table words run as the first instruction after reset -/

/-- Whether a step has a next state. -/
def goesOn (o : Host.Outcome State Fault Refusal) : Bool :=
  match o with
  | .next _ => true
  | .fault _ => false
  | .refused _ => false

/-- A step that has a next state, with it. -/
theorem next_of {o : Host.Outcome State Fault Refusal} (h : goesOn o = true) : o = .next (after o) := by
  cases o <;> first | rfl | cases h

theorem test_host_words_run :
    [0x00000000, 0x10001000, 0x20000010, 0x30001000, 0x40001000, 0x5000A000, 0x6001A000, 0x70000000].all
      (fun w => goesOn (step (State.reset.withFetchWord 32 w))) = true := by decide

theorem test_bus_words_run :
    [0x9F, 0x05, 0x06, 0x04, 0x02, 0x20, 0x52, 0xD8, 0xC7, 0x03, 0x0B].all
      (fun w => goesOn (step (State.reset.withFetchWord 8 w))) = true := by decide

/-! ## Facts about the small states -/

theorem default_wf : Params.default.wf = true := by decide

theorem up_ready (m : Mode) (as : List Answer) : Ready (up m as) := ⟨rfl, default_wf, rfl⟩

theorem wired_ready (mem : Memory) (as : List Answer) : Ready (wired mem as) := ⟨rfl, default_wf, rfl⟩

theorem cold_ready (as : List Answer) : ReadyForInit (cold as) := ⟨rfl, default_wf, rfl⟩

theorem chip_quiet (mem : Memory) : (chip mem).quiet := ⟨rfl, rfl, rfl⟩

theorem chip_wf_empty : (chip []).wf := ⟨rfl, by simp [chip], trivial⟩

/-- The block in the middle of a sector erase, with the reference device behind it. -/
def midErase (q : Seq) (p : Phase) : State :=
  { wired [] [] with seq := q, job := .writeClass .sectorErase, phase := p }

/-- The invariant on a state after INIT without a device whose array is not canonical. -/
theorem up_inv (m : Mode) (as : List Answer) : MachineInv (up m as) where
  params := default_wf
  geomIdx := (by decide : 1 < Params.default.geomTable.length)
  fallback := by simp [up]
  pollCnt := Nat.zero_le _
  polling := by rintro (h | h) <;> simp [up, State.reset, State.resetWith] at h
  reqLen := (by decide : 0 < 2 ^ Params.default.lenBits)
  place := ⟨rfl, rfl⟩
  device := by simp [up, State.reset, State.resetWith, State.device?]

theorem wired_inv (as : List Answer) (r : List Request) : MachineInv { wired [] as with port := r } where
  params := default_wf
  geomIdx := (by decide : 1 < Params.default.geomTable.length)
  fallback := by simp [wired, up]
  pollCnt := Nat.zero_le _
  polling := by rintro (h | h) <;> simp [wired, up, State.reset, State.resetWith] at h
  reqLen := (by decide : 0 < 2 ^ Params.default.lenBits)
  place := ⟨rfl, rfl⟩
  device := by
    intro d hd
    cases hd
    exact chip_wf_empty

/-- The answers of busy status reads and of the delays after them. -/
def busyOnes (bs : List Byte) : List Answer := bs.flatMap fun b => [good [b], good []]

theorem busyAnswers_busyOnes (bs : List Byte) : busyAnswers bs (busyOnes bs) := by
  induction bs with
  | nil => trivial
  | cons b bs ih => exact ⟨⟨rfl, rfl⟩, ih⟩

theorem all_busy (n : Nat) : ∀ x ∈ List.replicate n (0x01 : Byte), busyBit x = true := by
  intro x hx
  rw [List.eq_of_mem_replicate hx]
  decide

/-! ## Witnesses: for every statement with hypotheses, states and operands that meet them -/

theorem witness_ResetKeepsDevice : ∃ s : State, MachineInv s ∧ s.env = .reference (chip []) :=
  ⟨{ wired [] [] with port := [] }, wired_inv [] [], rfl⟩

theorem witness_InvariantHoldsAtReset :
    ∃ (p : Params) (e : Env), p.wf = true ∧ (∀ d, e = .reference d → d.wf) ∧ e = .reference (chip []) :=
  ⟨Params.default, .reference (chip []), default_wf, by rintro d ⟨⟩; exact chip_wf_empty, rfl⟩

/-- The first event of an operation, a moment of the device, and a whole operation. -/
theorem witness_StepKeepsInvariant :
    (∃ s t : State, MachineInv s ∧ step s = .next t ∧ s.port ≠ []) ∧
    (∃ s t : State, MachineInv s ∧ step s = .next t ∧ s.port = []) ∧
    (∃ s t : State, MachineInv s ∧ (Instr.sectorErase 0x001000 0).wf s.cfg = true ∧
      exec (.sectorErase 0x001000 0) s = .next t) :=
  ⟨⟨{ wired [] [] with port := [.host 0x40001000 0 []] }, _, wired_inv [] _, next_of (by decide), by decide⟩,
   ⟨up .spi [], _, up_inv .spi [], rfl, rfl⟩,
   ⟨{ wired [] [] with port := [] }, _, wired_inv [] _, by decide, next_of (by decide)⟩⟩

theorem witness_DecodeInvertsEncode :
    Params.default.wf = true ∧ (Instr.init 0xFFFFFF 0xFFFFFFFF).wf Params.default = true ∧
      (Instr.pageProgram 0 1 [0xAA]).wf Params.default = true ∧ (Instr.illegal 0x01000000).wf Params.default = true ∧
      (Instr.writeSeq .chipErase).wf Params.default = true := by decide

theorem witness_EncodeInvertsDecode :
    illegalWord 0x00000000 = false ∧ illegalWord 0x60FFFFFF = false ∧
      decode Params.default (.micro 0x9F) = .ok .readId := by decide

theorem witness_StepRunsDecodedRequest :
    (∃ (s : State) (r : Request) (rest : List Request) (i : Instr), s.seq = .idle ∧ s.port = r :: rest ∧
      decode s.cfg r = .ok i) ∧
    (∃ (s : State) (r : Request) (rest : List Request) (b : Byte), s.seq = .idle ∧ s.port = r :: rest ∧
      decode s.cfg r = .error (.unknownBusOpcode b)) ∧
    (∃ s : State, s.seq = .idle ∧ s.port = []) ∧ ∃ s : State, s.seq ≠ .idle :=
  ⟨⟨{ up .spi [] with port := [.host 0x00000000 0 []] }, _, _, .init 0 0, rfl, rfl, by decide⟩,
   ⟨{ up .spi [] with port := [.micro 0x00] }, _, _, 0x00, rfl, rfl, by decide⟩,
   ⟨up .spi [], rfl, rfl⟩, ⟨midErase .writeEnable .start, by decide⟩⟩

theorem witness_RequestWaitsWhileBusy :
    ∃ s t : State, s.seq ≠ .idle ∧ step s = .next t ∧ s.port ≠ [] :=
  ⟨{ midErase .waitIdlePost .delaying with port := [.host 0x10001000 4 []] }, _, by decide, rfl, by decide⟩

/-- The two ends of the illegal codes, and one reserved bit with a legal code. -/
theorem witness_IllegalRequestFails :
    7 ≤ ((0x70000000 : Word) >>> 28).toNat ∧ 7 ≤ ((0xF0001000 : Word) >>> 28).toNat ∧
      ((0x01000000 : Word) >>> 24) &&& 0xF ≠ 0 ∧ (cold []).seq = .idle := by decide

/-- The illegal words of `witness_IllegalRequestFails`, and the first and the last legal code but INIT. -/
theorem witness_UninitialisedRequestRefused :
    ReadyForInit (cold []) ∧ 7 ≤ ((0x70000000 : Word) >>> 28).toNat ∧ ((0x01000000 : Word) >>> 24) &&& 0xF ≠ 0 ∧
      ((0x10001000 : Word) >>> 28).toNat = 1 ∧ ((0x10001000 : Word) >>> 24) &&& 0xF = 0 ∧
      ((0x60FFFFFF : Word) >>> 28).toNat = 6 ∧ ((0x60FFFFFF : Word) >>> 24) &&& 0xF = 0 :=
  ⟨cold_ready [], by decide, by decide, by decide, by decide, by decide, by decide⟩

theorem witness_MicroOperationsNeedInit :
    ReadyForInit (cold []) ∧ (aloneOf .readId).isSome = true ∧ (aloneOf .fastReadCmd).isSome = true :=
  ⟨cold_ready [], rfl, rfl⟩

theorem witness_SecondInitRefused : Ready (up .spi []) := up_ready .spi []

theorem witness_IllFormedParametersRefused :
    ∃ (i : Instr) (s : State), s.seq = .idle ∧ s.cfg.wf = false ∧ ∀ w, i ≠ .illegal w :=
  ⟨.init 0 0, { cold [] with cfg := { Params.default with geomTable := [] } }, rfl, by decide, by simp⟩

/-- Each clause at its boundary: one byte past the end, the first address that does not exist (of a device smaller
than the address space), a program that leaves a device page smaller than the table's; and single commands. -/
theorem witness_OutsideDeviceRefused :
    ∃ (s : State) (d : Device), Ready s ∧ s.env = .reference d ∧
      d.size < (0x0FFFFF : Addr).toNat + 2 ∧ d.size ≤ (0x100000 : Addr).toNat ∧
      s.geomIdx < s.cfg.geomTable.length ∧ contained (.pageProgram 0x001000 129 []) s ∧
      d.page < (0x001000 : Addr).toNat % d.page + 129 ∧
      aloneOf .sectorEraseCmd = some .sectorErase ∧ d.holds .sectorErase (descriptor s .sectorErase) = false ∧
      d.holds BracketCmd.blockErase64.busOp (descriptor s BracketCmd.blockErase64.busOp) = false :=
  ⟨{ up .spi [] with env := .reference { chip [] with size := 1048576, page := 128 }, reqAddr := 0x100000 },
   { chip [] with size := 1048576, page := 128 }, ⟨rfl, default_wf, rfl⟩, rfl, by decide, by decide, by decide,
   by unfold contained; decide, by decide, rfl, by decide, by decide⟩

/-- A command without an address, one with, one with filler bytes. -/
theorem witness_SpiExchangeIsOneFrame :
    (up .spi []).mode = .spi ∧ (descriptor (up .spi []) .writeEnable).addr = none ∧
      (descriptor (up .spi []) .fastRead).addr = some 0 ∧
      (descriptor (up .spi []) .fastRead).opc = (up .spi []).cfg.opcodes.fread := by decide

theorem witness_QspiExchangeIsOneCall : (up .qspi []).mode = .qspi := rfl

/-- The first entry with the oracle, the second with the device, the last entry, and no entry. -/
theorem witness_InitSelectsGeometry :
    (∃ (s : State) (a0 a1 a2 : Answer) (rest : List Answer), ReadyForInit s ∧ s.answers = a0 :: a1 :: a2 :: rest ∧
      a0.ok = true ∧ a1.ok = true ∧ s.env = .oracle ∧ a1.rx = [0x01, 0x02, 0x03]) ∧
    (∃ (s : State) (a0 a1 a2 : Answer) (rest : List Answer) (d : Device), ReadyForInit s ∧
      s.answers = a0 :: a1 :: a2 :: rest ∧ a0.ok = true ∧ a1.ok = true ∧ s.env = .reference d ∧ d.busy = false ∧
      d.id = ⟨0x11, 0x22, 0x33⟩) ∧
    Params.default.geomTable[0]?.map Geometry.ident = some ⟨0x01, 0x02, 0x03⟩ ∧
    Params.default.geomTable[1]?.map Geometry.ident = some ⟨0x11, 0x22, 0x33⟩ ∧
    Params.default.geomTable[2]?.map Geometry.ident = some ⟨0x11, 0x22, 0x34⟩ ∧
    ∀ e ∈ Params.default.geomTable, e.ident ≠ ⟨0x11, 0x22, 0x35⟩ :=
  ⟨⟨cold [good [], good [0x01, 0x02, 0x03], good []], _, _, _, _, cold_ready _, rfl, rfl, rfl, rfl, rfl⟩,
   ⟨{ cold [good [], good [], good []] with env := .reference (chip []) }, _, _, _, _, _, ⟨rfl, default_wf, rfl⟩, rfl,
    rfl, rfl, rfl, rfl, rfl⟩, by decide, by decide, by decide, by decide⟩

theorem witness_InitOnBusyDeviceTakesAnyIdentity :
    ∃ (s : State) (d : Device) (a0 a1 : Answer) (rest : List Answer), ReadyForInit s ∧ s.env = .reference d ∧
      d.busy = true ∧ s.answers = a0 :: a1 :: rest ∧ a0.ok = true ∧ a0.after.now = false ∧ a1.ok = true ∧
      a1.before.now = false ∧ a1.rx = [0x11, 0x22, 0x35] ∧
      ∀ e ∈ s.cfg.geomTable, e.ident ≠ ⟨0x11, 0x22, 0x35⟩ :=
  ⟨{ cold [good [], good [0x11, 0x22, 0x35]] with env := .reference ((chip []).start (.erase 0 4096)) }, _, _, _, _,
   ⟨rfl, default_wf, rfl⟩, rfl, rfl, rfl, rfl, rfl, rfl, rfl, rfl, by decide⟩

theorem witness_InitFailureKeepsGeometry :
    (∃ s : State, ReadyForInit s ∧ (nextAnswer s).ok = false) ∧
    (∃ (s : State) (a0 a1 : Answer) (rest : List Answer), ReadyForInit s ∧ s.answers = a0 :: a1 :: rest ∧
      a0.ok = true ∧ a1.ok = false) :=
  ⟨⟨cold [bad], cold_ready _, rfl⟩, ⟨cold [good [], bad], _, _, _, cold_ready _, rfl, rfl, rfl⟩⟩

theorem witness_InitCompletes : ReadyForInit (cold []) := cold_ready []

/-- A read of four bytes and one of none, with answers of that length, and one that ends at the device's end. -/
theorem witness_ReadRunsOneExchange :
    (∃ (s : State) (ans : Answer) (rest : List Answer), readOf (.read 0xFFFFFF 4) = some (0x1, 0xFFFFFF, 4, .read) ∧
      Ready s ∧ insideDevice (.read 0xFFFFFF 4) s ∧ s.env = .oracle ∧ s.answers = ans :: rest ∧ ans.rx.length = 4) ∧
    (∃ (s : State) (ans : Answer) (rest : List Answer), readOf (.fastRead 0 0) = some (0x2, 0, 0, .fastRead) ∧
      Ready s ∧ insideDevice (.fastRead 0 0) s ∧ s.env = .oracle ∧ s.answers = ans :: rest ∧ ans.rx.length = 0) ∧
    (Ready (wired [] []) ∧ insideDevice (.read 0xFFFFFF 1) (wired [] [])) :=
  ⟨⟨up .spi [good [1, 2, 3, 4]], _, _, rfl, up_ready _ _, fun _ _ => reaches_oracle rfl _, rfl, rfl, rfl⟩,
   ⟨up .qspi [good []], _, _, rfl, up_ready _ _, fun _ _ => reaches_oracle rfl _, rfl, rfl, rfl⟩,
   wired_ready _ _, by rintro _ ⟨⟩; decide⟩

/-- The last byte of the device. -/
theorem witness_ReadReturnsArrayBytes :
    ∃ (s : State) (d : Device), readOf (.read 0xFFFFFF 1) = some (0x1, 0xFFFFFF, 1, .read) ∧ Ready s ∧
      s.env = .reference d ∧ d.busy = false ∧ (nextAnswer s).ok = true ∧ (0xFFFFFF : Addr).toNat + 1 ≤ d.size :=
  ⟨wired [(0xFFFFFF, 0x11)] [good []], _, rfl, wired_ready _ _, rfl, rfl, rfl, by decide⟩

theorem witness_FastReadReturnsSameData : ∃ s t : State, Ready s ∧ exec (.read 0x10 2) s = .next t :=
  ⟨up .spi [good [0xAA, 0xBB]], _, up_ready _ _, next_of (by decide)⟩

theorem witness_SingleCommandRunsOneExchange :
    (∃ (s : State) (ans : Answer) (rest : List Answer), aloneOf .readId = some .readId ∧ Ready s ∧
      insideDevice .readId s ∧ s.env = .oracle ∧ s.answers = ans :: rest ∧ ans.ok = true ∧
      ans.rx.length = (descriptor s .readId).rxLen) ∧
    (Ready (wired [] []) ∧ insideDevice .sectorEraseCmd (wired [] [])) :=
  ⟨⟨up .spi [good [0x11, 0x22, 0x33]], _, _, rfl, up_ready _ _, fun _ _ => reaches_oracle rfl _, rfl, rfl, rfl, rfl⟩,
   wired_ready _ _, by rintro _ ⟨⟩; decide⟩

theorem witness_WaitIdleIsBounded : Ready (up .qspi []) := up_ready _ _

/-- The hypotheses of WaitIdleEndsWhenIdle with `n` busy reads. -/
def EndsWhenIdle (n : Nat) : Prop :=
    ∃ (s : State) (bs : List Byte) (b : Byte) (as rest : List Answer) (a : Answer), Ready s ∧ s.env = .oracle ∧
      s.answers = as ++ a :: rest ∧ busyAnswers bs as ∧ statusAnswer b a ∧ (∀ x ∈ bs, busyBit x = true) ∧
      busyBit b = false ∧ bs.length = n ∧ bs.length < 500

theorem endsWhenIdle {n : Nat} (hn : n < 500) : EndsWhenIdle n :=
  ⟨up .spi (busyOnes (List.replicate n 0x01) ++ [good [0xFE]]), List.replicate n 0x01, 0xFE, _, [], good [0xFE],
   up_ready _ _, rfl, rfl, busyAnswers_busyOnes _, ⟨rfl, rfl⟩, all_busy n, by decide, List.length_replicate,
   List.length_replicate.trans_lt hn⟩

/-- Idle at the first read, and idle at the 500th (VW1, VW3). -/
theorem witness_WaitIdleEndsWhenIdle : EndsWhenIdle 0 ∧ EndsWhenIdle 499 :=
  ⟨endsWhenIdle (by decide), endsWhenIdle (by decide)⟩

/-- The hypotheses of WaitIdleTimesOut with `n + 1` busy reads. -/
def TimesOut (n : Nat) : Prop :=
    ∃ (s : State) (bs : List Byte) (b : Byte) (as rest : List Answer) (a : Answer), Ready s ∧ s.env = .oracle ∧
      s.answers = as ++ a :: rest ∧ busyAnswers bs as ∧ statusAnswer b a ∧ (∀ x ∈ bs, busyBit x = true) ∧
      busyBit b = true ∧ bs.length = n

theorem timesOut (n : Nat) : TimesOut n :=
  ⟨up .spi (busyOnes (List.replicate n 0x01) ++ [good [0xFF]]), List.replicate n 0x01, 0xFF, _, [], good [0xFF],
   up_ready _ _, rfl, rfl, busyAnswers_busyOnes _, ⟨rfl, rfl⟩, all_busy n, by decide, List.length_replicate⟩

/-- VW9. -/
theorem witness_WaitIdleTimesOut : TimesOut 499 := timesOut 499

/-- The hypotheses of WaitIdleFailsOnFailedRead with `n` busy reads. -/
def FailsOnFailedRead (n : Nat) : Prop :=
    ∃ (s : State) (bs : List Byte) (as rest : List Answer) (x : Answer), Ready s ∧ s.env = .oracle ∧
      s.answers = as ++ x :: rest ∧ busyAnswers bs as ∧ (∀ b ∈ bs, busyBit b = true) ∧ x.ok = false ∧
      bs.length = n ∧ bs.length < 500

theorem failsOnFailedRead {n : Nat} (hn : n < 500) : FailsOnFailedRead n :=
  ⟨up .spi (busyOnes (List.replicate n 0x01) ++ [bad]), List.replicate n 0x01, _, [], bad, up_ready _ _, rfl, rfl,
   busyAnswers_busyOnes _, all_busy n, rfl, List.length_replicate, List.length_replicate.trans_lt hn⟩

/-- VW5 and VW7. -/
theorem witness_WaitIdleFailsOnFailedRead : FailsOnFailedRead 0 ∧ FailsOnFailedRead 499 :=
  ⟨failsOnFailedRead (by decide), failsOnFailedRead (by decide)⟩

/-- A delay during which the device completes an erase, and one during which it does not. -/
theorem witness_DelayLetsDeviceComplete :
    ∃ (s u : State) (d : Device), s.env = .reference d ∧ u.env = .reference d ∧ (nextAnswer s).after.now = true ∧
      (nextAnswer u).after.now = false ∧ d.busy = true ∧ d.pending = some (.erase 0 4096) ∧ d.touched = [] ∧ d.wf :=
  ⟨{ up .spi [ends] with env := .reference ((chip []).start (.erase 0 4096)) },
   { up .spi [good []] with env := .reference ((chip []).start (.erase 0 4096)) }, _, rfl, rfl, rfl, rfl, rfl, rfl, rfl,
   ⟨rfl, by simp [chip, Device.start], trivial⟩⟩

/-- Two busy bytes with their delays, and two failed reads. -/
theorem witness_WaitIdleReadsBitZeroOnly :
    Ready (up .spi []) ∧ (up .spi []).env = .oracle ∧
    List.Forall₂ (fun a b => a.ok = b.ok ∧ ∃ x y : Byte, a.rx = [x] ∧ b.rx = [y] ∧ x &&& 1 = y &&& 1)
      [good [0x01], good [0xFE], { bad with rx := [0x00] }] [good [0xFF], good [0x00], { bad with rx := [0x02] }] :=
  ⟨up_ready _ _, rfl, .cons ⟨rfl, 0x01, 0xFF, rfl, rfl, by decide⟩
    (.cons ⟨rfl, 0xFE, 0x00, rfl, rfl, by decide⟩ (.cons ⟨rfl, 0x00, 0x02, rfl, rfl, by decide⟩ .nil))⟩

/-- The smallest and the largest page; a range that fills its page and one that leaves it. -/
theorem witness_PageCheckIsContainment :
    pageSizeOk 1 = true ∧ pageSizeOk 16777216 = true ∧ pageSizeOk 256 = true ∧ pageCheck 256 0x0010FF 1 = true ∧
      pageCheck 256 0x0010FF 2 = false := by decide

/-- VK3, VK5 and VK8. -/
theorem witness_PageProgramOutsidePageFails :
    Ready (up .spi []) ∧ (up .spi []).geomIdx < (up .spi []).cfg.geomTable.length ∧
      ¬ contained (.pageProgram 0x001000 257 []) (up .spi []) ∧ ¬ contained (.pageProgram 0x0010FF 2 []) (up .spi []) ∧
      ¬ contained (.pageProgram 0x001012 256 []) (up .spi []) :=
  ⟨up_ready _ _, by decide, by unfold contained; decide, by unfold contained; decide, by unfold contained; decide⟩

/-- A program that fills its page, an empty program, and an erase. -/
theorem witness_BracketMakesFiveExchanges :
    ∃ (s : State) (a0 a1 a2 a3 a4 : Answer) (rest : List Answer) (b1 b3 : Byte),
      bracketOf (.pageProgram 0x0010FF 1 [0xAA]) = some .pageProgram ∧
      bracketOf (.sectorErase 0xFFFFFF 0) = some .sectorErase ∧ Ready s ∧
      s.geomIdx < s.cfg.geomTable.length ∧ contained (.pageProgram 0x0010FF 1 [0xAA]) s ∧
      contained (.pageProgram 0x001080 0 []) s ∧ contained (.sectorErase 0xFFFFFF 0) s ∧ s.env = .oracle ∧
      s.answers = a0 :: a1 :: a2 :: a3 :: a4 :: rest ∧ a0.ok = true ∧ statusAnswer b1 a1 ∧ a2.ok = true ∧
      statusAnswer b3 a3 ∧ a4.ok = true ∧ busyBit b1 = false ∧ busyBit b3 = false :=
  ⟨up .spi [good [], good [0x02], good [], good [0x00], good []], _, _, _, _, _, _, 0x02, 0x00, rfl, rfl,
   up_ready _ _, by decide, by unfold contained; decide, by unfold contained; decide, trivial, rfl, rfl, rfl,
   ⟨rfl, rfl⟩, rfl, ⟨rfl, rfl⟩, rfl, by decide, by decide⟩

theorem witness_BracketReturnsEarly :
    ∃ s : State, bracketOf (.blockErase64 0xFFFFFF 0) = some .blockErase64 ∧ Ready s ∧
      s.geomIdx < s.cfg.geomTable.length ∧ contained (.blockErase64 0xFFFFFF 0) s ∧
      insideDevice (.blockErase64 0xFFFFFF 0) s :=
  ⟨wired [] [good [], bad], rfl, wired_ready _ _, by decide, trivial, by rintro _ ⟨⟩; decide⟩

theorem witness_BracketObservesIdleFirst :
    ∃ (s t : State) (new : List Event), bracketOf .chipErase = some .chipErase ∧ Ready s ∧ contained .chipErase s ∧
      s.geomIdx < s.cfg.geomTable.length ∧ exec .chipErase s = .next t ∧ t.events = new ++ s.events :=
  ⟨up .spi [good [], good [0x00], good [], good [0x00], good []], _, _, rfl, up_ready _ _, trivial, by decide,
   next_of (by decide), (List.append_nil _).symm⟩

/-- A wait on a device that never stops being busy ends with `Timeout` (VW4). -/
theorem pollLoop_busy (f : Nat) (s : State) (he : s.env = .oracle) (hf : 0 < f) (hc : s.pollCnt + f = 500)
    (ha : s.answers = List.replicate (2 * f) (good [0x01])) : (pollLoop f s).1 = .timeout := by
  induction f generalizing s with
  | zero => rfl
  | succ f ih =>
    rw [pollLoop_succ]
    rw [show 2 * (f + 1) = 2 * f + 1 + 1 by omega, List.replicate_succ, List.replicate_succ] at ha
    have hn : nextAnswer { s with pollCnt := s.pollCnt + 1 } = good [0x01] := by
      unfold nextAnswer
      simp [ha]
    have hr : respond { s with pollCnt := s.pollCnt + 1 } (good [0x01])
        (descriptor { s with pollCnt := s.pollCnt + 1 } .readStatus1) = ([0x01], .oracle) := by
      unfold respond
      simp only [he]
      rfl
    have h1 : (poll s).1 = .ok := by
      simp only [poll, readStatus1, micro_result, hn]
      rfl
    have h2 : (poll s).2.srLast = 0x01 := by
      simp only [poll, readStatus1, readStatus1_srLast, hn, hr]
      rfl
    have h3 : pollOutcome (poll s).1 (poll s).2 = if s.pollCnt + 1 = 500 then .ended .timeout else .again := by
      simp only [pollOutcome, h1, h2, poll_pollCnt, Config.pollBound]
      rfl
    rw [h3]
    rcases Nat.eq_zero_or_pos f with rfl | hf'
    · simp [show s.pollCnt + 1 = 500 by omega]
    · rw [if_neg (by omega)]
      refine ih _ ?_ hf' ?_ ?_
      · simp only [delayUs, emit, deviceMoment, poll, readStatus1, micro_env, hn, hr]
        rfl
      · simp [delayUs, emit]; omega
      · simp [delayUs, emit, poll, readStatus1, ha]

theorem busy_times_out {n : Nat} (hn : n = Config.pollBound) :
    ∃ s t : State, s.seq = .idle ∧ exec .waitIdle s = .next t ∧ t.res = .timeout := by
  refine ⟨up .spi (List.replicate (2 * n) (good [0x01])), _, rfl,
    (exec_waitIdle _).trans (whenReady_ready _ (up_ready _ _) _), ?_⟩
  refine pollLoop_busy Config.pollBound _ rfl (by decide) rfl ?_
  rw [← hn]
  rfl

theorem witness_TimeoutMeansBusyReads :
    ∃ s t : State, s.seq = .idle ∧ exec .waitIdle s = .next t ∧ t.res = .timeout := busy_times_out rfl

/-- An idle device and a busy one, and status bytes for each. -/
theorem witness_DeviceLatchAndStatus :
    Opcodes.default.distinct = true ∧ (chip []).busy = false ∧ busyBit 0xFE = (chip []).busy ∧
      busyBit 0x03 = ((chip []).start (.erase 0 4096)).busy := by decide

/-- A command with work and one without, at a device busy with an erase. -/
theorem witness_BusyDeviceIsTouchedInRangeOnly :
    ∃ (s : State) (d : Device), s.cfg.wf = true ∧ d.busy = true ∧ d.wf ∧ BusOp.writeEnable ≠ .readStatus1 ∧
      d.workOf (descriptor s .writeEnable) .writeEnable = none ∧
      d.workOf (descriptor s .sectorErase) .sectorErase = some (.erase 0xFFF000 4096) :=
  ⟨{ up .spi [] with reqAddr := 0xFFFFFF }, (chip []).start (.erase 0 4096), default_wf, rfl,
   ⟨rfl, by simp [chip, Device.start], trivial⟩, by decide, rfl, by decide⟩

/-- Without the latch; with it, at the last byte of the device. -/
theorem witness_WriteClassNeedsLatch :
    (up .spi []).cfg.wf = true ∧ (chip []).busy = false ∧ (chip []).wel = false ∧
    (∃ s : State, s.cfg.wf = true ∧ (chip []).holds .sectorErase (descriptor s .sectorErase) = true ∧
      s.reqAddr = 0xFFFFFF) ∧
    (∃ s : State, s.cfg.wf = true ∧ (chip []).holds .pageProgram (descriptor s .pageProgram) = true ∧
      s.reqAddr = 0xFFFFFF ∧ s.txBuf = [0xAA]) :=
  ⟨default_wf, rfl, rfl, ⟨{ up .spi [] with reqAddr := 0xFFFFFF }, default_wf, by decide, rfl⟩,
   ⟨{ up .spi [] with reqAddr := 0xFFFFFF, txBuf := [0xAA] }, default_wf, by decide, rfl, rfl⟩⟩

/-- An erase that nothing touched, at the last byte of its region; the same with the next region touched; a program,
at its byte; and a busy device without work. -/
theorem witness_CompletionAppliesWork :
    (∃ (m : Completion) (d : Device), Memory.wf d.mem = true ∧ d.busy = true ∧ m.now = true ∧ d.untouched 4095 ∧
      d.pending = some (.erase 0 4096)) ∧
    (∃ (m : Completion) (d : Device), Memory.wf d.mem = true ∧ d.busy = true ∧ m.now = true ∧ d.untouched 4095 ∧
      d.touched = [(4096, 4096)] ∧ d.pending = some (.erase 0 4096)) ∧
    (∃ (m : Completion) (d : Device), Memory.wf d.mem = true ∧ d.busy = true ∧ m.now = true ∧ d.untouched 0x10 ∧
      d.pending = some (.program 0x10 [0xAA]) ∧ Memory.read d.mem 0x10 = 0xFF) ∧
    (∃ (m : Completion) (d : Device), Memory.wf d.mem = true ∧ d.busy = true ∧ m.now = true ∧ d.untouched 0 ∧
      d.pending = none) :=
  ⟨⟨⟨true, false⟩, (chip [(0x0F, 0x00)]).start (.erase 0 4096), by decide, rfl, rfl, by simp [Device.untouched, chip,
     Device.start], rfl⟩,
   ⟨⟨true, false⟩, { (chip [(0x0F, 0x00)]).start (.erase 0 4096) with touched := [(4096, 4096)] }, by decide, rfl, rfl,
    by simp [Device.untouched], rfl, rfl⟩,
   ⟨⟨true, true⟩, (chip [(0x0F, 0x00)]).start (.program 0x10 [0xAA]), by decide, rfl, rfl, by simp [Device.untouched,
     chip, Device.start], rfl, by decide⟩,
   ⟨⟨true, true⟩, { chip [] with busy := true }, by decide, rfl, rfl, by simp [Device.untouched, chip], rfl⟩⟩

/-- Good answers, with the device completing at the end of event `j`. -/
def endsAt (j k : Nat) : List Answer := List.replicate j (good [0x00]) ++ ends :: List.replicate k (good [0x00])

theorem endsAt_inTime {n : Nat} (j k : Nat) (h2 : 2 ≤ j) (h1 : j ≤ 1000) (hn : n ≤ j + (k + 1)) :
    completesInTime n (wired [] (endsAt j k)) := by
  refine ⟨?_, ?_, j, ends, ?_, h2, h1, rfl⟩
  · show n ≤ (endsAt j k).length
    simpa [endsAt] using hn
  · intro a ha
    rcases List.mem_append.mp ha with h | h
    · rw [List.eq_of_mem_replicate h]; rfl
    · rcases List.mem_cons.mp h with rfl | h
      · rfl
      · rw [List.eq_of_mem_replicate h]; rfl
  · show (endsAt j k)[j]? = some ends
    simp [endsAt]

/-- An unaligned erase at the end of the device that completes at the end of its command, and one that completes in
the last delay. -/
theorem witness_ErasedRegionReadsErased :
    (∃ (s : State) (d : Device), bracketOf (.sectorErase 0xFFFFFF 0) = some .sectorErase ∧
      BracketCmd.sectorErase ≠ .pageProgram ∧ Ready s ∧ s.env = .reference d ∧ d.quiet ∧ d.wf ∧
      insideDevice (.sectorErase 0xFFFFFF 0) s ∧ completesInTime 1003 s) ∧
    completesInTime 1003 (wired [] (endsAt 1000 2)) :=
  ⟨⟨wired [] (endsAt 2 1000), _, rfl, by decide, wired_ready _ _, rfl, chip_quiet _, chip_wf_empty,
    by rintro _ ⟨⟩; decide, endsAt_inTime 2 1000 (by decide) (by decide) (by decide)⟩,
   endsAt_inTime 1000 2 (by decide) (by decide) (by decide)⟩

/-- A program that fills the last byte of the last page. -/
theorem witness_ProgrammedDataReadsBack :
    ∃ (s : State) (d : Device),
      Ready s ∧ s.geomIdx < s.cfg.geomTable.length ∧ contained (.pageProgram 0xFFFFFF 1 [0xAA]) s ∧
      [(0xAA : Byte)].length = 1 ∧ s.env = .reference d ∧ d.quiet ∧ d.wf ∧ (0xFFFFFF : Addr).toNat < d.size ∧
      (0xFFFFFF : Addr).toNat + 1 ≤ d.size ∧ d.page = pageSize s.cfg s.geomIdx ∧
      (∀ j, j < 1 → Memory.read d.mem ((0xFFFFFF : Addr).toNat + j) = 0xFF) ∧ completesInTime 1004 s :=
  ⟨wired [] (endsAt 2 1001), _, wired_ready _ _, by decide, by unfold contained; decide, rfl, rfl, chip_quiet _,
   chip_wf_empty, by decide, by decide, by decide, fun _ _ => rfl,
   endsAt_inTime 2 1001 (by decide) (by decide) (by decide)⟩

theorem witness_BracketChangesTargetOnly :
    ∃ (s t : State) (d : Device), bracketOf (.blockErase32 0x00A000 0) = some .blockErase32 ∧ Ready s ∧
      s.env = .reference d ∧ d.quiet ∧ d.wf ∧ exec (.blockErase32 0x00A000 0) s = .next t :=
  ⟨wired [] [], _, _, rfl, wired_ready _ _, rfl, chip_quiet _, chip_wf_empty, next_of (by decide)⟩

theorem witness_NonBracketLeavesArray :
    ∃ (s t u : State) (d : Device), s.env = .reference d ∧ d.busy = false ∧ d.quiet ∧ d.wf ∧
      bracketOf .waitIdle = none ∧ writeCmdOf .waitIdle = none ∧ exec .waitIdle s = .next t ∧
      writeCmdOf .sectorEraseCmd = some .sectorErase ∧ exec .sectorEraseCmd s = .next u ∧
      (nextAnswer s).after.now = false :=
  ⟨wired [] [good []], _, _, _, rfl, rfl, chip_quiet _, chip_wf_empty, rfl, rfl, next_of (by decide), rfl,
   next_of (by decide), rfl⟩

/-- A command, a delay, no request, a request taken, an illegal one, and a program that its check rejects. -/
theorem witness_StepIsOneEvent :
    coherent (midErase .issueCommand .start) ∧ coherent (midErase .waitIdlePost .delaying) ∧
    (∃ s t : State, coherent s ∧ step s = .next t ∧ s.port = []) ∧
    (∃ s t : State, coherent s ∧ step s = .next t ∧ s.port = [.host 0x40001000 0 []]) ∧
    (∃ s t : State, coherent s ∧ step s = .next t ∧ s.port = [.host 0x70000000 0 []]) ∧
    (∃ s t : State, coherent s ∧ step s = .next t ∧ s.port = [.host 0x300010FF 2 [0xAA, 0xBB]] ∧
      pageCheck (pageSize s.cfg s.geomIdx) 0x0010FF 2 = false) :=
  ⟨⟨by decide, by decide, .inl rfl, rfl⟩, ⟨by decide, by decide, .inr ⟨rfl, .inr rfl⟩, rfl⟩,
   ⟨up .spi [], _, ⟨rfl, rfl⟩, next_of (by decide), rfl⟩,
   ⟨{ up .spi [] with port := [.host 0x40001000 0 []] }, _, ⟨rfl, rfl⟩, next_of (by decide), rfl⟩,
   ⟨{ up .spi [] with port := [.host 0x70000000 0 []] }, _, ⟨rfl, rfl⟩, next_of (by decide), rfl⟩,
   ⟨{ up .spi [] with port := [.host 0x300010FF 2 [0xAA, 0xBB]] }, _, ⟨rfl, rfl⟩, next_of (by decide), rfl, by decide⟩⟩

theorem witness_SeqAdvancesInOrder :
    coherent (midErase .writeEnable .start) ∧ (midErase .writeEnable .start).job = .writeClass .sectorErase :=
  ⟨⟨by decide, by decide, .inl rfl, rfl⟩, rfl⟩

theorem witness_OperationIsItsEvents :
    ∃ (s t : State) (r : Request) (rest : List Request) (i : Instr), s.seq = .idle ∧ s.port = r :: rest ∧
      decode s.cfg r = .ok i ∧ i = .sectorErase 0x001000 0 ∧ exec i { s with port := rest } = .next t :=
  ⟨{ up .spi [] with port := [.host 0x40001000 0 []] }, _, _, _, _, rfl, rfl, rfl, by decide, next_of (by decide)⟩

theorem witness_InitialisedBindingIsFrozen :
    ∃ s t : State, MachineInv s ∧ s.inited = true ∧ step s = .next t ∧ s.port ≠ [] :=
  ⟨{ wired [] [] with port := [.host 0x40001000 0 []] }, _, wired_inv [] _, rfl, next_of (by decide), by decide⟩

theorem witness_ParametersNeverChange : ∃ s t : State, step s = .next t ∧ s.port ≠ [] :=
  ⟨{ up .spi [] with port := [.host 0x10001000 4 []] }, _, next_of (by decide), by decide⟩

/-- A ready block, and INIT with each of its results. -/
theorem witness_OperationsEndIdle :
    (∃ s t : State, s.seq = .idle ∧ exec (.read 0 4) s = .next t ∧ Ready s) ∧
    (∃ s t : State, ReadyForInit s ∧ exec (.init 0 0) s = .next t ∧ t.res = .ok) ∧
    (∃ s t : State, ReadyForInit s ∧ exec (.init 0 0) s = .next t ∧ t.res = .fail) :=
  ⟨⟨up .spi [], _, rfl, next_of (by decide), up_ready _ _⟩,
   ⟨cold [good [], good [0x11, 0x22, 0x33], good []], _, cold_ready _, next_of (by decide), by decide⟩,
   ⟨cold [bad], _, cold_ready _, next_of (by decide), by decide⟩⟩

theorem witness_ResultIsNeverRead : (up .spi []).seq = .idle := rfl

theorem witness_IgnoredOperandsHaveNoEffect : (cold []).seq = .idle := rfl

end Sys2Proof.Tests
end

namespace Sys2Proof.Machine

/-! ## The binding of the block (R36) -/

/-- `t` has the binding of `s`: the three registers INIT writes, which R36 freezes. -/
structure SameBinding (s t : State) : Prop where
  mode : t.mode = s.mode
  geomIdx : t.geomIdx = s.geomIdx
  inited : t.inited = s.inited

theorem SameBinding.refl (s : State) : SameBinding s s := ⟨rfl, rfl, rfl⟩

theorem SameBinding.trans {s t u : State} (h : SameBinding s t) (k : SameBinding t u) : SameBinding s u :=
  ⟨k.mode.trans h.mode, k.geomIdx.trans h.geomIdx, k.inited.trans h.inited⟩

theorem Exchanged.sameBinding {s t : State} (h : Exchanged s t) : SameBinding s t := ⟨h.mode, h.geomIdx, h.inited⟩

/-! ### What moves and ends of an operation keep -/

theorem setSeq_sameBinding (q : Seq) (s : State) : SameBinding s (setSeq q s) := ⟨rfl, rfl, rfl⟩

theorem finish_sameBinding (r : Result) (s : State) : SameBinding s (finish r s) := ⟨rfl, rfl, rfl⟩

theorem finishWith_micro_sameBinding (k : BusOp) (s : State) : SameBinding s (finishWith (micro k s)) :=
  (micro_exchanged k s).sameBinding.trans (finish_sameBinding _ _)

theorem advance_sameBinding (q : Seq) (s : State) : SameBinding s (advance q s) := by
  cases q <;> exact ⟨rfl, rfl, rfl⟩

theorem loadTx_sameBinding (buf : List Byte) (s : State) : SameBinding s (loadTx buf s) := by
  unfold loadTx
  split <;> exact ⟨rfl, rfl, rfl⟩

theorem latched_sameBinding (i : Instr) (s : State) : SameBinding s (latched i s) := by
  cases i with
  | pageProgram a n buf => exact SameBinding.trans (t := latch 0x3 a n s) ⟨rfl, rfl, rfl⟩ (loadTx_sameBinding _ _)
  | _ => exact ⟨rfl, rfl, rfl⟩

/-! ### One event of an operation -/

theorem onward_sameBinding (x : Result × State) {k : State → State} (hk : ∀ s, SameBinding s (k s)) :
    SameBinding x.2 (onward x k) := by
  rcases onward_cases x k with ⟨-, h⟩ | ⟨-, h⟩ <;> rw [h]
  · exact hk _
  · exact finish_sameBinding _ _

theorem tickWait_sameBinding {k : State → State} (hk : ∀ s, SameBinding s (k s)) (s : State) :
    SameBinding s (tickWait k s) := by
  have hpoll := (poll_exchanged s).sameBinding
  rcases tickWait_cases k s with ⟨-, h⟩ | ⟨-, r, -, h⟩ | ⟨-, -, h⟩ <;> rw [h]
  · exact ⟨rfl, rfl, rfl⟩
  · exact hpoll.trans (onward_sameBinding (r, (poll s).2) hk)
  · exact ⟨hpoll.mode, hpoll.geomIdx, hpoll.inited⟩

theorem tickBracket_sameBinding (c : BracketCmd) (s : State) : SameBinding s (tickBracket c s) := by
  have hcommand (k : BusOp) (q : Seq) : SameBinding s (onward (micro k s) (advance q)) :=
    (micro_exchanged k s).sameBinding.trans (onward_sameBinding _ (advance_sameBinding q))
  unfold tickBracket
  split
  · exact hcommand .writeEnable _
  · exact tickWait_sameBinding (setSeq_sameBinding _) s
  · exact hcommand c.busOp _
  · exact tickWait_sameBinding (setSeq_sameBinding _) s
  · exact finishWith_micro_sameBinding .writeDisable s
  · exact SameBinding.refl s
  · exact SameBinding.refl s

/-- INIT is the only operation whose events write the binding. -/
theorem tick_sameBinding {s : State} (hj : s.job ≠ .init) : SameBinding s (tick s) := by
  unfold tick
  split
  · exact SameBinding.refl s
  · next h => exact absurd h hj
  · exact finishWith_micro_sameBinding _ s
  · exact tickBracket_sameBinding _ s
  · exact finishWith_micro_sameBinding _ s
  · exact tickWait_sameBinding (finish_sameBinding _) s

/-! ### Requests taken and steps -/

/-- An initialised block accepts no INIT (R137), and accepting anything else keeps the binding. -/
theorem accept_sameBinding {i : Instr} {s t : State} (hs : s.seq = .idle) (hn : s.inited = true) (hj : s.job ≠ .init)
    (h : accept i s = .next t) : SameBinding s t ∧ t.job ≠ .init := by
  have hlatched := latched_sameBinding i s
  cases accept_accepted hs h with
  | illegal w _ ht => subst ht; exact ⟨⟨rfl, rfl, rfl⟩, hj⟩
  | init a n _ _ hn' _ => simp [hn] at hn'
  | alone k _ _ _ ht | wait _ _ ht | read _ _ _ k _ _ _ ht => subst ht; exact ⟨⟨rfl, rfl, rfl⟩, by simp⟩
  | rejected a n buf _ _ _ ht => subst ht; exact ⟨hlatched.trans (finish_sameBinding _ _), by simp⟩
  | bracket c _ _ _ _ ht => subst ht; exact ⟨⟨hlatched.mode, hlatched.geomIdx, hlatched.inited⟩, by simp⟩

theorem takeRequest_sameBinding {i : Instr} {s u : State} (hs : s.seq = .idle) (hn : s.inited = true)
    (hj : s.job ≠ .init) (h : takeRequest i s = .next u) : SameBinding s u := by
  obtain ⟨t, ht, rfl⟩ := takeRequest_next h
  obtain ⟨hst, hjt⟩ := accept_sameBinding hs hn hj ht
  split
  · exact hst
  · exact hst.trans (tick_sameBinding hjt)

/-- INIT is not in progress in an initialised block (R23, R138). -/
theorem MachineInv.job_ne_init {s : State} (hi : MachineInv s) (hn : s.inited = true) : s.job ≠ .init := by
  intro hj
  have hplace := hi.place
  simp [coherent, hj, hn] at hplace

/-- Every step of an initialised block keeps its binding. -/
theorem step_sameBinding {s t : State} (hi : MachineInv s) (hn : s.inited = true) (h : step s = .next t) :
    SameBinding s t := by
  have hj := hi.job_ne_init hn
  rcases step_next h with ⟨-, rfl⟩ | ⟨-, -, rfl⟩ | ⟨r, rest, i, hs, -, -, htake⟩
  · exact tick_sameBinding hj
  · exact ⟨rfl, rfl, rfl⟩
  · have htaken := takeRequest_sameBinding (s := { s with port := rest }) hs hn hj htake
    exact ⟨htaken.mode, htaken.geomIdx, htaken.inited⟩

/-- Settles O52: the invariant rules INIT out, in progress and at the port, and only INIT writes the binding (R36). -/
theorem initialisedBindingIsFrozen : Obligations.InitialisedBindingIsFrozen := by
  intro s t hi hn h
  obtain ⟨hmode, hgeom, hinited⟩ := step_sameBinding hi hn h
  exact ⟨hmode, hgeom, hinited.trans hn⟩

end Sys2Proof.Machine

namespace Sys2Proof.Machine

/-! ## Commands the reference device answers without work (R72, R73) -/

/-- With distinct opcodes the device knows a command by its opcode byte (R70, R90). -/
theorem Device.receive_known {o : Opcodes} (ho : o.distinct = true) {cmd : Cmd} {k : BusOp}
    (hk : cmd.opc = opcodeOf o k) (c : Nat) (a : Answer) (any : List Byte) (d : Device) :
    d.receive o c a any cmd = if d.busy then d.whenBusy c a any cmd k else d.whenIdle c a any cmd k := by
  simp [Device.receive, hk, busOpOf_opcodeOf ho]

theorem Device.receive_idle {o : Opcodes} (ho : o.distinct = true) {cmd : Cmd} {k : BusOp}
    (hk : cmd.opc = opcodeOf o k) (c : Nat) (a : Answer) (any : List Byte) {d : Device} (hd : d.busy = false) :
    d.receive o c a any cmd = d.whenIdle c a any cmd k := by
  simp [Device.receive_known ho hk, hd]

/-- After a good exchange a device that was idle, and that the command leaves idle, is where the command left it: it
had nothing to complete, before or after (R71). -/
theorem Device.exchange_idle {o : Opcodes} (ho : o.distinct = true) {cmd : Cmd} {k : BusOp}
    (hk : cmd.opc = opcodeOf o k) (c : Nat) {a : Answer} (ha : a.ok = true) {d e : Device} (hd : d.busy = false)
    {rx : List Byte} (hw : d.whenIdle (3 * c + 1) a (fit c cmd.rxLen a.rx) cmd k = (rx, e)) (he : e.busy = false) :
    d.exchange o c a cmd = (rx, e) := by
  simp [Device.exchange, Device.take, Device.complete_idle, Device.receive_idle ho hk, hd, ha, hw, he]

/-! ### The status byte (R72) -/

/-- A byte with its busy bit set to the device's busy flag: what a device answers to RDSR1. -/
def statusByte (busy : Bool) (b : Byte) : Byte := if busy then b ||| 0x01 else b &&& 0xFE

@[simp] theorem busyBit_statusByte (busy : Bool) (b : Byte) : busyBit (statusByte busy b) = busy := by
  cases busy <;> simp [statusByte, busyBit, Config.busyBit]

/-- Only the busy bit is forced: bit by bit, a byte that has it right is answered as it is. -/
theorem statusByte_of_busyBit {busy : Bool} {b : Byte} (h : busyBit b = busy) : statusByte busy b = b := by
  replace h : b[0] = busy := h
  refine BitVec.eq_of_getElem_eq fun i hi => ?_
  cases busy <;> interval_cases i <;> simp [statusByte, h]

/-- The status read, busy or idle: one byte, and the device stays as it is (R72). -/
theorem Device.receive_readStatus1 {o : Opcodes} (ho : o.distinct = true) {cmd : Cmd} (hk : cmd.opc = o.rdsr1)
    (c : Nat) (a : Answer) (any : List Byte) (d : Device) :
    d.receive o c a any cmd = ([statusByte d.busy (any.getD 0 0)], d) := by
  rw [Device.receive_known ho (k := .readStatus1) hk]
  cases hd : d.busy <;> rfl

/-! ### The array under these commands -/

/-- A command that asks for no program or erase changes no byte of the array, idle or busy (R72 to R74). -/
theorem Device.receive_mem_of_no_work {o : Opcodes} (ho : o.distinct = true) {cmd : Cmd} {k : BusOp}
    (hk : cmd.opc = opcodeOf o k) (c : Nat) (a : Answer) (any : List Byte) {d : Device} (hw : d.workOf cmd k = none) :
    (d.receive o c a any cmd).2.mem = d.mem := by
  rw [Device.receive_known ho hk]
  cases k with
  | readId | readStatus1 | writeEnable | writeDisable | read | fastRead => cases d.busy <;> rfl
  | pageProgram | sectorErase | blockErase32 | blockErase64 | chipErase => simp [Device.workOf] at hw

/-- Settles O41: distinct opcodes let the device know each of the four commands, and its answer is then read off. -/
theorem deviceLatchAndStatus : Obligations.DeviceLatchAndStatus := by
  intro o c a any d addr tx n ho
  refine ⟨fun hd => ?wren, fun hd => ?wrdi, fun hd => ?rdid, ⟨statusByte d.busy (any.getD 0 0), ?status, by simp⟩,
    fun b hb => ?anyStatus, fun k hk => ?array⟩
  case wren => rw [Device.receive_idle ho (k := .writeEnable) rfl _ _ _ hd]; rfl
  case wrdi => rw [Device.receive_idle ho (k := .writeDisable) rfl _ _ _ hd]; rfl
  case rdid => rw [Device.receive_idle ho (k := .readId) rfl _ _ _ hd]; rfl
  case status => exact Device.receive_readStatus1 ho rfl _ _ _ _
  case anyStatus =>
    rw [Device.receive_readStatus1 ho rfl]
    simp [statusByte_of_busyBit hb]
  case array =>
    refine Device.receive_mem_of_no_work ho rfl _ _ _ ?_
    rcases hk with rfl | rfl | rfl | rfl <;> rfl

/-! ### Reads of the array (R73) -/

@[simp] theorem Memory.readN_length (m : Memory) (a n : Nat) : (Memory.readN m a n).length = n := by
  simp [Memory.readN]

theorem Memory.readN_getElem? (m : Memory) (a : Nat) {n j : Nat} (h : j < n) :
    (Memory.readN m a n)[j]? = some (Memory.read m (a + j)) := by
  simp [Memory.readN, h]

theorem readOf_busOp {i : Instr} {op : BitVec 4} {a : Addr} {n : Nat} {k : BusOp}
    (h : readOf i = some (op, a, n, k)) : k = .read ∨ k = .fastRead := by
  cases i <;> simp only [readOf, reduceCtorEq, Option.some.injEq, Prod.mk.injEq] at h <;>
    (obtain ⟨-, -, -, rfl⟩ := h; simp)

section
variable {k : BusOp} (hk : k = .read ∨ k = .fastRead)
include hk

theorem descriptor_read (s : State) :
    descriptor s k = ⟨opcodeOf s.cfg.opcodes k, some s.reqAddr, [], s.reqLen⟩ := by
  rcases hk with rfl | rfl <;> rfl

theorem micro_rxBuf_of_read (s : State) :
    (micro k s).2.rxBuf = (respond s (nextAnswer s) (descriptor s k)).1 := by
  rcases hk with rfl | rfl
  · exact read_rxBuf s
  · exact fastRead_rxBuf s

/-- A read reaches the device where its range does (R63, R73). -/
theorem reaches_read {s : State} {d : Device} (he : s.env = .reference d) (h : s.reqAddr.toNat + s.reqLen ≤ d.size) :
    reaches k s = true := by
  rcases hk with rfl | rfl <;> simp [reaches, he, Device.holds, Cmd.start, descriptor, h]

/-- An idle device answers a read inside it with the bytes of its array and stays as it is (R73). -/
theorem Device.whenIdle_read (c : Nat) (a : Answer) (any : List Byte) {cmd : Cmd} {d : Device}
    (h : cmd.start + cmd.rxLen ≤ d.size) :
    d.whenIdle c a any cmd k = (Memory.readN d.mem cmd.start cmd.rxLen, d) := by
  rcases hk with rfl | rfl <;> simp [Device.whenIdle, Device.holds, h]

/-- The same through a good exchange of the block (R73, R110). -/
theorem respond_read {s : State} {d : Device} {a : Answer} (hp : s.cfg.wf = true) (he : s.env = .reference d)
    (hd : d.busy = false) (ha : a.ok = true) (h : s.reqAddr.toNat + s.reqLen ≤ d.size) :
    respond s a (descriptor s k) = (Memory.readN d.mem s.reqAddr.toNat s.reqLen, .reference d) := by
  rw [descriptor_read hk]
  have hx := Device.exchange_idle (Params.wf_distinct hp)
    (cmd := ⟨opcodeOf s.cfg.opcodes k, some s.reqAddr, [], s.reqLen⟩) rfl s.free ha hd
    (Device.whenIdle_read hk _ _ _ h) hd
  simp [respond, he, hx, fit_of_length, Cmd.start]

/-- A read-class operation on an idle device: `Ok`, the bytes of the array, the device as before (R73, R175). -/
theorem runRead_idle {s : State} {d : Device} (hp : s.cfg.wf = true) (he : s.env = .reference d)
    (hd : d.busy = false) (ha : (nextAnswer s).ok = true) (h : s.reqAddr.toNat + s.reqLen ≤ d.size) :
    (runRead k s).res = .ok ∧ (runRead k s).env = .reference d ∧
      (runRead k s).rxBuf = Memory.readN d.mem s.reqAddr.toNat s.reqLen := by
  have hrespond := respond_read hk (s := setSeq .issueCommand (enter (.readClass k) .issueCommand s)) hp he hd ha h
  exact ⟨(micro_result k _).trans (if_pos ha), (micro_env k _).trans (congrArg Prod.snd hrespond),
    (micro_rxBuf_of_read hk _).trans (congrArg Prod.fst hrespond)⟩

end

/-- A ready read whose range reaches the device runs its one command with the operands latched (R175). -/
theorem exec_runs_read {i : Instr} {op : BitVec 4} {a : Addr} {n : Nat} {k : BusOp} {s : State}
    (hi : readOf i = some (op, a, n, k)) (hr : Ready s) (hd : reaches k (latch op a n s) = true) :
    exec i s = .next (runRead k (latch op a n s)) := by
  rw [exec_readClass hi, whenReady_ready _ hr, withinDevice_inside hd]

/-- Settles O26: a read is one exchange, and an idle device answers it from its array (R73). -/
theorem readReturnsArrayBytes : Obligations.ReadReturnsArrayBytes := by
  intro i op a n k s d hi hr he hd ha h
  have hk := readOf_busOp hi
  have ⟨_, hp, _⟩ := hr
  obtain ⟨hres, henv, hrx⟩ := runRead_idle hk (s := latch op a n s) hp he hd ha h
  refine ⟨_, exec_runs_read hi hr (reaches_read hk he h), hres, henv, ?length, fun j hj => ?bytes⟩
  case length => rw [hrx, Memory.readN_length]; rfl
  case bytes => rw [hrx]; exact Memory.readN_getElem? _ _ hj

end Sys2Proof.Machine

namespace Sys2Proof.Machine

/-! ## Descriptors (R91) -/

/-- Settles O8: each row of R91 is a branch of `descriptor`, with the opcode of R90 read off. -/
theorem descriptorTable : Obligations.DescriptorTable :=
  fun _ => ⟨rfl, rfl, rfl, rfl, rfl, rfl, rfl, rfl, rfl, rfl, rfl⟩

/-- No descriptor the engine builds has both data out and data in: only PAGE_PROGRAM sends data (R91). -/
theorem descriptor_tx_nil_or_rxLen_zero (s : State) (k : BusOp) :
    (descriptor s k).tx = [] ∨ (descriptor s k).rxLen = 0 := by
  cases k with
  | pageProgram => exact .inr rfl
  | _ => exact .inl rfl

/-! ## The event of an exchange (R110) -/

/-- The one event of an exchange; its reply carries the very bytes the exchange returns. -/
theorem xfer_events (cmd : Cmd) (s : State) :
    (xfer cmd s).2.events =
      ⟨s.seq, some cmd, frame s.cfg s.mode cmd,
        if (nextAnswer s).ok then .ok (xfer cmd s).1.rx else .fail⟩ :: s.events := by
  rw [xfer_state, xfer_rx]

/-! ## The SPI frame (R86, R112) -/

/-- The three address bytes of R53 are the address in base 256, the most significant first. -/
theorem addrBytes_toNat (a : Addr) :
    (a.extractLsb' 16 8).toNat * 65536 + (a.extractLsb' 8 8).toNat * 256 + (a.extractLsb' 0 8).toNat = a.toNat := by
  have hlt : a.toNat < 2 ^ 24 := a.isLt
  simp only [BitVec.extractLsb'_toNat, Nat.shiftRight_eq_div_pow]
  omega

/-- Settles O17: the frame is `spiOut`, and its address bytes add up to the address. -/
theorem spiExchangeIsOneFrame : Obligations.SpiExchangeIsOneFrame := by
  intro cmd s hmode
  refine ⟨addrBytes cmd.addr, spiOut s.cfg cmd, fun hnone => ?absent, fun a hsome => ?address, rfl,
    xfer_ok cmd s, xfer_rx_length cmd s, ?event⟩
  case absent => rw [hnone]; rfl
  case address => rw [hsome]; exact ⟨_, _, _, rfl, addrBytes_toNat a⟩
  case event => rw [xfer_events, hmode]; rfl

/-! ## The QSPI call (R88, R115) -/

/-- Data out decides the direction, whatever is to come in. -/
theorem qspiDirection_eq_out_iff (cmd : Cmd) : qspiDirection cmd = .out ↔ cmd.tx ≠ [] := by
  unfold qspiDirection
  split_ifs with htx hrx <;> simpa [List.length_pos_iff] using htx

/-- Data in decides the direction when no data goes out. -/
theorem qspiDirection_eq_inn_iff (cmd : Cmd) : qspiDirection cmd = .inn ↔ cmd.tx = [] ∧ cmd.rxLen ≠ 0 := by
  unfold qspiDirection
  split_ifs with htx hrx <;> simp_all [Nat.pos_iff_ne_zero]

/-- With data one way at most, the bytes of a call are those going out and those coming in together. -/
theorem qspiLength_eq_add {cmd : Cmd} (h : cmd.tx = [] ∨ cmd.rxLen = 0) :
    qspiLength cmd = cmd.tx.length + cmd.rxLen := by
  unfold qspiLength
  cases hdir : qspiDirection cmd with
  | out =>
    have hrx := h.resolve_left ((qspiDirection_eq_out_iff cmd).mp hdir)
    simp [hrx]
  | inn =>
    have htx := ((qspiDirection_eq_inn_iff cmd).mp hdir).left
    simp [htx]
  | none =>
    have htx : cmd.tx = [] := by simpa [hdir] using qspiDirection_eq_out_iff cmd
    have hrx : cmd.rxLen = 0 := by simpa [hdir, htx] using qspiDirection_eq_inn_iff cmd
    simp [htx, hrx]

/-- Settles O18: the event is `qspiCall`, and the engine's descriptors carry data one way at most (R91). -/
theorem qspiExchangeIsOneCall : Obligations.QspiExchangeIsOneCall := by
  refine ⟨fun cmd s hmode => ⟨xfer_ok cmd s, xfer_rx_length cmd s, ?event⟩, fun s k => ?fields⟩
  case event => rw [xfer_events, hmode]; rfl
  case fields =>
    have hway := descriptor_tx_nil_or_rxLen_zero s k
    exact ⟨hway, qspiLength_eq_add hway, qspiDirection_eq_out_iff _,
      (qspiDirection_eq_inn_iff _).trans (and_iff_right_of_imp hway.resolve_right)⟩

end Sys2Proof.Machine

namespace Sys2Proof.Machine

/-! ## Decoding a host request (R81, R92, R93) -/

/-- The operation code is the top four bits of the command word. -/
theorem cmdwOp_toNat (w : Word) : (cmdwOp w).toNat = (w >>> 28).toNat := by
  have hw : w.toNat < 2 ^ 32 := w.isLt
  simp only [cmdwOp, BitVec.extractLsb'_toNat, BitVec.toNat_ushiftRight, Nat.shiftRight_eq_div_pow]
  omega

/-- The reserved bits, cut out or masked. -/
theorem cmdwRsv_eq_zero_iff (w : Word) : cmdwRsv w = 0 ↔ (w >>> 24) &&& 0xF = 0 := by
  have hmask : w.toNat >>> 24 &&& 15 = w.toNat >>> 24 % 16 := Nat.and_two_pow_sub_one_eq_mod _ 4
  simp [cmdwRsv, ← BitVec.toNat_inj, hmask]

/-- The codes 0x7 to 0xF and set reserved bits decode to ILLEGAL (R92, R93). -/
theorem decodeHost_illegal {w : Word} (h : 7 ≤ (cmdwOp w).toNat ∨ cmdwRsv w ≠ 0) (p : Params) (lenw : Nat)
    (buf : List Byte) : decodeHost p w lenw buf = .illegal w := by
  unfold decodeHost
  split_ifs with hrsv
  · rfl
  · have hop := h.resolve_right hrsv
    split
    case h_8 => rfl
    all_goals omega

/-- The codes 1 to 6 with reserved bits 0 decode to neither INIT nor ILLEGAL (R81, R82). -/
theorem decodeHost_operation {w : Word} (hrsv : cmdwRsv w = 0) (hpos : 1 ≤ (cmdwOp w).toNat)
    (hlt : (cmdwOp w).toNat < 7) (p : Params) (lenw : Nat) (buf : List Byte) :
    (∀ a n, decodeHost p w lenw buf ≠ .init a n) ∧ ∀ v, decodeHost p w lenw buf ≠ .illegal v := by
  interval_cases hop : (cmdwOp w).toNat <;> simp [decodeHost, hrsv, hop]

/-! ## Admission before and after INIT (R92, R137, R138) -/

/-- ILLEGAL ends at once and writes `RES` alone (R92). -/
theorem exec_illegal_idle (w : Word) {s : State} (hs : s.seq = .idle) :
    exec (.illegal w) s = .next { s with res := .fail } :=
  if_neg (not_not.mpr hs)

/-- Every instruction but INIT and ILLEGAL is admitted by `whenReady`. -/
theorem exec_eq_whenReady {i : Instr} (hinit : ∀ a n, i ≠ .init a n) (hillegal : ∀ w, i ≠ .illegal w) (s : State) :
    ∃ k, exec i s = whenReady i s k := by
  cases i with
  | init a n => exact absurd rfl (hinit a n)
  | illegal w => exact absurd rfl (hillegal w)
  | read | fastRead => exact ⟨_, exec_readClass rfl s⟩
  | pageProgram a n buf => exact ⟨_, exec_pageProgram a n buf s⟩
  | sectorErase | blockErase32 | blockErase64 | chipErase | writeSeq => exact ⟨_, exec_bracket rfl (by simp) s⟩
  | readId | readStatus1 | writeEnable | writeDisable | pageProgramCmd | sectorEraseCmd | blockErase32Cmd
  | blockErase64Cmd | readCmd | fastReadCmd => exact ⟨_, exec_alone rfl s⟩
  | waitIdle => exact ⟨_, exec_waitIdle s⟩

/-- What `whenReady` admits is refused before INIT has ended with `Ok` (R110, R138). -/
theorem whenReady_notInitialised (i : Instr) {s : State} (h : ReadyForInit s)
    (k : State → Host.Outcome State Fault Refusal) : whenReady i s k = .refused .notInitialised := by
  obtain ⟨hseq, hwf, hinited⟩ := h
  simp [whenReady, hseq, hwf, hinited]

/-- What `whenReadyForInit` admits is refused after INIT has ended with `Ok` (R137). -/
theorem whenReadyForInit_alreadyInitialised (i : Instr) {s : State} (h : Ready s) (k : State → State) :
    whenReadyForInit i s k = .refused .alreadyInitialised := by
  obtain ⟨hseq, hwf, hinited⟩ := h
  simp [whenReadyForInit, hseq, hwf, hinited]

/-- Before INIT every instruction but INIT and ILLEGAL is refused (R110, R138). -/
theorem exec_notInitialised {i : Instr} {s : State} (hinit : ∀ a n, i ≠ .init a n) (hillegal : ∀ w, i ≠ .illegal w)
    (h : ReadyForInit s) : exec i s = .refused .notInitialised := by
  obtain ⟨k, hk⟩ := exec_eq_whenReady hinit hillegal s
  rw [hk, whenReady_notInitialised i h]

/-- Settles O12: a word with an illegal code or reserved bits decodes to ILLEGAL, which fails whatever `INITED` is; the
codes 1 to 6 decode to neither INIT nor ILLEGAL, so the admission refuses them. -/
theorem uninitialisedRequestRefused : Obligations.UninitialisedRequestRefused := by
  intro w lenw buf s h
  rw [← cmdwOp_toNat, ne_eq, ← cmdwRsv_eq_zero_iff]
  refine ⟨fun hbad => ?illegal, fun hpos hlt hrsv => ?refused⟩
  case illegal => exact ⟨_, by rw [decodeHost_illegal hbad, exec_illegal_idle w h.1], rfl⟩
  case refused =>
    obtain ⟨hinit, hillegal⟩ := decodeHost_operation hrsv hpos hlt s.cfg lenw buf
    exact exec_notInitialised hinit hillegal h

/-- Settles O14: INIT's admission looks at `INITED` before anything of the operation runs (R137). -/
theorem secondInitRefused : Obligations.SecondInitRefused := by
  intro a n s h
  rw [exec_init, whenReadyForInit_alreadyInitialised _ h]

end Sys2Proof.Machine

namespace Sys2Proof.Machine

/-! ## The setup of the block (R6, R36) -/

/-- `t` has the binding of `s` and its parameters: what decides which requests a block takes, and how its status reads
look on the bus. -/
structure SameSetup (s t : State) : Prop extends SameBinding s t where
  cfg : t.cfg = s.cfg

theorem SameSetup.trans {s t u : State} (h : SameSetup s t) (k : SameSetup t u) : SameSetup s u :=
  ⟨h.toSameBinding.trans k.toSameBinding, k.cfg.trans h.cfg⟩

theorem Exchanged.sameSetup {s t : State} (h : Exchanged s t) : SameSetup s t := ⟨h.sameBinding, h.cfg⟩

theorem setSeq_sameSetup (q : Seq) (s : State) : SameSetup s (setSeq q s) := ⟨setSeq_sameBinding q s, rfl⟩

theorem enter_sameSetup (j : Job) (q : Seq) (s : State) : SameSetup s (enter j q s) := ⟨⟨rfl, rfl, rfl⟩, rfl⟩

theorem latched_sameSetup (i : Instr) (s : State) : SameSetup s (latched i s) := by
  refine ⟨latched_sameBinding i s, ?_⟩
  cases i with
  | pageProgram a n buf => exact loadTx_cfg buf _
  | _ => rfl

theorem latch_sameSetup (op : BitVec 4) (a : Addr) (n : Nat) (s : State) : SameSetup s (latch op a n s) :=
  ⟨⟨rfl, rfl, rfl⟩, rfl⟩

/-! ## What a timeout leaves behind (R155, R202) -/

/-- The last events of `t` are 500 status reads of one wait, all answered `Ok` with the busy bit set, and the 499
delays between them; `s` gives them their form on the bus. -/
def EndsInBusyReads (s t : State) : Prop :=
  ∃ (q : Seq) (bs : List Byte) (b : Byte) (older : List Event), waiting q ∧ bs.length = 499 ∧
    (∀ x ∈ bs, busyBit x = true) ∧ busyBit b = true ∧
    t.events = okEvent s q .readStatus1 [b] :: busyEvents s q bs ++ older

/-- A part of an operation that keeps the setup of `s`, and times out on busy reads alone. -/
structure TimesOutBusy (s : State) (x : Result × State) : Prop where
  setup : SameSetup s x.2
  busy : x.1 = .timeout → EndsInBusyReads s x.2

/-- A bus command ends with `Ok` or `Fail` (R110). -/
theorem micro_ne_timeout (k : BusOp) (s : State) : (micro k s).1 ≠ .timeout := by
  rw [micro_result]
  split_ifs <;> simp

theorem micro_timesOutBusy {s u : State} (h : SameSetup s u) (k : BusOp) : TimesOutBusy s (micro k u) :=
  ⟨h.trans (micro_exchanged k u).sameSetup, fun ht => absurd ht (micro_ne_timeout k u)⟩

theorem waitIdle_timesOutBusy {s u : State} (h : SameSetup s u) (hq : waiting u.seq) : TimesOutBusy s (waitIdle u) := by
  refine ⟨h.trans (waitIdle_exchanged u).sameSetup, fun ht => ?_⟩
  have hstart : SameSetup s { u with pollCnt := 0 } := h.trans ⟨⟨rfl, rfl, rfl⟩, rfl⟩
  obtain ⟨bs, e, hbs, -, -, hevents, -, hend⟩ := (waitIdle_waited u).trace
  rcases hend with ⟨hok, -⟩ | ⟨hfail, -⟩ | ⟨-, hlen, rfl, hb⟩
  · simp [ht] at hok
  · simp [ht] at hfail
  · rw [statusEvent_congr hstart.cfg hstart.mode, busyEvents_congr hstart.cfg hstart.mode] at hevents
    exact ⟨u.seq, bs, _, u.events, hq, Nat.succ.inj hlen, hbs, hb, hevents⟩

/-- What follows an `Ok` decides; any other end of the first part stands (R161). -/
theorem andThen_timesOutBusy {s : State} {x : Result × State} {k : State → Result × State} (hx : TimesOutBusy s x)
    (hk : ∀ u, SameSetup s u → TimesOutBusy s (k u)) : TimesOutBusy s (andThen x k) := by
  rcases andThen_cases x k with ⟨-, h⟩ | ⟨-, h⟩ <;> rw [h]
  · exact hx
  · exact hk _ hx.setup

theorem writeSeq_timesOutBusy {s u : State} (h : SameSetup s u) (c : BracketCmd) : TimesOutBusy s (writeSeq c u) := by
  have command {v : State} (q : Seq) (k : BusOp) (hv : SameSetup s v) : TimesOutBusy s (micro k (setSeq q v)) :=
    micro_timesOutBusy (hv.trans (setSeq_sameSetup q v)) k
  have wait {v : State} (q : Seq) (hq : waiting q) (hv : SameSetup s v) : TimesOutBusy s (waitIdle (setSeq q v)) :=
    waitIdle_timesOutBusy (hv.trans (setSeq_sameSetup q v)) hq
  exact andThen_timesOutBusy (command .writeEnable .writeEnable h) fun _ h1 =>
    andThen_timesOutBusy (wait .waitIdlePre (.inl rfl) h1) fun _ h2 =>
      andThen_timesOutBusy (command .issueCommand c.busOp h2) fun _ h3 =>
        andThen_timesOutBusy (wait .waitIdlePost (.inr rfl) h3) fun _ h4 =>
          command .writeDisable .writeDisable h4

/-! ## How INIT ends (R131, R136) -/

@[simp] theorem selectGeometry_cfg (s : State) : (selectGeometry s).cfg = s.cfg := by rw [selectGeometry_eq]

@[simp] theorem concludeInit_seq (s : State) : (concludeInit s).seq = .idle := rfl

@[simp] theorem concludeInit_cfg (s : State) : (concludeInit s).cfg = s.cfg := rfl

@[simp] theorem concludeInit_res (s : State) : (concludeInit s).res = .ok := rfl

@[simp] theorem concludeInit_inited (s : State) : (concludeInit s).inited = true := rfl

/-- INIT ends in `IDLE`, with `Ok` and `INITED` set, or with `Fail` and `INITED` as it was. -/
theorem initialise_ends (s : State) :
    (initialise s).seq = .idle ∧ (initialise s).cfg = s.cfg ∧
      (((initialise s).res = .ok ∧ (initialise s).inited = true) ∨
        ((initialise s).res = .fail ∧ (initialise s).inited = s.inited)) := by
  have hhook := transportInit_exchanged (enter .init .probe { s with mode := s.cfg.modeStrap })
  have hread := hhook.trans (readId_exchanged _)
  rcases initialise_cases s with ⟨-, h⟩ | ⟨-, -, h⟩ | ⟨-, -, h⟩ <;> rw [h]
  · exact ⟨rfl, hhook.cfg, .inr ⟨rfl, hhook.inited⟩⟩
  · exact ⟨rfl, hread.cfg, .inr ⟨rfl, hread.inited⟩⟩
  · simp [hread.cfg]

/-- Settles O40: of the ways an instruction can end only the wait and the bracket can end with `Timeout`. -/
theorem timeoutMeansBusyReads : Obligations.TimeoutMeansBusyReads := by
  intro i s t hs h ht
  cases exec_ran hs h with
  | illegal w _ hend | rejected _ _ _ _ _ _ hend => subst hend; cases ht
  | init a n _ _ _ hend =>
    subst hend
    obtain ⟨-, -, ⟨hres, -⟩ | ⟨hres, -⟩⟩ := initialise_ends (latch 0x0 a n s) <;> cases hres.symm.trans ht
  | alone k _ _ _ hend | read _ _ _ k _ _ _ hend => subst hend; exact absurd ht (micro_ne_timeout k _)
  | wait hi _ hend =>
    subst hi hend
    exact ⟨.inr rfl, (waitIdle_timesOutBusy (enter_sameSetup _ _ s) (.inl rfl)).busy ht⟩
  | bracket c hi _ _ _ hend =>
    subst hend
    exact ⟨.inl ⟨c, hi⟩, (writeSeq_timesOutBusy (enter_sameSetup _ _ _) c).busy ht⟩

/-! ## The block takes the next request (R216) -/

/-- An operation that keeps the setup of a ready block leaves it ready. -/
theorem finish_ready {s u : State} (hr : Ready s) (h : SameSetup s u) (r : Result) : Ready (finish r u) := by
  obtain ⟨-, hwf, hinited⟩ := hr
  exact ⟨rfl, h.cfg ▸ hwf, h.inited.trans hinited⟩

/-- A block is not ready before INIT has ended with `Ok`. -/
theorem Ready.not_readyForInit {s : State} (hr : Ready s) : ¬ ReadyForInit s := by
  rintro ⟨-, -, hinited⟩
  simp [hr.2.2] at hinited

/-- Whatever its result, an instruction ends with `SEQ = IDLE` (R205). -/
theorem Ran.seq_idle {i : Instr} {s t : State} (hs : s.seq = .idle) (h : Ran i s t) : t.seq = .idle := by
  cases h with
  | illegal _ _ ht => subst ht; exact hs
  | init _ _ _ _ _ ht => subst ht; exact (initialise_ends _).1
  | alone _ _ _ _ ht | wait _ _ ht | read _ _ _ _ _ _ _ ht | rejected _ _ _ _ _ _ ht | bracket _ _ _ _ _ ht =>
    subst ht; rfl

/-- A ready block takes no INIT, and any other instruction leaves it ready. -/
theorem Ran.keeps_ready {i : Instr} {s t : State} (hr : Ready s) (h : Ran i s t) : Ready t := by
  cases h with
  | illegal _ _ ht => subst ht; exact hr
  | init _ _ _ hwf hinited _ => exact absurd ⟨hr.1, hwf, hinited⟩ hr.not_readyForInit
  | alone k _ _ _ ht =>
    subst ht
    exact finish_ready hr (micro_timesOutBusy (enter_sameSetup _ _ s) k).setup _
  | wait _ _ ht =>
    subst ht
    exact finish_ready hr (waitIdle_timesOutBusy (enter_sameSetup _ _ s) (.inl rfl)).setup _
  | read op a n k _ _ _ ht =>
    subst ht
    have hstart := ((latch_sameSetup op a n s).trans (enter_sameSetup (.readClass k) .issueCommand _)).trans
      (setSeq_sameSetup .issueCommand _)
    exact finish_ready hr (micro_timesOutBusy hstart k).setup _
  | rejected _ _ _ _ _ _ ht =>
    subst ht
    exact finish_ready hr (latched_sameSetup i s) _
  | bracket c _ _ _ _ ht =>
    subst ht
    have hstart := (latched_sameSetup i s).trans (enter_sameSetup (.writeClass c) .writeEnable _)
    exact finish_ready hr (writeSeq_timesOutBusy hstart c).setup _

/-- Before INIT has ended with `Ok`, INIT and ILLEGAL alone run: `Ok` makes the block ready, `Fail` leaves it as it was
(R136). -/
theorem Ran.ends_before_init {i : Instr} {s t : State} (hs : ReadyForInit s) (h : Ran i s t) :
    (t.res = .ok → Ready t) ∧ (t.res = .fail → ReadyForInit t) := by
  cases h with
  | illegal _ _ ht => subst ht; exact ⟨nofun, fun _ => hs⟩
  | init a n _ hwf hinited ht =>
    obtain ⟨hseq, hcfg, hend⟩ := initialise_ends (latch 0x0 a n s)
    rw [← ht] at hseq hcfg hend
    replace hwf : t.cfg.wf = true := hcfg ▸ hwf
    rcases hend with ⟨hres, hset⟩ | ⟨hres, hkept⟩ <;> rw [hres]
    · exact ⟨fun _ => ⟨hseq, hwf, hset⟩, nofun⟩
    · exact ⟨nofun, fun _ => ⟨hseq, hwf, hkept.trans hinited⟩⟩
  | alone _ _ hr _ _ | wait _ hr _ | read _ _ _ _ _ hr _ _ | rejected _ _ _ _ hr _ _ | bracket _ _ hr _ _ _ =>
    exact absurd hs hr.not_readyForInit

/-- Settles O54: one lemma for each part, over the ways an instruction can end. -/
theorem operationsEndIdle : Obligations.OperationsEndIdle := by
  intro i s t hs h
  have hran := exec_ran hs h
  exact ⟨hran.seq_idle hs, fun hr => hran.keeps_ready hr, fun hi => hran.ends_before_init hi⟩

end Sys2Proof.Machine

namespace Sys2Proof

/-! ## Decoder and encoder undo each other (R81, R90) -/

/-- A legal command word is built from its own fields (R81). -/
theorem mkCmdw_of_fields {w : Word} (hrsv : cmdwRsv w = 0) : mkCmdw (cmdwOp w) (cmdwAddr w) = w := by
  refine BitVec.eq_of_getLsbD_eq fun i hi => ?_
  have hzero : ∀ j, (cmdwRsv w).getLsbD j = false := by simp [hrsv]
  simp only [mkCmdw, cmdwOp, cmdwAddr, BitVec.getLsbD_append, BitVec.getLsbD_extractLsb']
  by_cases haddr : i < 24
  · simp [haddr]
  · by_cases hres : i < 28
    · have hbit := hzero (i - 24)
      simp only [cmdwRsv, BitVec.getLsbD_extractLsb', show i - 24 < 4 by omega, decide_true, Bool.true_and,
        show 24 + (i - 24) = i by omega] at hbit
      simp [haddr, show i - 24 < 4 by omega, hbit]
    · simp [haddr, show ¬ i - 24 < 4 by omega, show i - 24 - 4 < 4 by omega, show 28 + (i - 24 - 4) = i by omega]

/-- The opcode byte of a bus command decodes to the instruction that runs it (R90). -/
theorem decode_micro_opcodeOf {p : Params} (h : p.wf = true) (k : BusOp) :
    decode p (.micro (opcodeOf p.opcodes k)) = .ok (microInstr k) := by
  simp [decode, busOpOf_opcodeOf (Params.wf_distinct h)]

/-- The instruction that runs a bus command has that command's opcode byte (R90). -/
theorem encode_microInstr (p : Params) (k : BusOp) : encode p (microInstr k) = .micro (opcodeOf p.opcodes k) := by
  cases k <;> rfl

theorem mod_of_lenOk {p : Params} {n : Nat} (h : lenOk p n = true) : n % 2 ^ p.lenBits = n :=
  Nat.mod_eq_of_lt (of_decide_eq_true h)

/-- What makes a command word illegal, by its fields (R92, R93). -/
theorem illegalWord_iff (w : Word) : illegalWord w = true ↔ 7 ≤ (cmdwOp w).toNat ∨ cmdwRsv w ≠ 0 := by
  simp only [illegalWord, Bool.or_eq_true, decide_eq_true_eq]
  rfl

/-- Settles O5: a host request by the fields of its command word, a bus row by its opcode byte, the rest by name. -/
theorem decodeInvertsEncode : Obligations.DecodeInvertsEncode := by
  intro p i hp hi
  cases i with
  | init _ _ | read _ _ | fastRead _ _ | sectorErase _ _ | blockErase32 _ _ | blockErase64 _ _ =>
    simp [encode, decode, decodeHost, mod_of_lenOk hi]
  | pageProgram a n buf =>
    obtain ⟨hn, -⟩ : lenOk p n = true ∧ buf.length = n := by simpa [Instr.wf] using hi
    simp [encode, decode, decodeHost, mod_of_lenOk hn]
  | illegal w =>
    exact congrArg Except.ok (Machine.decodeHost_illegal ((illegalWord_iff w).mp hi) p 0 [])
  | readId => exact decode_micro_opcodeOf hp .readId
  | readStatus1 => exact decode_micro_opcodeOf hp .readStatus1
  | writeEnable => exact decode_micro_opcodeOf hp .writeEnable
  | writeDisable => exact decode_micro_opcodeOf hp .writeDisable
  | pageProgramCmd => exact decode_micro_opcodeOf hp .pageProgram
  | sectorEraseCmd => exact decode_micro_opcodeOf hp .sectorErase
  | blockErase32Cmd => exact decode_micro_opcodeOf hp .blockErase32
  | blockErase64Cmd => exact decode_micro_opcodeOf hp .blockErase64
  | chipErase => exact decode_micro_opcodeOf hp .chipErase
  | readCmd => exact decode_micro_opcodeOf hp .read
  | fastReadCmd => exact decode_micro_opcodeOf hp .fastRead
  | waitIdle | writeSeq => rfl

/-- A legal command word comes back from the instruction it decodes to, by its operation code (R81, R82). -/
theorem encode_decodeHost {w : Word} (h : illegalWord w = false) (p : Params) (lenw : Nat) (buf : List Byte) :
    encode p (decodeHost p w lenw buf) = .host w (lenw % 2 ^ p.lenBits) (if cmdwOp w = 3 then buf else []) := by
  obtain ⟨hlt, hrsv⟩ : (cmdwOp w).toNat < 7 ∧ cmdwRsv w = 0 := by
    rw [← Bool.not_eq_true, illegalWord_iff, not_or, not_le, ne_eq, not_not] at h
    exact h
  have hw := mkCmdw_of_fields hrsv
  have hop : cmdwOp w = BitVec.ofNat 4 (cmdwOp w).toNat := by simp
  generalize (cmdwOp w).toNat = k at hop hlt
  rw [hop] at hw
  interval_cases k <;> simp [decodeHost, hrsv, hop, encode, hw]

/-- Settles O6: a word by its fields, an opcode byte by the command it is found for. -/
theorem encodeInvertsDecode : Obligations.EncodeInvertsDecode := by
  refine ⟨fun p w lenw buf h => encode_decodeHost h p lenw buf, fun p b i h => ?_⟩
  cases hk : busOpOf p.opcodes b with
  | none => simp [decode, hk] at h
  | some k =>
    obtain rfl : microInstr k = i := by simpa [decode, hk] using h
    rw [encode_microInstr, opcodeOf_of_busOpOf hk]

/-- Settles O7: each word runs through the decoder. -/
theorem writtenOutWordsDecode : Obligations.WrittenOutWordsDecode := by
  refine ⟨?_, ?_, ?_, ?_, ?_, ?_, ?_, ?_, ?_, ?_, ?_, ?_, ?_, ?_, ?_, ?_, ?_, ?_, ?_, ?_⟩ <;> rfl

end Sys2Proof

namespace Sys2Proof.Machine

/-- Settles O11: an illegal word decodes to ILLEGAL, which writes `RES` alone (R92). -/
theorem illegalRequestFails : Obligations.IllegalRequestFails := by
  intro p w lenw buf s hbad hs
  rw [← cmdwOp_toNat, ne_eq, ← cmdwRsv_eq_zero_iff] at hbad
  exact ⟨congrArg Except.ok (decodeHost_illegal hbad p lenw buf), exec_illegal_idle w hs⟩

/-- Settles O57: the three codes, and no fourth. -/
theorem resultCodes : Obligations.ResultCodes := by
  refine ⟨rfl, rfl, rfl, fun r => ?_⟩
  cases r <;> decide

/-- Settles O1: reset writes these registers, whatever the parameters are. -/
theorem resetLeavesStatedValues : Obligations.ResetLeavesStatedValues := fun _ _ => ⟨rfl, rfl, rfl, rfl⟩

/-- Settles O19: everything an exchange writes stands in its state lemma. -/
theorem exchangeWritesNoRegister : Obligations.ExchangeWritesNoRegister := fun _ _ => rfl

end Sys2Proof.Machine

namespace Sys2Proof.Machine

/-! ## Admission: what is refused and what waits (R28, R31, R110) -/

/-- The three admissions: INIT's, none for ILLEGAL, and `whenReady` for every other instruction. -/
theorem admission_cases (i : Instr) :
    (∃ a n, i = .init a n) ∨ (∃ w, i = .illegal w) ∨ ∀ s, ∃ k, exec i s = whenReady i s k := by
  cases i with
  | init a n => exact .inl ⟨a, n, rfl⟩
  | illegal w => exact .inr (.inl ⟨w, rfl⟩)
  | _ => exact .inr (.inr (exec_eq_whenReady (by simp only [ne_eq, reduceCtorEq, not_false_eq_true, implies_true])
      (by simp only [ne_eq, reduceCtorEq, not_false_eq_true, implies_true])))

/-- A request that meets a busy block waits at the port, whatever it is (R28). -/
theorem exec_busy (i : Instr) {s : State} (hs : s.seq ≠ .idle) : exec i s = .next (waitAtPort i s) := by
  obtain ⟨a, n, rfl⟩ | ⟨w, rfl⟩ | h := admission_cases i
  · exact if_pos hs
  · exact if_pos hs
  · obtain ⟨k, hk⟩ := h s
    rw [hk]
    exact if_pos hs

theorem whenReady_parametersRefused (i : Instr) {s : State} (hs : s.seq = .idle) (hp : s.cfg.wf = false)
    (k : State → Host.Outcome State Fault Refusal) : whenReady i s k = .refused .parametersRefused := by
  simp [whenReady, hs, hp]

/-- Settles O15: both admissions look at the parameters right after the port. -/
theorem illFormedParametersRefused : Obligations.IllFormedParametersRefused := by
  intro i s hs hp hillegal
  obtain ⟨a, n, rfl⟩ | ⟨w, rfl⟩ | h := admission_cases i
  · simp [exec_init, whenReadyForInit, hs, hp]
  · exact absurd rfl (hillegal w)
  · obtain ⟨k, hk⟩ := h s
    rw [hk, whenReady_parametersRefused _ hs hp]

/-- Settles O13: a micro-operation is neither INIT nor ILLEGAL. -/
theorem microOperationsNeedInit : Obligations.MicroOperationsNeedInit := by
  intro i s hr hi
  refine exec_notInitialised (fun a n h => ?_) (fun w h => ?_) hr <;> simp [h, aloneOf] at hi

/-! ## Outcomes seen through a function -/

theorem outcomeMap_withinDevice (f : State → State) (k : BusOp) (s : State) (run : State → State) :
    outcomeMap f (withinDevice k s run) = withinDevice k s fun t => f (run t) := by
  unfold withinDevice
  split_ifs <;> rfl

theorem outcomeMap_whenReady (f : State → State) (i : Instr) {s : State} (hs : s.seq = .idle)
    (k : State → Host.Outcome State Fault Refusal) :
    outcomeMap f (whenReady i s k) = whenReady i s fun t => outcomeMap f (k t) := by
  unfold whenReady
  split_ifs <;> first | rfl | exact absurd hs ‹_›

/-! ## A step takes the decoded request (R5, R28) -/

/-- The first event of an accepted operation; none for a request that ended at once. -/
def firstEvent (t : State) : State := if t.seq = .idle then t else tick t

theorem takeRequest_eq (i : Instr) (s : State) : takeRequest i s = outcomeMap firstEvent (accept i s) := by
  unfold takeRequest
  cases accept i s <;> rfl

theorem step_of_request {s : State} {r : Request} {rest : List Request} {i : Instr} (hs : s.seq = .idle)
    (hp : s.port = r :: rest) (hd : decode s.cfg r = .ok i) : step s = takeRequest i { s with port := rest } := by
  simp [step, fetch, hs, hp, hd]

/-- Taking a request refuses what the whole operation refuses (R63, R137, R138). -/
theorem takeRequest_refused_iff (i : Instr) (s : State) (x : Refusal) :
    takeRequest i s = .refused x ↔ exec i s = .refused x := by
  rw [takeRequest_eq]
  obtain ⟨t, u, ht, hu⟩ | ⟨r, ht, hu⟩ := accept_sameKind i s <;> simp [ht, hu, outcomeMap]

theorem firstEvent_alone (k : BusOp) (s : State) :
    firstEvent (enter (.alone k) (aloneSeq k) s) = runAlone k (aloneSeq k) s :=
  if_neg (aloneSeq_ne_idle k)

theorem firstEvent_read (k : BusOp) (s : State) :
    firstEvent (enter (.readClass k) .issueCommand s) = runRead k s := rfl

/-- A read, a single command and an illegal request are done in the step that takes them (R39). -/
theorem takeRequest_eq_exec {i : Instr} {s : State} (hs : s.seq = .idle)
    (hi : (readOf i).isSome = true ∨ (aloneOf i).isSome = true ∨ ∃ w, i = .illegal w) :
    takeRequest i s = exec i s := by
  rw [takeRequest_eq]
  rcases hi with hi | hi | ⟨w, rfl⟩
  · obtain ⟨⟨op, a, n, k⟩, hi⟩ := Option.isSome_iff_exists.mp hi
    simp only [accept_readClass hi, exec_readClass hi, outcomeMap_whenReady _ _ hs, outcomeMap_withinDevice,
      firstEvent_read]
  · obtain ⟨k, hi⟩ := Option.isSome_iff_exists.mp hi
    simp only [accept_alone hi, exec_alone hi, outcomeMap_whenReady _ _ hs, acceptAlone, outcomeMap_withinDevice,
      firstEvent_alone]
    rfl
  · have haccept : accept (.illegal w) s = .next { s with res := .fail } := exec_illegal_idle w hs
    rw [haccept, exec_illegal_idle w hs]
    exact congrArg Host.Outcome.next (if_pos hs)

/-- Settles O9: the step's branches, one clause each. -/
theorem stepRunsDecodedRequest : Obligations.StepRunsDecodedRequest := by
  refine ⟨fun s r rest i hs hp hd => ?taken, fun s r rest b hs hp hd => ?unknown, fun s hs hp => ?none,
    fun s hs => step_of_busy hs⟩
  case taken =>
    rw [step_of_request hs hp hd]
    exact ⟨rfl, takeRequest_refused_iff i _, takeRequest_eq_exec (s := { s with port := rest }) hs⟩
  case unknown => simp [step, fetch, hs, hp, hd]
  case none =>
    refine ⟨deviceMoment s, by simp [step, fetch, hs, hp], rfl, fun d hd hidle => ?_⟩
    simp [hd, Env.complete, Device.complete_idle _ _ hidle]

/-! ## Requests outside the reference device (R63, R178, R74 (c)) -/

theorem reaches_reference {s : State} {d : Device} (he : s.env = .reference d) (k : BusOp) :
    reaches k s = d.holds k (descriptor s k) := by
  simp [reaches, he]

theorem withinDevice_outside {k : BusOp} {s : State} (h : reaches k s = false) (run : State → State) :
    withinDevice k s run = .refused .outsideDevice := by
  simp [withinDevice, h]

@[simp] theorem loadTx_env (buf : List Byte) (s : State) : (loadTx buf s).env = s.env := by
  unfold loadTx; split <;> rfl

@[simp] theorem latched_env (i : Instr) (s : State) : (latched i s).env = s.env := by
  cases i with
  | pageProgram a n buf => exact loadTx_env buf _
  | _ => rfl

/-! ### The page check (R57, R163) -/

/-- The page check on a page size that a table may have (R31 (b)): a mask is a remainder. -/
theorem pageCheck_iff {ps : Nat} (h : pageSizeOk ps = true) (addr : Addr) (len : Nat) :
    pageCheck ps addr len = true ↔ addr.toNat % ps + len ≤ ps := by
  obtain ⟨k, rfl⟩ := pageSizeOk_pow h
  simp only [pageCheck, Nat.and_two_pow_sub_one_eq_mod]
  split_ifs <;> simp <;> omega

/-- Settles O35: the page size is a power of two. -/
theorem pageCheckIsContainment : Obligations.PageCheckIsContainment := fun _ addr len h => pageCheck_iff h addr len

/-- An index of a well-formed table selects a page size that a table may have (R22, R31). -/
theorem pageSizeOk_pageSize {p : Params} {idx : Nat} (hp : p.wf = true) (hi : idx < p.geomTable.length) :
    pageSizeOk (pageSize p idx) = true := by
  obtain ⟨-, hall, -⟩ := Params.wf_table hp
  have hget : p.geomTable.getD idx (p.geomTable.headD default) = p.geomTable[idx] := by simp [hi]
  rw [pageSize, hget]
  exact hall _ (List.getElem_mem hi)

/-- The block's check on PAGE_PROGRAM is containment in one page of the selected entry (R57, R163). -/
theorem pageCheck_iff_contained {s : State} (hp : s.cfg.wf = true) (hg : s.geomIdx < s.cfg.geomTable.length) (a : Addr)
    (n : Nat) (buf : List Byte) :
    pageCheck (pageSize s.cfg s.geomIdx) a n = true ↔ contained (.pageProgram a n buf) s :=
  pageCheck_iff (pageSizeOk_pageSize hp hg) a n

/-- An instruction whose range is contained passes the page check where it makes one. -/
theorem pageCheck_of_contained {i : Instr} {s : State} (hp : s.cfg.wf = true)
    (hg : s.geomIdx < s.cfg.geomTable.length) (hc : contained i s) (a : Addr) (n : Nat) (buf : List Byte)
    (hi : i = .pageProgram a n buf) : pageCheck (pageSize s.cfg s.geomIdx) a n = true :=
  (pageCheck_iff_contained hp hg a n buf).mpr (hi ▸ hc)

/-- Settles O16: each request is refused where its command leaves the device, PAGE_PROGRAM after its check. -/
theorem outsideDeviceRefused : Obligations.OutsideDeviceRefused := by
  intro s d hr he
  refine ⟨fun i op a n k hi hout => ?read, fun i a n hi hout => ?erase, fun a n buf hg hc hout => ?program,
    fun i k hi hout => ?alone, fun c hout => ?writeSeq⟩
  case read =>
    rw [exec_readClass hi, whenReady_ready _ hr]
    refine withinDevice_outside ?_ _
    rw [reaches_reference (s := latch op a n s) he, descriptor_read (readOf_busOp hi)]
    rcases readOf_busOp hi with rfl | rfl <;> exact decide_eq_false (not_le.mpr hout)
  case erase =>
    rcases hi with rfl | rfl | rfl <;>
      · rw [exec_bracket rfl (by simp), whenReady_ready _ hr]
        refine withinDevice_outside ?_ _
        rw [reaches_reference ((latched_env _ s).trans he)]
        exact decide_eq_false (not_lt.mpr hout)
  case program =>
    rw [exec_pageProgram, whenReady_ready _ hr, pageProgram_latched,
      if_pos ((pageCheck_iff_contained hr.2.1 hg a n buf).mpr hc)]
    refine withinDevice_outside ?_ _
    rw [reaches_reference (d := d) (by simpa using he)]
    simp only [BracketCmd.busOp, Device.holds, Device.holdsProgram, Cmd.start, descriptor, loadTx_reqAddr,
      latch_reqAddr, loadTx_txBuf_length, latch_reqLen, Option.getD_some, Bool.and_eq_false_iff,
      decide_eq_false_iff_not]
    omega
  case alone =>
    rw [exec_alone hi, whenReady_ready _ hr]
    exact withinDevice_outside ((reaches_reference he k).trans hout) _
  case writeSeq =>
    rw [exec_bracket rfl (by simp), whenReady_ready _ hr]
    exact withinDevice_outside ((reaches_reference he _).trans hout) _

/-- Loading `TXBUF` writes it and the counter of free values alone (R29). -/
theorem loadTx_eq (buf : List Byte) (s : State) :
    loadTx buf s = { s with txBuf := (loadTx buf s).txBuf, free := (loadTx buf s).free } := by
  unfold loadTx
  split <;> rfl

/-- A buffer of the stated length is `TXBUF` (R29). -/
theorem loadTx_txBuf_of_length {buf : List Byte} {s : State} (h : buf.length = s.reqLen) :
    (loadTx buf s).txBuf = buf := by
  simp [loadTx, h]

/-- Settles O36: the check comes after the latching and before everything else. -/
theorem pageProgramOutsidePageFails : Obligations.PageProgramOutsidePageFails := by
  intro a n buf s hr hg hc
  have hcheck : ¬ pageCheck (pageSize s.cfg s.geomIdx) a n = true :=
    fun h => hc ((pageCheck_iff_contained hr.2.1 hg a n buf).mp h)
  refine ⟨finish .fail (loadTx buf (latch 0x3 a n s)), ?runs, ?frame,
    loadTx_txBuf_of_length (s := latch 0x3 a n s)⟩
  case runs => rw [exec_pageProgram, whenReady_ready _ hr, pageProgram_latched, if_neg hcheck]
  case frame =>
    obtain ⟨hs, -, -⟩ := hr
    rw [loadTx_eq]
    simp [finish, latch, hs]

end Sys2Proof.Machine

namespace Sys2Proof.Machine

/-! ## What no event of an operation changes (R6, R28) -/

/-- `t` has the parameters of `s` and the requests at its port. -/
structure SameHost (s t : State) : Prop where
  cfg : t.cfg = s.cfg
  port : t.port = s.port

theorem SameHost.trans {s t u : State} (h : SameHost s t) (k : SameHost t u) : SameHost s u :=
  ⟨k.cfg.trans h.cfg, k.port.trans h.port⟩

theorem Exchanged.sameHost {s t : State} (h : Exchanged s t) : SameHost s t := ⟨h.cfg, h.port⟩

theorem finish_sameHost (r : Result) (s : State) : SameHost s (finish r s) := ⟨rfl, rfl⟩

theorem setSeq_sameHost (q : Seq) (s : State) : SameHost s (setSeq q s) := ⟨rfl, rfl⟩

theorem advance_sameHost (q : Seq) (s : State) : SameHost s (advance q s) := by cases q <;> exact ⟨rfl, rfl⟩

theorem finishWith_micro_sameHost (k : BusOp) (s : State) : SameHost s (finishWith (micro k s)) :=
  (micro_exchanged k s).sameHost.trans (finish_sameHost _ _)

theorem onward_sameHost (x : Result × State) {k : State → State} (hk : ∀ s, SameHost s (k s)) :
    SameHost x.2 (onward x k) := by
  rcases onward_cases x k with ⟨-, h⟩ | ⟨-, h⟩ <;> rw [h]
  · exact hk _
  · exact finish_sameHost _ _

theorem tickWait_sameHost {k : State → State} (hk : ∀ s, SameHost s (k s)) (s : State) :
    SameHost s (tickWait k s) := by
  have hpoll := (poll_exchanged s).sameHost
  rcases tickWait_cases k s with ⟨-, h⟩ | ⟨-, r, -, h⟩ | ⟨-, -, h⟩ <;> rw [h]
  · exact ⟨rfl, rfl⟩
  · exact hpoll.trans (onward_sameHost (r, (poll s).2) hk)
  · exact ⟨hpoll.cfg, hpoll.port⟩

theorem tickBracket_sameHost (c : BracketCmd) (s : State) : SameHost s (tickBracket c s) := by
  have hcommand (k : BusOp) (q : Seq) : SameHost s (onward (micro k s) (advance q)) :=
    (micro_exchanged k s).sameHost.trans (onward_sameHost _ (advance_sameHost q))
  unfold tickBracket
  split
  · exact hcommand .writeEnable _
  · exact tickWait_sameHost (setSeq_sameHost _) s
  · exact hcommand c.busOp _
  · exact tickWait_sameHost (setSeq_sameHost _) s
  · exact finishWith_micro_sameHost .writeDisable s
  · exact ⟨rfl, rfl⟩
  · exact ⟨rfl, rfl⟩

/-- The five things one event of INIT can do (R131): the hook fails or succeeds, the identity read fails or succeeds,
the log call ends it. -/
theorem tickInit_cases (s : State) :
    (s.phase = .logging ∧ tickInit s = concludeInit s) ∨
    (s.phase = .probing ∧ (readId s).1.ok = true ∧
      tickInit s = { selectGeometry { (readId s).2 with idBuf := identOf (readId s).1.rx } with phase := .logging }) ∨
    (s.phase = .probing ∧ (readId s).1.ok = false ∧ tickInit s = finish .fail (readId s).2) ∨
    (s.phase ≠ .logging ∧ (transportInit s).1 = true ∧ tickInit s = { (transportInit s).2 with phase := .probing }) ∨
    (s.phase ≠ .logging ∧ (transportInit s).1 = false ∧ tickInit s = finish .fail (transportInit s).2) := by
  unfold tickInit
  dsimp only
  split_ifs with hlog hprobe hread hhook
  · exact .inl ⟨hlog, rfl⟩
  · exact .inr (.inl ⟨hprobe, hread, rfl⟩)
  · exact .inr (.inr (.inl ⟨hprobe, by simpa using hread, rfl⟩))
  · exact .inr (.inr (.inr (.inl ⟨hlog, hhook, rfl⟩)))
  · exact .inr (.inr (.inr (.inr ⟨hlog, by simpa using hhook, rfl⟩)))

theorem selectGeometry_sameHost (s : State) : SameHost s (selectGeometry s) := by
  rw [selectGeometry_eq]
  exact ⟨rfl, rfl⟩

theorem tickInit_sameHost (s : State) : SameHost s (tickInit s) := by
  have hread := (readId_exchanged s).sameHost
  have hhook := (transportInit_exchanged s).sameHost
  rcases tickInit_cases s with ⟨-, h⟩ | ⟨-, -, h⟩ | ⟨-, -, h⟩ | ⟨-, -, h⟩ | ⟨-, -, h⟩ <;> rw [h]
  · exact ⟨rfl, rfl⟩
  · have hselect := selectGeometry_sameHost { (readId s).2 with idBuf := identOf (readId s).1.rx }
    exact ⟨hselect.cfg.trans hread.cfg, hselect.port.trans hread.port⟩
  · exact hread.trans (finish_sameHost _ _)
  · exact ⟨hhook.cfg, hhook.port⟩
  · exact hhook.trans (finish_sameHost _ _)

theorem tick_sameHost (s : State) : SameHost s (tick s) := by
  unfold tick
  split
  · exact ⟨rfl, rfl⟩
  · exact tickInit_sameHost s
  · exact finishWith_micro_sameHost _ s
  · exact tickBracket_sameHost _ s
  · exact finishWith_micro_sameHost _ s
  · exact tickWait_sameHost (finish_sameHost _) s

/-- Settles O10: the step is an event of the operation in progress, and `exec` puts the request back. -/
theorem requestWaitsWhileBusy : Obligations.RequestWaitsWhileBusy := by
  intro s hs
  refine ⟨fun t h => ?_, fun i => exec_busy i hs⟩
  rw [step_of_busy hs] at h
  cases h
  exact (tick_sameHost s).port

/-- Accepting a request keeps the parameters (R6). -/
theorem accept_cfg {i : Instr} {s t : State} (hs : s.seq = .idle) (h : accept i s = .next t) : t.cfg = s.cfg := by
  cases accept_accepted hs h with
  | illegal _ _ ht | init _ _ _ _ _ ht | alone _ _ _ _ ht | wait _ _ ht | read _ _ _ _ _ _ _ ht => subst ht; rfl
  | rejected _ _ _ _ _ _ ht | bracket _ _ _ _ _ ht => subst ht; exact (latched_sameSetup i s).cfg

/-- Settles O53: acceptance and events keep the record. -/
theorem parametersNeverChange : Obligations.ParametersNeverChange := by
  intro s t h
  rcases step_next h with ⟨-, rfl⟩ | ⟨-, -, rfl⟩ | ⟨r, rest, i, hs, -, -, htake⟩
  · exact (tick_sameHost s).cfg
  · rfl
  · obtain ⟨u, hu, rfl⟩ := takeRequest_next htake
    have hcfg : u.cfg = s.cfg := accept_cfg (s := { s with port := rest }) hs hu
    split
    · exact hcfg
    · exact (tick_sameHost u).cfg.trans hcfg

/-! ## One event of an operation (R5, R24, R39) -/

/-- `t` has one event more than `s`, which carries the value `SEQ` had in `s`. -/
def OneEvent (s t : State) : Prop := ∃ e : Event, t.events = e :: s.events ∧ e.seq = s.seq

theorem micro_oneEvent (k : BusOp) (s : State) : OneEvent s (micro k s).2 := ⟨_, micro_events k s, rfl⟩

theorem poll_oneEvent (s : State) : OneEvent s (poll s).2 :=
  micro_oneEvent .readStatus1 { s with pollCnt := s.pollCnt + 1 }

theorem OneEvent.onward {s : State} {x : Result × State} (h : OneEvent s x.2) {k : State → State}
    (hk : ∀ s, (k s).events = s.events) : OneEvent s (onward x k) := by
  unfold OneEvent
  rwa [onward_events x hk]

theorem tickWait_oneEvent {k : State → State} (hk : ∀ s, (k s).events = s.events) (s : State) :
    OneEvent s (tickWait k s) := by
  rcases tickWait_cases k s with ⟨-, h⟩ | ⟨-, r, -, h⟩ | ⟨-, -, h⟩ <;> rw [h]
  · exact ⟨_, rfl, rfl⟩
  · exact OneEvent.onward (x := (r, (poll s).2)) (poll_oneEvent s) hk
  · exact poll_oneEvent s

theorem tickBracket_oneEvent (c : BracketCmd) {s : State} (hidle : s.seq ≠ .idle) (hprobe : s.seq ≠ .probe) :
    OneEvent s (tickBracket c s) := by
  unfold tickBracket
  split
  · exact (micro_oneEvent .writeEnable s).onward (advance_events _)
  · exact tickWait_oneEvent (setSeq_events _) s
  · exact (micro_oneEvent c.busOp s).onward (advance_events _)
  · exact tickWait_oneEvent (setSeq_events _) s
  · exact micro_oneEvent .writeDisable s
  · exact absurd ‹_› hidle
  · exact absurd ‹_› hprobe

theorem selectGeometry_events (s : State) : (selectGeometry s).events = s.events := by rw [selectGeometry_eq]

theorem tickInit_oneEvent (s : State) : OneEvent s (tickInit s) := by
  have hread : OneEvent s (readId s).2 := ⟨_, readId_events s, rfl⟩
  rcases tickInit_cases s with ⟨-, h⟩ | ⟨-, -, h⟩ | ⟨-, -, h⟩ | ⟨-, -, h⟩ | ⟨-, -, h⟩ <;> rw [h]
  · exact ⟨_, rfl, rfl⟩
  · obtain ⟨e, he, hseq⟩ := hread
    exact ⟨e, (selectGeometry_events _).trans he, hseq⟩
  · exact hread
  · exact ⟨_, rfl, rfl⟩
  · exact ⟨_, rfl, rfl⟩

/-- An operation in progress makes one event (R5). -/
theorem tick_oneEvent {s : State} (hc : coherent s) (hs : s.seq ≠ .idle) : OneEvent s (tick s) := by
  cases hj : s.job with
  | none => simp only [coherent, hj] at hc; exact absurd hc.1 hs
  | init => rw [tick, hj]; exact tickInit_oneEvent s
  | readClass k | alone k => rw [tick, hj]; exact micro_oneEvent k s
  | writeClass c =>
    simp only [coherent, hj] at hc
    obtain ⟨-, hprobe, -⟩ := hc
    rw [tick, hj]
    exact tickBracket_oneEvent c hs hprobe
  | wait => rw [tick, hj]; exact tickWait_oneEvent (k := finish .ok) (fun _ => rfl) s

/-- In `IDLE` no operation is in progress (R24). -/
theorem coherent.job_none {s : State} (hc : coherent s) (hs : s.seq = .idle) : s.job = .none ∧ s.phase = .start := by
  cases hj : s.job <;> simp [coherent, hj, hs] at hc ⊢
  exact hc

/-! ### Acceptance (R39) -/

theorem loadTx_frame (buf : List Byte) (s : State) :
    (loadTx buf s).events = s.events ∧ (loadTx buf s).pollCnt = s.pollCnt := by
  rw [loadTx_eq]
  exact ⟨rfl, rfl⟩

@[simp] theorem latched_events (i : Instr) (s : State) : (latched i s).events = s.events := by
  cases i with
  | pageProgram a n buf => exact (loadTx_frame buf _).1
  | _ => rfl

/-- Acceptance makes no event (R39). -/
theorem accept_events {i : Instr} {s t : State} (hs : s.seq = .idle) (h : accept i s = .next t) :
    t.events = s.events := by
  cases accept_accepted hs h with
  | illegal _ _ ht | init _ _ _ _ _ ht | alone _ _ _ _ ht | wait _ _ ht | read _ _ _ _ _ _ _ ht => subst ht; rfl
  | rejected _ _ _ _ _ _ ht | bracket _ _ _ _ _ ht => subst ht; exact latched_events i s

/-- A request that ends when it is accepted ends with `Fail` (R92, R163). -/
theorem accept_res_of_idle {i : Instr} {s t : State} (hs : s.seq = .idle) (h : accept i s = .next t)
    (ht : t.seq = .idle) : t.res = .fail := by
  cases accept_accepted hs h with
  | illegal _ _ h' | rejected _ _ _ _ _ _ h' => subst h'; rfl
  | alone k _ _ _ h' => subst h'; exact absurd ht (aloneSeq_ne_idle k)
  | init _ _ _ _ _ h' | wait _ _ h' | read _ _ _ _ _ _ _ h' | bracket _ _ _ _ _ h' => subst h'; cases ht

/-- What is accepted is a coherent place, if the state before was one (R24, R39). -/
theorem accept_coherent {i : Instr} {s t : State} (hc : coherent s) (hs : s.seq = .idle) (h : accept i s = .next t) :
    coherent t := by
  cases accept_accepted hs h with
  | illegal _ _ ht => subst ht; exact hc
  | init _ _ _ _ hn ht => subst ht; exact ⟨rfl, by simp, hn⟩
  | alone k _ hr _ ht => subst ht; exact ⟨aloneSeq_ne_idle k, rfl, hr.2.2⟩
  | wait _ hr ht => subst ht; exact ⟨rfl, .inl rfl, hr.2.2⟩
  | read _ _ _ _ hi hr _ ht => subst ht; exact ⟨readOf_busOp hi, rfl, rfl, hr.2.2⟩
  | rejected _ _ _ _ _ _ ht => subst ht; exact ⟨rfl, rfl⟩
  | bracket _ _ hr _ _ ht =>
    subst ht
    exact ⟨by simp, by simp, .inl rfl, (latched_sameBinding i s).inited.trans hr.2.2⟩

/-- Settles O49: the three kinds of step; acceptance makes no event and its first event carries the first state. -/
theorem stepIsOneEvent : Obligations.StepIsOneEvent := by
  intro s t hc h
  rcases step_next h with ⟨hs, rfl⟩ | ⟨hs, hp, rfl⟩ | ⟨r, rest, i, hs, hp, hd, htake⟩
  · exact .inl ⟨hs, tick_oneEvent hc hs⟩
  · exact .inr (.inl ⟨hs, hp, hs, rfl⟩)
  · obtain ⟨u, hu, rfl⟩ := takeRequest_next htake
    have hseq := accept_seq (s := { s with port := rest }) hs hu
    have hevents : u.events = s.events := accept_events (s := { s with port := rest }) hs hu
    refine .inr (.inr ⟨hs, r, rest, i, u, hp, hd, hu, ?_⟩)
    split_ifs with hidle
    · refine .inl ⟨hidle, ?_, rfl, accept_res_of_idle (s := { s with port := rest }) hs hu hidle, hevents⟩
      exact (hseq.resolve_left fun h' => h'.2 hidle).2
    · refine .inr ⟨(hseq.resolve_right fun h' => hidle h'.1).1, hidle, ?_⟩
      rw [← hevents]
      exact tick_oneEvent (accept_coherent (s := { s with port := rest }) hc hs hu) hidle

/-! ## The order of `SEQ` in a bracket (R24, R39) -/

/-- After a bus command of a bracket: the next state of the sequence, or the end with a result other than `Ok`. -/
theorem onward_seq (x : Result × State) {k : State → State} {q : Seq} (hk : ∀ s, (k s).seq = q) :
    (onward x k).seq = q ∨ ((onward x k).seq = .idle ∧ (onward x k).res ≠ .ok) := by
  rcases onward_cases x k with ⟨-, h⟩ | ⟨hne, h⟩ <;> rw [h]
  · exact .inl (hk _)
  · exact .inr ⟨rfl, hne⟩

/-- The same after one event of a wait, which may also go on. -/
theorem tickWait_seq {k : State → State} {q : Seq} (hk : ∀ s, (k s).seq = q) (s : State) :
    (tickWait k s).seq = s.seq ∨ (tickWait k s).seq = q ∨
      ((tickWait k s).seq = .idle ∧ (tickWait k s).res ≠ .ok) := by
  rcases tickWait_cases k s with ⟨-, h⟩ | ⟨-, r, -, h⟩ | ⟨-, -, h⟩ <;> rw [h]
  · exact .inl rfl
  · exact .inr (onward_seq _ hk)
  · exact .inl (poll_exchanged s).seq

/-- Settles O50: the branches of a bracket's event, in the order of R24. -/
theorem seqAdvancesInOrder : Obligations.SeqAdvancesInOrder := by
  intro s c hc hj
  simp only [coherent, hj] at hc
  obtain ⟨hidle, hprobe, -⟩ := hc
  have htick : tick s = tickBracket c s := by rw [tick, hj]
  rw [htick]
  cases hs : s.seq with
  | idle => exact absurd hs hidle
  | probe => exact absurd hs hprobe
  | writeEnable =>
    rw [show tickBracket c s = onward (writeEnable s) (advance .waitIdlePre) by rw [tickBracket, hs]]
    rcases onward_seq (writeEnable s) (advance_seq .waitIdlePre) with h | ⟨h, hne⟩
    · exact .inr (.inr (.inl ⟨rfl, h⟩))
    · exact .inl ⟨h, fun hok => absurd hok hne⟩
  | issueCommand =>
    rw [show tickBracket c s = onward (micro c.busOp s) (advance .waitIdlePost) by rw [tickBracket, hs]]
    rcases onward_seq (micro c.busOp s) (advance_seq .waitIdlePost) with h | ⟨h, hne⟩
    · exact .inr (.inr (.inr (.inr (.inl ⟨rfl, h⟩))))
    · exact .inl ⟨h, fun hok => absurd hok hne⟩
  | waitIdlePre =>
    rw [show tickBracket c s = tickWait (setSeq .issueCommand) s by rw [tickBracket, hs]]
    rcases tickWait_seq (setSeq_seq .issueCommand) s with h | h | ⟨h, hne⟩
    · exact .inr (.inl ⟨h.trans hs, .inl rfl⟩)
    · exact .inr (.inr (.inr (.inl ⟨rfl, h⟩)))
    · exact .inl ⟨h, fun hok => absurd hok hne⟩
  | waitIdlePost =>
    rw [show tickBracket c s = tickWait (setSeq .writeDisable) s by rw [tickBracket, hs]]
    rcases tickWait_seq (setSeq_seq .writeDisable) s with h | h | ⟨h, hne⟩
    · exact .inr (.inl ⟨h.trans hs, .inr rfl⟩)
    · exact .inr (.inr (.inr (.inr (.inr ⟨rfl, h⟩))))
    · exact .inl ⟨h, fun hok => absurd hok hne⟩
  | writeDisable =>
    rw [show tickBracket c s = finishWith (writeDisable s) by rw [tickBracket, hs]]
    exact .inl ⟨rfl, fun _ => rfl⟩

end Sys2Proof.Machine

namespace Sys2Proof.Machine

/-! ## A whole operation as its events (R5, R65 (a); log 5) -/

/-- At most `n` events of operations in progress lead from one state to another. -/
inductive Leads : Nat → State → State → Prop
  | refl (n : Nat) (s : State) : Leads n s s
  | event {n : Nat} {s t : State} (hs : s.seq ≠ .idle) (h : Leads n (tick s) t) : Leads (n + 1) s t

theorem Leads.mono {n m : Nat} {s t : State} (h : Leads n s t) (hnm : n ≤ m) : Leads m s t := by
  induction h generalizing m with
  | refl => exact .refl _ _
  | event hs _ ih =>
    obtain ⟨m, rfl⟩ : ∃ k, m = k + 1 := ⟨m - 1, by omega⟩
    exact .event hs (ih (by omega))

/-- The event of one bus command, and what follows it if it ended with `Ok` (R39). -/
theorem Leads.command {n : Nat} {s : State} {x : Result × State} {k l : State → State} (hs : s.seq ≠ .idle)
    (htick : tick s = onward x k) (hk : Leads n (k x.2) (l x.2)) : Leads (n + 1) s (onward x l) := by
  refine .event hs ?_
  rw [htick]
  rcases x with ⟨r, u⟩
  cases r with
  | ok => exact hk
  | fail | timeout => exact .refl _ _

/-! ### Waits -/

/-- A wait goes on only after a good status read that shows busy and is not the last (R153). -/
theorem pollOutcome_again {r : Result} {s : State} (h : pollOutcome r s = .again) :
    r = .ok ∧ busyBit s.srLast = true ∧ s.pollCnt ≠ Config.pollBound := by
  unfold pollOutcome at h
  split at h
  · cases h
  · cases h
  · split_ifs at h with hidle hlast
    exact ⟨rfl, by simpa using hidle, hlast⟩

/-- A wait with `f + 1` reads left, and what follows it if it ends with `Ok`: at most one event for each read and one
for each delay between them (R153). While `SEQ` and the operation stay, every event is one of this wait. -/
theorem Leads.wait {n : Nat} {k l : State → State} {q : Seq} {j : Job} (hq : q ≠ .idle)
    (htick : ∀ u : State, u.seq = q → u.job = j → tick u = tickWait k u)
    (hk : ∀ u : State, u.job = j → Leads n (k u) (l u))
    (f : Nat) (s : State) (hs : s.seq = q) (hj : s.job = j) (hp : s.phase = .start)
    (hbound : s.pollCnt + (f + 1) = Config.pollBound) :
    Leads (n + (2 * f + 1)) s (onward (pollLoop (f + 1) s) l) := by
  induction f generalizing s with
  | zero =>
    rw [pollLoop_succ]
    rcases tickWait_cases k s with ⟨h, -⟩ | ⟨-, r, ho, h⟩ | ⟨-, ho, -⟩
    · simp [hp] at h
    · rw [ho]
      exact .command (hs ▸ hq) ((htick s hs hj).trans h) (hk _ ((poll_exchanged s).job.trans hj))
    · exact absurd ((poll_pollCnt s).trans hbound) (pollOutcome_again ho).2.2
  | succ f ih =>
    have hx := poll_exchanged s
    rw [pollLoop_succ]
    rcases tickWait_cases k s with ⟨h, -⟩ | ⟨-, r, ho, h⟩ | ⟨-, ho, h⟩
    · simp [hp] at h
    · rw [ho]
      exact (Leads.command (hs ▸ hq) ((htick s hs hj).trans h) (hk _ (hx.job.trans hj))).mono (by omega)
    · rw [ho]
      let v : State := { (poll s).2 with phase := .delaying }
      let w : State := delayUs (poll s).2.cfg.pollDelayUs (poll s).2
      have hread : tick s = v := (htick s hs hj).trans h
      have hv : v.seq = q := hx.seq.trans hs
      have hdelay : tick v = w := by
        rw [htick v hv (hx.job.trans hj), tickWait, if_pos rfl]
        simp only [v, w, delayUs, emit, deviceMoment, useAnswer, nextAnswer, hx.phase.trans hp]
      refine .event (hs ▸ hq) ?_
      rw [hread]
      refine .event (hv ▸ hq) ?_
      rw [hdelay]
      refine ih w (hx.seq.trans hs) (hx.job.trans hj) (hx.phase.trans hp) ?_
      have hcount : w.pollCnt = s.pollCnt + 1 := poll_pollCnt s
      omega

/-- A whole WAIT_IDLE with what follows it: 500 reads and 499 delays at most (R153). -/
theorem Leads.waitIdle {n : Nat} {k l : State → State} {s : State} (hq : s.seq ≠ .idle) (hp : s.phase = .start)
    (htick : ∀ u : State, u.seq = s.seq → u.job = s.job → tick u = tickWait k u)
    (hk : ∀ u : State, u.job = s.job → Leads n (k u) (l u)) :
    Leads (n + 999) { s with pollCnt := 0 } (onward (waitIdle s) l) :=
  Leads.wait (j := s.job) hq htick hk 499 _ rfl rfl hp rfl

theorem onward_finish (x : Result × State) : onward x (finish .ok) = finishWith x := by
  rcases x with ⟨r, s⟩
  cases r <;> rfl

/-! ### Brackets -/

/-- What follows an `Ok`, at the grain of events and as a whole (R8, R39). -/
theorem finishWith_andThen (x : Result × State) (k : State → Result × State) :
    finishWith (andThen x k) = onward x fun s => finishWith (k s) := by
  rcases x with ⟨r, s⟩
  cases r <;> rfl

/-- An event of a bracket in progress. -/
theorem tick_bracket {c : BracketCmd} {u : State} (hj : u.job = .writeClass c) : tick u = tickBracket c u := by
  rw [tick, hj]

/-- The bracket is five parts: one event for each of the three commands, at most 999 for each wait (R160). -/
theorem runBracket_leads (c : BracketCmd) (s : State) :
    Leads 2001 (enter (.writeClass c) .writeEnable s) (runBracket c s) := by
  have hwait {n : Nat} {q r : Seq} {l : State → State} {u : State} (hq : waiting q) (hu : u.job = .writeClass c)
      (htick : ∀ v : State, v.seq = q → tickBracket c v = tickWait (setSeq r) v)
      (hk : ∀ v : State, v.job = .writeClass c → Leads n (setSeq r v) (l v)) :
      Leads (n + 999) { setSeq q u with pollCnt := 0 } (onward (waitIdle (setSeq q u)) l) := by
    refine Leads.waitIdle (k := setSeq r) ?_ rfl (fun v hv hj => ?_) (fun v hj => hk v (hj.trans hu))
    · rcases hq with rfl | rfl <;> simp
    · exact (tick_bracket (hj.trans hu)).trans (htick v hv)
  have disable (u : State) (hu : u.job = .writeClass c) :
      Leads 1 (setSeq .writeDisable u) (finishWith (writeDisable (setSeq .writeDisable u))) :=
    .event (by simp) ((tick_bracket (u := setSeq .writeDisable u) hu).symm ▸ .refl _ _)
  have post (u : State) (hu : u.job = .writeClass c) : Leads 1000 (advance .waitIdlePost u)
      (onward (waitIdle (setSeq .waitIdlePost u)) fun v => finishWith (writeDisable (setSeq .writeDisable v))) :=
    hwait (q := .waitIdlePost) (.inr rfl) hu (fun v hv => by rw [tickBracket, hv]) disable
  have command (u : State) (hu : u.job = .writeClass c) : Leads 1001 (setSeq .issueCommand u)
      (onward (micro c.busOp (setSeq .issueCommand u)) fun v => onward (waitIdle (setSeq .waitIdlePost v)) fun w =>
        finishWith (writeDisable (setSeq .writeDisable w))) :=
    .command (by simp) (tick_bracket (u := setSeq .issueCommand u) hu) (post _ ((micro_exchanged _ _).job.trans hu))
  have pre (u : State) (hu : u.job = .writeClass c) : Leads 2000 (advance .waitIdlePre u)
      (onward (waitIdle (setSeq .waitIdlePre u)) fun v => onward (micro c.busOp (setSeq .issueCommand v)) fun w =>
        onward (waitIdle (setSeq .waitIdlePost w)) fun x => finishWith (writeDisable (setSeq .writeDisable x))) :=
    hwait (q := .waitIdlePre) (.inl rfl) hu (fun v hv => by rw [tickBracket, hv]) command
  unfold runBracket writeSeq
  simp only [finishWith_andThen]
  exact .command (by simp) (tick_bracket rfl) (pre _ (micro_exchanged _ _).job)

/-! ### INIT -/

/-- A good identity read is its exchange alone (R132). -/
theorem readId_of_ok {s : State} (h : (nextAnswer s).ok = true) : readId s = xfer (descriptor s .readId) s := by
  have hok : (xfer (descriptor s .readId) s).1.ok = true := h
  unfold readId deliver
  dsimp only
  rw [if_pos hok]

/-- A failed one leaves any bytes in `ID_BUF` (90_conflicts.md C10). -/
theorem readId_of_fail {s : State} (h : (nextAnswer s).ok = false) :
    readId s = ((xfer (descriptor s .readId) s).1,
      { (xfer (descriptor s .readId) s).2 with idBuf := identOf (xfer (descriptor s .readId) s).1.rx }) := by
  have hok : ¬ (xfer (descriptor s .readId) s).1.ok = true := by simp [h]
  unfold readId deliver
  dsimp only
  rw [if_neg hok]

@[simp] theorem readId_ok (s : State) : (readId s).1.ok = (nextAnswer s).ok := rfl

/-- The identity read does not look at the place inside INIT. -/
theorem readId_phase (s : State) (p : Phase) :
    readId { s with phase := p } = ((readId s).1, { (readId s).2 with phase := p }) := by
  cases h : (nextAnswer s).ok
  · rw [readId_of_fail (s := s) h, readId_of_fail (s := { s with phase := p }) h]
    rfl
  · rw [readId_of_ok (s := s) h, readId_of_ok (s := { s with phase := p }) h]
    rfl

@[simp] theorem selectGeometry_job (s : State) : (selectGeometry s).job = s.job := by rw [selectGeometry_eq]

@[simp] theorem selectGeometry_seq (s : State) : (selectGeometry s).seq = s.seq := by rw [selectGeometry_eq]

theorem selectGeometry_phase (s : State) (p : Phase) :
    selectGeometry { s with phase := p } = { selectGeometry s with phase := p } := by
  cases hscan : scan s.cfg s.idBuf <;> simp [selectGeometry, hscan]

/-- An event of INIT in progress. -/
theorem tick_init {u : State} (hj : u.job = .init) : tick u = tickInit u := by rw [tick, hj]

/-- The first event of INIT is the hook (R131). -/
theorem tickInit_start {s : State} (hp : s.phase = .start) :
    tickInit s = if (transportInit s).1 then { (transportInit s).2 with phase := .probing }
      else finish .fail (transportInit s).2 := by
  simp [tickInit, hp]

/-- The second is the identity read (R131, R132). -/
theorem tickInit_probing (s : State) :
    tickInit { s with phase := .probing } =
      if (readId s).1.ok then
        { selectGeometry { (readId s).2 with idBuf := identOf (readId s).1.rx } with phase := .logging }
      else finish .fail (readId s).2 := by
  have hselect := selectGeometry_phase { (readId s).2 with idBuf := identOf (readId s).1.rx } .probing
  simp only [tickInit, reduceCtorEq, if_false, if_true, readId_phase]
  rw [hselect]
  rfl

/-- The third is the log call, with the end of INIT (R131). -/
theorem tickInit_logging (s : State) : tickInit { s with phase := .logging } = concludeInit s := rfl

/-- INIT is three events at most: the hook, the identity read, the log call (R131). -/
theorem initialise_leads (s : State) :
    Leads 3 (enter .init .probe { s with mode := s.cfg.modeStrap }) (initialise s) := by
  have hcases := initialise_cases s
  generalize he : enter .init .probe { s with mode := s.cfg.modeStrap } = e at hcases ⊢
  obtain ⟨hjob, hseq, hphase⟩ : e.job = .init ∧ e.seq = .probe ∧ e.phase = .start := by subst he; exact ⟨rfl, rfl, rfl⟩
  have hhook := transportInit_exchanged e
  have hread := hhook.trans (readId_exchanged (transportInit e).2)
  have event {n : Nat} {u t : State} (p : Phase) (hj : u.job = .init) (hq : u.seq = .probe)
      (h : Leads n (tickInit { u with phase := p }) t) : Leads (n + 1) { u with phase := p } t :=
    .event (by simp [hq]) ((tick_init (u := { u with phase := p }) hj).symm ▸ h)
  refine .event (by simp [hseq]) ?_
  rw [tick_init hjob, tickInit_start hphase]
  rcases hcases with ⟨h1, h⟩ | ⟨h1, h2, h⟩ | ⟨h1, h2, h⟩ <;> rw [h]
  · rw [if_neg (Bool.eq_false_iff.mp h1)]
    exact .refl _ _
  · rw [if_pos h1]
    refine event .probing (hhook.job.trans hjob) (hhook.seq.trans hseq) ?_
    rw [tickInit_probing, if_neg (Bool.eq_false_iff.mp h2)]
    exact .refl _ _
  · rw [if_pos h1]
    refine event .probing (hhook.job.trans hjob) (hhook.seq.trans hseq) ?_
    rw [tickInit_probing, if_pos h2]
    refine event .logging ((selectGeometry_job _).trans (hread.job.trans hjob))
      ((selectGeometry_seq _).trans (hread.seq.trans hseq)) ?_
    rw [tickInit_logging]
    exact .refl _ _

/-! ### Every operation -/

/-- An operation that runs is accepted, and at most 2001 events lead from there to its end. -/
theorem Ran.leads {i : Instr} {s t : State} (hs : s.seq = .idle) (h : Ran i s t) :
    ∃ u, accept i s = .next u ∧ Leads 2001 u t := by
  cases h with
  | illegal w hi ht => subst hi ht; exact ⟨_, exec_illegal_idle w hs, .refl _ _⟩
  | init a n hi hp hn ht =>
    subst hi ht
    exact ⟨_, (accept_init a n s).trans (whenReadyForInit_ready _ ⟨hs, hp, hn⟩ _),
      (initialise_leads (latch 0x0 a n s)).mono (by omega)⟩
  | alone k hi hr hd ht =>
    subst ht
    refine ⟨_, by rw [accept_alone hi, whenReady_ready _ hr, acceptAlone, withinDevice_inside hd], ?_⟩
    exact .event (aloneSeq_ne_idle k) (.refl _ _)
  | wait hi hr ht =>
    subst hi ht
    refine ⟨_, by rw [accept_waitIdle, whenReady_ready _ hr], ?_⟩
    rw [← onward_finish]
    exact (Leads.waitIdle (n := 0) (k := finish .ok) (s := enter .wait .waitIdlePre s) (by simp) rfl
      (fun u _ hj => by rw [tick, hj]; rfl) fun _ _ => .refl _ _).mono (by omega)
  | read op a n k hi hr hd ht =>
    subst ht
    refine ⟨_, by rw [accept_readClass hi, whenReady_ready _ hr, withinDevice_inside hd], ?_⟩
    exact .event (by simp) (.refl _ _)
  | rejected a n buf hi hr hc ht =>
    subst hi ht
    exact ⟨_, by rw [accept_pageProgram, whenReady_ready _ hr, if_neg (by simp [hc])]; rfl, .refl _ _⟩
  | bracket c hi hr hc hd ht =>
    subst ht
    refine ⟨_, ?_, runBracket_leads c (latched i s)⟩
    cases i with
    | pageProgram a n buf =>
      cases hi
      rw [accept_pageProgram, whenReady_ready _ hr, if_pos (hc _ _ _ rfl)]
      exact withinDevice_inside hd _
    | _ =>
      rw [accept_bracket hi (by simp), whenReady_ready _ hr]
      exact withinDevice_inside hd _

/-! ### Steps of the machine (R5) -/

theorem run_succ {n : Nat} {s t : State} (h : step s = .next t) :
    Host.Core.run Sys2Proof.core (n + 1) s = Host.Core.run Sys2Proof.core n t := by
  simp only [Host.Core.run]
  rw [show Sys2Proof.core.step s = .next t from h]

/-- Events of operations in progress are steps, and before each `SEQ` is not `IDLE`. -/
theorem Leads.run {n : Nat} {s t : State} (h : Leads n s t) :
    ∃ k ≤ n, Host.Core.run Sys2Proof.core k s = .next t ∧
      ∀ (m : Nat) (u : State), m < k → Host.Core.run Sys2Proof.core m s = .next u → u.seq ≠ .idle := by
  induction h with
  | refl n s => exact ⟨0, by omega, rfl, fun _ _ h => by omega⟩
  | event hs _ ih =>
    obtain ⟨k, hk, hrun, hbefore⟩ := ih
    refine ⟨k + 1, by omega, (run_succ (step_of_busy hs)).trans hrun, fun m u hm hu => ?_⟩
    cases m with
    | zero => cases hu; exact hs
    | succ m => exact hbefore m u (by omega) ((run_succ (step_of_busy hs)).symm.trans hu)

/-- An operation ends in `IDLE` (R205). -/
theorem exec_seq_idle {i : Instr} {s t : State} (hs : s.seq = .idle) (h : exec i s = .next t) : t.seq = .idle :=
  (exec_ran hs h).seq_idle hs

/-- Settles O51: acceptance and the first event are one step, each further event is one more. -/
theorem operationIsItsEvents : Obligations.OperationIsItsEvents := by
  intro s t r rest i hs hp hd h
  obtain ⟨u, hu, hleads⟩ := Ran.leads (s := { s with port := rest }) hs (exec_ran hs h)
  have hstep : step s = .next (firstEvent u) := by
    rw [step_of_request hs hp hd, takeRequest_eq, hu]
    rfl
  suffices hfirst : Leads 2000 (firstEvent u) t by
    obtain ⟨k, hk, hrun, hbefore⟩ := hfirst.run
    refine ⟨k + 1, by omega, by omega, (run_succ hstep).trans hrun, fun m v hm hmk hv => ?_⟩
    obtain ⟨m, rfl⟩ : ∃ l, m = l + 1 := ⟨m - 1, by omega⟩
    exact hbefore m v (by omega) ((run_succ hstep).symm.trans hv)
  unfold firstEvent
  cases hleads with
  | refl => rw [if_pos (exec_seq_idle (s := { s with port := rest }) hs h)]; exact .refl _ _
  | event hbusy hrest => rw [if_neg hbusy]; exact hrest

end Sys2Proof.Machine

namespace Sys2Proof.Machine

/-! ## The invariant (R22, R23, R25, R28, R39, R70) -/

/-- The part of the invariant that does not depend on the place in an operation. -/
structure Sound (s : State) : Prop where
  params : s.cfg.wf = true
  geomIdx : s.geomIdx < s.cfg.geomTable.length
  pollCnt : s.pollCnt ≤ Config.pollBound
  reqLen : s.reqLen < 2 ^ s.cfg.lenBits
  device : s.env.wf

theorem MachineInv.sound {s : State} (h : MachineInv s) : Sound s :=
  ⟨h.params, h.geomIdx, h.pollCnt, h.reqLen, (device?_wf_iff s).mp h.device⟩

theorem Sound.exchanged {s t : State} (h : Sound s) (hx : Exchanged s t) (hp : t.pollCnt ≤ Config.pollBound)
    (he : t.env.wf) : Sound t := by
  obtain ⟨hparams, hgeom, -, hlen, -⟩ := h
  refine ⟨?_, ?_, hp, ?_, he⟩
  · rwa [hx.cfg]
  · rwa [hx.geomIdx, hx.cfg]
  · rwa [hx.reqLen, hx.cfg]

theorem micro_sound {s : State} (h : Sound s) (k : BusOp) : Sound (micro k s).2 :=
  h.exchanged (micro_exchanged k s) ((micro_pollCnt k s).le.trans h.pollCnt) (micro_env_wf k s h.device)

theorem poll_sound {s : State} (h : Sound s) (hlt : s.pollCnt < Config.pollBound) : Sound (poll s).2 :=
  h.exchanged (poll_exchanged s) ((poll_pollCnt s).le.trans hlt) (micro_env_wf _ _ h.device)

theorem deviceMoment_sound {s : State} (h : Sound s) : Sound (deviceMoment s) :=
  ⟨h.params, h.geomIdx, h.pollCnt, h.reqLen, Env.complete_wf _ _ h.device⟩

theorem readId_sound {s : State} (h : Sound s) : Sound (readId s).2 := by
  refine h.exchanged (readId_exchanged s) ?_ ?_
  · simpa [readId, xfer_state] using h.pollCnt
  · simpa [readId, xfer_state] using respond_wf _ _ _ h.device

/-- An operation that ends leaves the invariant, if `GEOM_IDX` is as before INIT until INIT has ended with `Ok`. -/
theorem finish_inv {s : State} (h : Sound s) (hg : s.inited = false → s.geomIdx = 0) (r : Result) :
    MachineInv (finish r s) where
  params := h.params
  geomIdx := h.geomIdx
  fallback := fun hn => .inl (hg hn)
  pollCnt := h.pollCnt
  polling := fun hq => by simp [waiting] at hq
  reqLen := h.reqLen
  place := ⟨rfl, rfl⟩
  device := (device?_wf_iff _).mpr h.device

theorem finish_inv_of_inited {s : State} (h : Sound s) (hn : s.inited = true) (r : Result) : MachineInv (finish r s) :=
  finish_inv h (by simp [hn]) r

/-- Inside an operation of an initialised block the invariant is a sound state at a coherent place, with a poll left in
a wait. -/
theorem Sound.inv {s : State} (h : Sound s) (hn : s.inited = true) (hc : coherent s)
    (hp : waiting s.seq → s.job ≠ .alone .readStatus1 → s.pollCnt < Config.pollBound) : MachineInv s where
  params := h.params
  geomIdx := h.geomIdx
  fallback := by simp [hn]
  pollCnt := h.pollCnt
  polling := hp
  reqLen := h.reqLen
  place := hc
  device := (device?_wf_iff s).mpr h.device

/-! ### One event -/

theorem onward_inv {x : Result × State} {k : State → State} (h : Sound x.2) (hn : x.2.inited = true)
    (hk : MachineInv (k x.2)) : MachineInv (onward x k) := by
  rcases onward_cases x k with ⟨-, h'⟩ | ⟨-, h'⟩ <;> rw [h']
  · exact hk
  · exact finish_inv_of_inited h hn _

/-- An event of a wait: `stay` is the invariant of the wait itself, `hk` what follows it. -/
theorem tickWait_inv {k : State → State} {s : State} (h : Sound s) (hlt : s.pollCnt < Config.pollBound)
    (hn : s.inited = true)
    (stay : ∀ u : State, Sound u → SameBinding s u → u.seq = s.seq → u.job = s.job → u.pollCnt < Config.pollBound →
      u.phase = .start ∨ u.phase = .delaying → MachineInv u)
    (hk : ∀ u : State, Sound u → SameBinding s u → u.job = s.job → MachineInv (k u)) : MachineInv (tickWait k s) := by
  have hx := poll_exchanged s
  have hpoll := poll_sound h hlt
  rcases tickWait_cases k s with ⟨-, h'⟩ | ⟨-, r, -, h'⟩ | ⟨-, ho, h'⟩ <;> rw [h']
  · have hd := deviceMoment_sound h
    exact stay _ ⟨hd.params, hd.geomIdx, hd.pollCnt, hd.reqLen, hd.device⟩ ⟨rfl, rfl, rfl⟩ rfl rfl hlt (.inl rfl)
  · exact onward_inv (x := (r, (poll s).2)) hpoll (hx.inited.trans hn) (hk _ hpoll hx.sameBinding hx.job)
  · refine stay _ ⟨hpoll.params, hpoll.geomIdx, hpoll.pollCnt, hpoll.reqLen, hpoll.device⟩
      ⟨hx.mode, hx.geomIdx, hx.inited⟩ hx.seq hx.job ?_ (.inr rfl)
    exact lt_of_le_of_ne hpoll.pollCnt (pollOutcome_again ho).2.2

/-- A place inside a bracket, with `POLL_CNT` below the bound in its waits. -/
theorem bracket_inv {c : BracketCmd} {s : State} (h : Sound s) (hn : s.inited = true) (hj : s.job = .writeClass c)
    (hidle : s.seq ≠ .idle) (hprobe : s.seq ≠ .probe)
    (hphase : s.phase = .start ∨ s.phase = .delaying ∧ waiting s.seq)
    (hp : waiting s.seq → s.pollCnt < Config.pollBound) : MachineInv s := by
  refine h.inv hn ?_ fun hw _ => hp hw
  simp only [coherent, hj]
  exact ⟨hidle, hprobe, hphase, hn⟩

theorem tickBracket_inv {c : BracketCmd} {s : State} (h : MachineInv s) (hj : s.job = .writeClass c) :
    MachineInv (tickBracket c s) := by
  have hplace := h.place
  simp only [coherent, hj] at hplace
  obtain ⟨hidle, hprobe, -, hn⟩ := hplace
  have hs := h.sound
  have command (k : BusOp) (q : Seq) (hq : waiting q) : MachineInv (onward (micro k s) (advance q)) := by
    have hm := micro_sound hs k
    have hx := micro_exchanged k s
    refine onward_inv hm (hx.inited.trans hn) ?_
    have hstart : Sound { (micro k s).2 with pollCnt := 0 } :=
      ⟨hm.params, hm.geomIdx, Nat.zero_le _, hm.reqLen, hm.device⟩
    rcases hq with rfl | rfl <;>
      exact bracket_inv ⟨hstart.params, hstart.geomIdx, hstart.pollCnt, hstart.reqLen, hstart.device⟩
        (hx.inited.trans hn) (hx.job.trans hj) (by simp [advance]) (by simp [advance]) (.inl rfl)
        fun _ => Nat.zero_lt_succ _
  have wait (q : Seq) (hw : waiting s.seq) (hq : q ≠ .idle ∧ q ≠ .probe ∧ ¬ waiting q) :
      MachineInv (tickWait (setSeq q) s) := by
    have hlt := h.polling hw (by simp [hj])
    refine tickWait_inv hs hlt hn (fun u hu hb hq' hj' hlt' hphase => ?_) (fun u hu hb hj' => ?_)
    · refine bracket_inv hu (hb.inited.trans hn) (hj'.trans hj) (hq' ▸ hidle) (hq' ▸ hprobe) ?_ fun _ => hlt'
      exact hphase.imp id fun hd => ⟨hd, hq' ▸ hw⟩
    · exact bracket_inv ⟨hu.params, hu.geomIdx, hu.pollCnt, hu.reqLen, hu.device⟩ (hb.inited.trans hn) (hj'.trans hj)
        hq.1 hq.2.1 (.inl rfl) fun hw' => absurd hw' hq.2.2
  unfold tickBracket
  split
  · exact command .writeEnable _ (.inl rfl)
  · next hseq => exact wait _ (.inl hseq) (by simp [waiting])
  · exact command c.busOp _ (.inr rfl)
  · next hseq => exact wait _ (.inr hseq) (by simp [waiting])
  · exact finish_inv_of_inited (micro_sound hs .writeDisable) ((micro_exchanged _ s).inited.trans hn) _
  · exact h
  · exact h

/-! ### INIT -/

/-- A scan that finds an entry finds an index of the table (R133). -/
theorem scanFrom_lt {id : Ident} {t : List Geometry} {i j : Nat} (h : scanFrom id i t = some j) :
    j < i + t.length := by
  induction t generalizing i with
  | nil => simp [scanFrom] at h
  | cons e rest ih =>
    simp only [scanFrom] at h
    simp only [List.length_cons]
    split_ifs at h
    · cases h; omega
    · have := ih h; omega

theorem selectGeometry_geomIdx_lt {s : State} (h : s.geomIdx < s.cfg.geomTable.length) :
    (selectGeometry s).geomIdx < s.cfg.geomTable.length := by
  unfold selectGeometry
  split
  · next j hj => simpa using scanFrom_lt hj
  · exact h

theorem selectGeometry_sound {s : State} (h : Sound s) : Sound (selectGeometry s) := by
  have hlt := selectGeometry_geomIdx_lt h.geomIdx
  rw [selectGeometry_eq]
  exact ⟨h.params, hlt, h.pollCnt, h.reqLen, h.device⟩

/-- A place inside INIT; after a match `GEOM_IDX` is no longer the fallback. -/
theorem init_inv {s : State} (h : Sound s) (hj : s.job = .init) (hq : s.seq = .probe) (hn : s.inited = false)
    (hphase : s.phase ≠ .delaying) (hg : s.geomIdx = 0 ∨ s.phase = .logging) : MachineInv s where
  params := h.params
  geomIdx := h.geomIdx
  fallback := fun _ => hg
  pollCnt := h.pollCnt
  polling := by simp [hq, waiting]
  reqLen := h.reqLen
  place := by
    simp only [coherent, hj]
    exact ⟨hq, hphase, hn⟩
  device := (device?_wf_iff s).mpr h.device

@[simp] theorem selectGeometry_inited (s : State) : (selectGeometry s).inited = s.inited := by rw [selectGeometry_eq]

theorem tickInit_inv {s : State} (h : MachineInv s) (hj : s.job = .init) : MachineInv (tickInit s) := by
  have hplace := h.place
  simp only [coherent, hj] at hplace
  obtain ⟨hq, -, hn⟩ := hplace
  have hs := h.sound
  have hread := readId_sound hs
  have hx := readId_exchanged s
  have hhook : Sound (transportInit s).2 :=
    have hd := deviceMoment_sound hs
    ⟨hd.params, hd.geomIdx, hd.pollCnt, hd.reqLen, hd.device⟩
  have hzero (hp : s.phase ≠ .logging) : s.geomIdx = 0 := (h.fallback hn).resolve_right hp
  rcases tickInit_cases s with ⟨-, h'⟩ | ⟨-, -, h'⟩ | ⟨hp, -, h'⟩ | ⟨hp, -, h'⟩ | ⟨hp, -, h'⟩ <;> rw [h']
  · have hd := deviceMoment_sound hs
    exact finish_inv_of_inited (s := { logCall (identityTag s) s with inited := true })
      ⟨hd.params, hd.geomIdx, hd.pollCnt, hd.reqLen, hd.device⟩ rfl .ok
  · have hsel := selectGeometry_sound (s := { (readId s).2 with idBuf := identOf (readId s).1.rx })
      ⟨hread.params, hread.geomIdx, hread.pollCnt, hread.reqLen, hread.device⟩
    exact init_inv ⟨hsel.params, hsel.geomIdx, hsel.pollCnt, hsel.reqLen, hsel.device⟩
      ((selectGeometry_job _).trans (hx.job.trans hj)) ((selectGeometry_seq _).trans (hx.seq.trans hq))
      ((selectGeometry_inited _).trans (hx.inited.trans hn)) (by simp) (.inr rfl)
  · exact finish_inv hread (fun _ => hx.geomIdx.trans (hzero (by simp [hp]))) _
  · exact init_inv ⟨hhook.params, hhook.geomIdx, hhook.pollCnt, hhook.reqLen, hhook.device⟩ hj hq hn (by simp)
      (.inl (hzero hp))
  · exact finish_inv hhook (fun _ => hzero hp) _

/-- Every event of an operation keeps the invariant. -/
theorem tick_inv {s : State} (h : MachineInv s) : MachineInv (tick s) := by
  have hs := h.sound
  have hplace := h.place
  cases hj : s.job with
  | none => rw [tick, hj]; exact h
  | init => rw [tick, hj]; exact tickInit_inv h hj
  | readClass k | alone k =>
    simp only [coherent, hj] at hplace
    rw [tick, hj]
    exact finish_inv_of_inited (micro_sound hs k) ((micro_exchanged k s).inited.trans (by tauto)) _
  | writeClass c => rw [tick, hj]; exact tickBracket_inv h hj
  | wait =>
    simp only [coherent, hj] at hplace
    obtain ⟨hq, -, hn⟩ := hplace
    rw [tick, hj]
    refine tickWait_inv hs (h.polling (.inl hq) (by simp [hj])) hn (fun u hu hb hq' hj' hlt hphase => ?_)
      fun u hu hb _ => finish_inv_of_inited hu (hb.inited.trans hn) _
    refine hu.inv (hb.inited.trans hn) ?_ fun _ _ => hlt
    simp only [coherent, hj'.trans hj]
    exact ⟨hq'.trans hq, hphase, hb.inited.trans hn⟩

/-! ### Acceptance -/

/-- A well-formed instruction's length fits `REQ_LEN` (R28). -/
theorem latched_reqLen_of_wf {i : Instr} {s : State} (h : s.reqLen < 2 ^ s.cfg.lenBits) (hi : i.wf s.cfg = true) :
    (latched i s).reqLen < 2 ^ s.cfg.lenBits := by
  cases i with
  | pageProgram a n buf =>
    obtain ⟨hn, -⟩ : lenOk s.cfg n = true ∧ buf.length = n := by simpa [Instr.wf] using hi
    exact (loadTx_reqLen buf _).trans_lt (of_decide_eq_true hn)
  | init | read | fastRead | sectorErase | blockErase32 | blockErase64 => exact of_decide_eq_true hi
  | _ => exact h

/-- So does the length of every decoded request, taken modulo `2 ^ LEN_BITS` (R28; log 1). -/
theorem latched_reqLen_of_decode {i : Instr} {s : State} {r : Request} (h : s.reqLen < 2 ^ s.cfg.lenBits)
    (hd : decode s.cfg r = .ok i) : (latched i s).reqLen < 2 ^ s.cfg.lenBits := by
  have hmod (n : Nat) : n % 2 ^ s.cfg.lenBits < 2 ^ s.cfg.lenBits := Nat.mod_lt _ (by positivity)
  cases r with
  | host w lenw buf =>
    obtain rfl := Except.ok.inj hd
    unfold decodeHost
    dsimp only
    split_ifs
    · exact h
    · split
      case h_4 => exact (loadTx_reqLen buf _).trans_lt (hmod lenw)
      case h_8 => exact h
      all_goals exact hmod lenw
  | micro b =>
    cases hb : busOpOf s.cfg.opcodes b with
    | none => simp [decode, hb] at hd
    | some k =>
      obtain rfl : microInstr k = i := by simpa [decode, hb] using hd
      cases k <;> exact h
  | pseudo op => cases op <;> cases hd <;> exact h

theorem latched_sound {i : Instr} {s : State} (h : Sound s) (hlen : (latched i s).reqLen < 2 ^ s.cfg.lenBits) :
    Sound (latched i s) := by
  have hb := latched_sameSetup i s
  have hp : (latched i s).pollCnt = s.pollCnt := by
    cases i with
    | pageProgram a n buf => exact (loadTx_frame buf _).2
    | _ => rfl
  refine ⟨?_, ?_, hp.le.trans h.pollCnt, ?_, ?_⟩
  · rw [hb.cfg]; exact h.params
  · rw [hb.cfg, hb.geomIdx]; exact h.geomIdx
  · rwa [hb.cfg]
  · rw [latched_env]; exact h.device

/-- The operands a read latches (R28). -/
theorem latched_of_readOf {i : Instr} {op : BitVec 4} {a : Addr} {n : Nat} {k : BusOp}
    (h : readOf i = some (op, a, n, k)) (s : State) : latched i s = latch op a n s := by
  cases i <;> simp only [readOf, reduceCtorEq, Option.some.injEq, Prod.mk.injEq] at h <;>
    (obtain ⟨rfl, rfl, rfl, -⟩ := h; rfl)

theorem accept_inv {i : Instr} {s t : State} (h : MachineInv s) (hs : s.seq = .idle)
    (hlen : (latched i s).reqLen < 2 ^ s.cfg.lenBits) (h' : accept i s = .next t) : MachineInv t := by
  have hsound := h.sound
  have hl := latched_sound hsound hlen
  have hb := latched_sameBinding i s
  have hc := accept_coherent h.place hs h'
  have hphase : s.phase = .start := (h.place.job_none hs).2
  cases accept_accepted hs h' with
  | illegal _ _ ht =>
    subst ht
    exact ⟨h.params, h.geomIdx, h.fallback, h.pollCnt, h.polling, h.reqLen, h.place, h.device⟩
  | init a n hi _ hn ht =>
    subst hi ht
    exact init_inv ⟨hl.params, hl.geomIdx, hl.pollCnt, hl.reqLen, hl.device⟩ rfl rfl hn (by simp)
      (.inl ((h.fallback hn).resolve_right (by simp [hphase])))
  | alone k _ hr _ ht =>
    subst ht
    refine Sound.inv ⟨hsound.params, hsound.geomIdx, hsound.pollCnt, hsound.reqLen, hsound.device⟩ hr.2.2 hc
      fun hw hne => absurd hw ?_
    cases k <;> simp [aloneSeq, waiting] at hne ⊢
  | wait _ hr ht =>
    subst ht
    exact Sound.inv ⟨hsound.params, hsound.geomIdx, Nat.zero_le _, hsound.reqLen, hsound.device⟩ hr.2.2 hc
      fun _ _ => Nat.zero_lt_succ _
  | read op a n k hi hr _ ht =>
    subst ht
    rw [latched_of_readOf hi] at hl
    exact Sound.inv ⟨hl.params, hl.geomIdx, hl.pollCnt, hl.reqLen, hl.device⟩ hr.2.2 hc fun hw => by
      simp [waiting] at hw
  | rejected _ _ _ _ hr _ ht => subst ht; exact finish_inv_of_inited hl (hb.inited.trans hr.2.2) _
  | bracket c _ hr _ _ ht =>
    subst ht
    exact Sound.inv ⟨hl.params, hl.geomIdx, hl.pollCnt, hl.reqLen, hl.device⟩ (hb.inited.trans hr.2.2) hc fun hw => by
      simp [waiting] at hw

/-! ### Steps and whole operations -/

theorem step_inv {s t : State} (h : MachineInv s) (ht : step s = .next t) : MachineInv t := by
  rcases step_next ht with ⟨-, rfl⟩ | ⟨-, -, rfl⟩ | ⟨r, rest, i, hs, -, hd, htake⟩
  · exact tick_inv h
  · have hd := deviceMoment_sound h.sound
    exact ⟨h.params, h.geomIdx, h.fallback, h.pollCnt, h.polling, h.reqLen, h.place, (device?_wf_iff _).mpr hd.device⟩
  · obtain ⟨u, hu, rfl⟩ := takeRequest_next htake
    have hrest : MachineInv { s with port := rest } :=
      ⟨h.params, h.geomIdx, h.fallback, h.pollCnt, h.polling, h.reqLen, h.place, h.device⟩
    have hlen := latched_reqLen_of_decode (s := { s with port := rest }) h.reqLen hd
    have hinv := accept_inv hrest hs hlen hu
    split
    · exact hinv
    · exact tick_inv hinv

theorem Leads.inv {n : Nat} {s t : State} (h : Leads n s t) (hs : MachineInv s) : MachineInv t := by
  induction h with
  | refl => exact hs
  | event _ _ ih => exact ih (tick_inv hs)

/-- A whole operation is its acceptance and its events, which keep the invariant (log 5). -/
theorem exec_inv {i : Instr} {s t : State} (h : MachineInv s) (hi : i.wf s.cfg = true) (ht : exec i s = .next t) :
    MachineInv t := by
  by_cases hs : s.seq = .idle
  · obtain ⟨u, hu, hleads⟩ := (exec_ran hs ht).leads hs
    exact hleads.inv (accept_inv h hs (latched_reqLen_of_wf h.reqLen hi) hu)
  · obtain rfl := Host.Outcome.next.inj ((exec_busy i hs).symm.trans ht)
    exact ⟨h.params, h.geomIdx, h.fallback, h.pollCnt, h.polling, h.reqLen, h.place, h.device⟩

/-- Settles O4: events and acceptance keep the invariant, and an operation is made of them. -/
theorem stepKeepsInvariant : Obligations.StepKeepsInvariant :=
  ⟨fun _ _ h ht => step_inv h ht, fun _ _ _ h hi ht => exec_inv h hi ht⟩

/-! ### Reset (R38, R230, R231) -/

theorem resetWith_inv {p : Params} {e : Env} (hp : p.wf = true) (he : e.wf) : MachineInv (State.resetWith p e) where
  params := hp
  geomIdx := List.length_pos_iff.mpr (Params.wf_table hp).1
  fallback := fun _ => .inl rfl
  pollCnt := Nat.zero_le _
  polling := fun hq => by simp [waiting, State.resetWith] at hq
  reqLen := Nat.two_pow_pos _
  place := ⟨rfl, rfl⟩
  device := (device?_wf_iff _).mpr he

/-- Settles O3: the registers after reset meet each clause. -/
theorem invariantHoldsAtReset : Obligations.InvariantHoldsAtReset := by
  intro p e hp he
  refine resetWith_inv hp ?_
  cases e with
  | oracle => trivial
  | reference d => exact he d rfl

/-- Settles O2: a reset of the block is a reset with the parameters and agents it has. -/
theorem resetKeepsDevice : Obligations.ResetKeepsDevice := by
  intro s
  refine ⟨rfl, rfl, rfl, rfl, rfl, rfl, rfl, rfl, fun h => ?_⟩
  have hreset := resetWith_inv h.params h.sound.device
  exact ⟨hreset.params, hreset.geomIdx, hreset.fallback, hreset.pollCnt, hreset.polling, hreset.reqLen, hreset.place,
    hreset.device⟩

end Sys2Proof.Machine

namespace Sys2Proof.Machine

/-! ## One exchange and its agents (R12, R110) -/

theorem nextAnswer_of_cons {s : State} {a : Answer} {rest : List Answer} (h : s.answers = a :: rest) :
    nextAnswer s = a := by
  simp [nextAnswer, h]

theorem respond_oracle {s : State} (h : s.env = .oracle) (a : Answer) (cmd : Cmd) :
    respond s a cmd = (fit s.free cmd.rxLen a.rx, .oracle) := by
  simp [respond, h]

/-- The oracle's bytes, where it answers as many as are asked for (R12). -/
theorem respond_oracle_of_length {s : State} (h : s.env = .oracle) {a : Answer} {cmd : Cmd}
    (hlen : a.rx.length = cmd.rxLen) : respond s a cmd = (a.rx, .oracle) := by
  rw [respond_oracle h, fit_of_length hlen]

theorem respond_reference {s : State} {d : Device} (h : s.env = .reference d) (a : Answer) (cmd : Cmd) :
    respond s a cmd =
      (fit s.free cmd.rxLen (d.exchange s.cfg.opcodes s.free a cmd).1,
        .reference (d.exchange s.cfg.opcodes s.free a cmd).2) := by
  simp [respond, h]

/-! ## Reads (R175 to R177) -/

/-- Everything a read does (R175). -/
theorem runRead_eq {k : BusOp} (hk : k = .read ∨ k = .fastRead) (s : State) :
    runRead k s =
      { s with
        seq := .idle, rxBuf := (respond s (nextAnswer s) (descriptor s k)).1
        env := (respond s (nextAnswer s) (descriptor s k)).2
        res := if (nextAnswer s).ok then .ok else .fail, answers := s.answers.tail, free := s.free + 1
        job := .none, phase := .start
        events := ⟨.issueCommand, some (descriptor s k), frame s.cfg s.mode (descriptor s k),
          if (nextAnswer s).ok then .ok (respond s (nextAnswer s) (descriptor s k)).1 else .fail⟩ :: s.events } := by
  rcases hk with rfl | rfl <;> rfl

theorem commandOf_of_readOf {i : Instr} {op : BitVec 4} {a : Addr} {n : Nat} {k : BusOp}
    (h : readOf i = some (op, a, n, k)) : commandOf i = some k := by
  simp [commandOf, h]

/-- Settles O25: a read inside the device runs its one exchange, with its operands latched. -/
theorem readRunsOneExchange : Obligations.ReadRunsOneExchange := by
  intro i op a n k s hi hr hd
  have hk := readOf_busOp hi
  have hlatched := latched_of_readOf hi s
  have hdesc := descriptor_read hk (latch op a n s)
  have hrun := runRead_eq hk (latch op a n s)
  have hseq := hr.1
  refine ⟨runRead k (latch op a n s), exec_runs_read hi hr (hlatched ▸ hd k (commandOf_of_readOf hi)), ?length,
    ?answer, ?frame, fun ans rest he hans hlen => ?oracle⟩
  case length => rw [hrun, hdesc]; exact respond_length _ _ _
  case answer => rw [hrun, hlatched]; rfl
  case frame =>
    rw [hrun, hdesc, show nextAnswer (latch op a n s) = nextAnswer s from rfl]
    simp [hseq]
  case oracle =>
    have hnext : nextAnswer (latch op a n s) = ans := nextAnswer_of_cons (s := latch op a n s) hans
    rw [hrun, hdesc, hnext, respond_oracle_of_length (s := latch op a n s) he hlen]
    exact ⟨rfl, rfl⟩

/-- The device answers FAST_READ as it answers READ, idle, busy, or after a failed exchange (R73, R97). -/
theorem Device.exchange_fastRead {o : Opcodes} (ho : o.distinct = true) (c : Nat) (a : Answer) (addr : Option Addr)
    (n : Nat) (d : Device) :
    d.exchange o c a ⟨opcodeOf o .fastRead, addr, [], n⟩ = d.exchange o c a ⟨opcodeOf o .read, addr, [], n⟩ := by
  have hreceive (e : Device) (any tx : List Byte) (m : Nat) :
      e.receive o m a any ⟨opcodeOf o .fastRead, addr, tx, n⟩ =
        e.receive o m a any ⟨opcodeOf o .read, addr, tx, n⟩ := by
    rw [Device.receive_known ho (k := .fastRead) rfl, Device.receive_known ho (k := .read) rfl]
    rfl
  simp only [Device.exchange, Device.take, hreceive]

/-- Settles O27: the two commands differ in their opcode, and the device answers both alike. -/
theorem fastReadReturnsSameData : Obligations.FastReadReturnsSameData := by
  intro a n s t hr h
  rw [exec_readClass rfl, whenReady_ready _ hr] at h
  obtain ⟨hd, rfl⟩ := withinDevice_next h
  have hreach : reaches .fastRead (latch 0x2 a n s) = true := hd
  have hrespond : respond (latch 0x2 a n s) (nextAnswer s) (descriptor (latch 0x2 a n s) .fastRead) =
      respond (latch 0x1 a n s) (nextAnswer s) (descriptor (latch 0x1 a n s) .read) := by
    cases he : s.env with
    | oracle => rw [respond_oracle (s := latch 0x2 a n s) he, respond_oracle (s := latch 0x1 a n s) he]; rfl
    | reference d =>
      have hx := Device.exchange_fastRead (Params.wf_distinct hr.2.1) s.free (nextAnswer s) (some a) n d
      rw [respond_reference (s := latch 0x2 a n s) he, respond_reference (s := latch 0x1 a n s) he]
      simp only [descriptor, latch_cfg, latch_reqAddr, latch_reqLen, latch_free, hx]
  refine ⟨_, exec_runs_read rfl hr hreach, ?_, ?_, ?_⟩ <;>
    rw [runRead_eq (.inl rfl), runRead_eq (.inr rfl)]
  · exact congrArg Prod.fst hrespond
  · rfl
  · exact congrArg Prod.snd hrespond

/-! ## Single bus commands (R132, R150 to R152, R91) -/

/-- Everything a single bus command does; only a failed identity read touches `ID_BUF`. -/
theorem runAlone_eq (k : BusOp) (q : Seq) (s : State) :
    runAlone k q s =
      { s with
        seq := .idle
        srLast := if k = .readStatus1 then (respond s (nextAnswer s) (descriptor s k)).1.getD 0 0 else s.srLast
        rxBuf := if k = .read ∨ k = .fastRead then (respond s (nextAnswer s) (descriptor s k)).1 else s.rxBuf
        idBuf := (runAlone k q s).idBuf, env := (respond s (nextAnswer s) (descriptor s k)).2
        res := if (nextAnswer s).ok then .ok else .fail, answers := s.answers.tail, free := s.free + 1
        job := .none, phase := .start
        events := ⟨q, some (descriptor s k), frame s.cfg s.mode (descriptor s k),
          if (nextAnswer s).ok then .ok (respond s (nextAnswer s) (descriptor s k)).1 else .fail⟩ :: s.events } := by
  cases k with
  | readId =>
    have hrun : runAlone .readId q s = finish (if (nextAnswer s).ok then .ok else .fail)
        (readId (enter (.alone .readId) q s)).2 := rfl
    cases hok : (nextAnswer s).ok
    · rw [hrun, readId_of_fail (s := enter (.alone .readId) q s) hok, hok]
      simp only [xfer_state]
      rw [show nextAnswer (enter (.alone .readId) q s) = nextAnswer s from rfl, hok]
      rfl
    · rw [hrun, readId_of_ok (s := enter (.alone .readId) q s) hok, hok]
      simp only [xfer_state]
      rw [show nextAnswer (enter (.alone .readId) q s) = nextAnswer s from rfl, hok]
      rfl
  | _ => rfl

theorem runAlone_idBuf {k : BusOp} (q : Seq) {s : State} (h : k ≠ .readId ∨ (nextAnswer s).ok = true) :
    (runAlone k q s).idBuf = s.idBuf := by
  cases k with
  | readId =>
    have hok := h.resolve_left (by simp)
    exact congrArg (fun x => (finish .ok x.2).idBuf) (readId_of_ok (s := enter (.alone .readId) q s) hok)
  | _ => rfl

theorem commandOf_of_aloneOf {i : Instr} {k : BusOp} (h : aloneOf i = some k) : commandOf i = some k := by
  cases i <;> simp_all [commandOf, readOf, aloneOf]

theorem latched_of_aloneOf {i : Instr} {k : BusOp} (h : aloneOf i = some k) (s : State) : latched i s = s := by
  cases i <;> first | rfl | simp [aloneOf] at h

/-- Settles O28: a single command inside the device runs its one exchange. -/
theorem singleCommandRunsOneExchange : Obligations.SingleCommandRunsOneExchange := by
  intro i k s hi hr hd
  have hreach : reaches k s = true := latched_of_aloneOf hi s ▸ hd k (commandOf_of_aloneOf hi)
  have hrun := runAlone_eq k (aloneSeq k) s
  have hseq := hr.1
  refine ⟨runAlone k (aloneSeq k) s, aloneSeq k, (respond s (nextAnswer s) (descriptor s k)).1, ?runs,
    aloneSeq_ne_idle k, respond_length _ _ _, ?answer, ?frame, runAlone_idBuf _, fun ans rest he hans hlen => ?oracle⟩
  case runs => rw [exec_alone hi, whenReady_ready _ hr]; exact withinDevice_inside hreach _
  case answer => rw [hrun]
  case frame =>
    conv_lhs => rw [hrun]
    rw [hrun]
    simp [hseq]
  case oracle =>
    rw [hrun, nextAnswer_of_cons hans, respond_oracle_of_length he hlen]
    exact ⟨rfl, rfl⟩

end Sys2Proof.Machine

namespace Sys2Proof.Machine

/-! ## INIT (R130 to R137) -/

/-- The state after INIT's transport hook (R131). -/
def hooked (s : State) : State := (transportInit (enter .init .probe { s with mode := s.cfg.modeStrap })).2

/-- The state after INIT's good identity read, with the identity in `ID_BUF` (R131). -/
def identified (s : State) : State :=
  { (readId (hooked s)).2 with idBuf := identOf (readId (hooked s)).1.rx }

/-- Everything the hook does: one event, which answers the hook and lets the device complete (R119, R131). -/
theorem hooked_eq (s : State) :
    hooked s =
      { s with
        mode := s.cfg.modeStrap, seq := .probe, job := .init, phase := .start
        env := s.env.complete s.free (nextAnswer s).after, answers := s.answers.tail, free := s.free + 1
        events := ⟨.probe, none, .transportInit, if (nextAnswer s).ok then .ok [] else .fail⟩ :: s.events } := rfl

theorem initialise_of_hook_fail {s : State} (h : (nextAnswer s).ok = false) :
    initialise s = finish .fail (hooked s) := by
  unfold initialise
  exact if_neg (Bool.eq_false_iff.mp h)

theorem initialise_of_hook_ok {s : State} (h : (nextAnswer s).ok = true) :
    initialise s = if (nextAnswer (hooked s)).ok then concludeInit (selectGeometry (identified s))
      else finish .fail (readId (hooked s)).2 := by
  unfold initialise
  exact if_pos h

theorem exec_init_ready (a : Addr) (n : Nat) {s : State} (h : ReadyForInit s) :
    exec (.init a n) s = .next (initialise (latch 0x0 a n s)) := by
  rw [exec_init, whenReadyForInit_ready _ h]

theorem identified_frame (s : State) : (identified s).cfg = s.cfg ∧ (identified s).geomIdx = s.geomIdx := by
  have hx := readId_exchanged (hooked s)
  exact ⟨hx.cfg, hx.geomIdx⟩

/-! ### The scan (R133) -/

theorem scanFrom_eq_none {id : Ident} {t : List Geometry} (h : ∀ e ∈ t, e.ident ≠ id) (i : Nat) :
    scanFrom id i t = none := by
  induction t generalizing i with
  | nil => rfl
  | cons e rest ih =>
    rw [scanFrom, if_neg (h e (List.mem_cons_self ..))]
    exact ih (fun e' he' => h e' (List.mem_cons_of_mem _ he')) _

/-- With no identity twice the scan finds the one entry that has it (R31 (c), R133). -/
theorem scanFrom_eq_some {t : List Geometry} (hnd : (t.map Geometry.ident).Nodup) {i : Nat} {e : Geometry}
    (he : t[i]? = some e) (j : Nat) : scanFrom e.ident j t = some (j + i) := by
  induction t generalizing i j with
  | nil => simp at he
  | cons e0 rest ih =>
    rw [List.map_cons, List.nodup_cons] at hnd
    obtain ⟨hnot, hnd⟩ := hnd
    cases i with
    | zero =>
      obtain rfl : e0 = e := by simpa using he
      exact if_pos rfl
    | succ i =>
      have hrest : rest[i]? = some e := by simpa using he
      have hne : e0.ident ≠ e.ident := fun h =>
        hnot (h ▸ List.mem_map_of_mem (List.mem_of_getElem? hrest))
      rw [scanFrom, if_neg hne, ih hnd hrest]
      congr 1
      omega

/-- A match selects its entry and is logged with it (R134). -/
theorem selectGeometry_found {s : State} (hp : s.cfg.wf = true) {i : Nat} {e : Geometry}
    (he : s.cfg.geomTable[i]? = some e) (hid : e.ident = s.idBuf) :
    (selectGeometry s).geomIdx = i ∧ identityTag s = .geometryFound e := by
  obtain ⟨-, -, hnd⟩ := Params.wf_table hp
  have hscan : scan s.cfg s.idBuf = some i := by
    rw [scan, ← hid, scanFrom_eq_some hnd he, Nat.zero_add]
  simp [selectGeometry, identityTag, hscan, List.getD_eq_getElem?_getD, he]

/-- An unknown identity leaves the index and is logged (R135). -/
theorem selectGeometry_unknown {s : State} (h : ∀ e ∈ s.cfg.geomTable, e.ident ≠ s.idBuf) :
    (selectGeometry s).geomIdx = s.geomIdx ∧ identityTag s = .geometryUnknown s.idBuf := by
  simp [selectGeometry, identityTag, scan, scanFrom_eq_none h]

/-- What INIT logs depends on the parameters and the identity alone. -/
theorem identityTag_selectGeometry (s : State) : identityTag (selectGeometry s) = identityTag s := by
  rw [selectGeometry_eq]
  rfl

/-! ### How INIT ends -/

/-- Settles O24: on each of its three ends INIT keeps what it latched, and `GEOM_IDX` unless it ends with `Ok`. -/
theorem initCompletes : Obligations.InitCompletes := by
  intro a n s hr
  have hhook : Exchanged _ (hooked (latch 0x0 a n s)) := transportInit_exchanged _
  have hread := hhook.trans (readId_exchanged _)
  refine ⟨_, exec_init_ready a n hr, ?_⟩
  cases h0 : (nextAnswer (latch 0x0 a n s)).ok
  · rw [initialise_of_hook_fail h0]
    exact ⟨rfl, hhook.mode, hhook.reqOp, hhook.reqAddr, hhook.reqLen, .inr ⟨rfl, hhook.inited.trans hr.2.2, hhook.geomIdx⟩⟩
  · rw [initialise_of_hook_ok h0]
    split_ifs with h1
    · rw [selectGeometry_eq]
      exact ⟨rfl, hread.mode, hread.reqOp, hread.reqAddr, hread.reqLen, .inl ⟨rfl, rfl⟩⟩
    · exact ⟨rfl, hread.mode, hread.reqOp, hread.reqAddr, hread.reqLen,
        .inr ⟨rfl, hread.inited.trans hr.2.2, hread.geomIdx⟩⟩

/-- The latched operands do not change what the agents answer. -/
theorem nextAnswer_latch (op : BitVec 4) (a : Addr) (n : Nat) (s : State) :
    nextAnswer (latch op a n s) = nextAnswer s := rfl

theorem nextAnswer_hooked {s : State} {a0 a1 : Answer} {rest : List Answer} (h : s.answers = a0 :: a1 :: rest) :
    nextAnswer (hooked s) = a1 :=
  nextAnswer_of_cons (rest := rest) (by simp [hooked_eq, h])

/-- Settles O23: a failed hook is one event, a failed identity read two. -/
theorem initFailureKeepsGeometry : Obligations.InitFailureKeepsGeometry := by
  refine ⟨fun a n s hr h0 => ?hook, fun a n s a0 a1 rest hr hans h0 h1 => ?read⟩
  case hook =>
    have hseq := hr.1
    rw [exec_init_ready a n hr, initialise_of_hook_fail (s := latch 0x0 a n s) h0, hooked_eq, nextAnswer_latch, h0]
    simp [finish, hseq]
  case read =>
    have hseq := hr.1
    have hnext : nextAnswer (latch 0x0 a n s) = a0 := nextAnswer_of_cons (s := latch 0x0 a n s) hans
    have hread : nextAnswer (hooked (latch 0x0 a n s)) = a1 := nextAnswer_hooked hans
    refine ⟨_, exec_init_ready a n hr, ?_⟩
    rw [initialise_of_hook_ok (hnext ▸ h0), hread, if_neg (by simp [h1]), readId_of_fail (hread ▸ h1), xfer_state, hread,
      h1, hooked_eq, hnext, h0]
    simp [finish, hseq, hans, descriptor, opcodeOf, Config.opcRdid, Config.idBytes]

/-- The successful end of INIT, after a read that returned `rx` and left the agents `e` (R131). -/
theorem initialise_of_ok {s : State} {a0 a1 a2 : Answer} {rest : List Answer}
    (hans : s.answers = a0 :: a1 :: a2 :: rest)
    (h0 : a0.ok = true) (h1 : a1.ok = true) {rx : List Byte} {e : Env}
    (hx : respond (hooked s) a1 ⟨0x9F, none, [], 3⟩ = (rx, e)) :
    identified s = { s with
        mode := s.cfg.modeStrap, seq := .probe, job := .init, phase := .start, idBuf := identOf rx, env := e,
        answers := a2 :: rest, free := s.free + 2
        events := ⟨.probe, some ⟨0x9F, none, [], 3⟩, frame s.cfg s.cfg.modeStrap ⟨0x9F, none, [], 3⟩, .ok rx⟩ ::
          ⟨.probe, none, .transportInit, .ok []⟩ :: s.events } ∧
      initialise s = concludeInit (selectGeometry (identified s)) := by
  have hnext : nextAnswer s = a0 := nextAnswer_of_cons hans
  have hread : nextAnswer (hooked s) = a1 := nextAnswer_hooked hans
  have hdesc : descriptor (hooked s) .readId = ⟨0x9F, none, [], 3⟩ := rfl
  refine ⟨?_, ?_⟩
  · unfold identified
    rw [readId_of_ok (hread ▸ h1), hdesc, xfer_state, xfer_rx, hread, hx, h1]
    simp [hooked_eq, hans, hnext, h0]
  · rw [initialise_of_hook_ok (hnext ▸ h0), hread, if_pos h1]

/-- The log call and the end of INIT (R131). -/
theorem concludeInit_eq (s : State) :
    concludeInit s =
      { s with
        seq := .idle, inited := true, res := .ok, job := .none, phase := .start
        env := s.env.complete s.free (nextAnswer s).after, answers := s.answers.tail, free := s.free + 1
        events := ⟨s.seq, none, .log (identityTag s), .done⟩ :: s.events } := rfl

@[simp] theorem concludeInit_idBuf (s : State) : (concludeInit s).idBuf = s.idBuf := rfl

@[simp] theorem selectGeometry_idBuf (s : State) : (selectGeometry s).idBuf = s.idBuf := by rw [selectGeometry_eq]

@[simp] theorem concludeInit_geomIdx (s : State) : (concludeInit s).geomIdx = s.geomIdx := rfl

/-- An idle device answers the identity read with its identity (R72). -/
theorem respond_readId_idle {s : State} {d : Device} (hp : s.cfg.wf = true) (he : s.env = .reference d)
    (hd : d.busy = false) {a : Answer} (ha : a.ok = true) :
    respond s a ⟨0x9F, none, [], 3⟩ = ([d.id.manufacturer, d.id.memoryType, d.id.capacity], .reference d) := by
  have hx := Device.exchange_idle (Params.wf_distinct hp) (cmd := ⟨0x9F, none, [], 3⟩) (k := .readId) rfl s.free ha hd
    rfl hd
  rw [respond_reference he, hx]
  rfl

/-- Settles O21: the hook and the log call leave the agents, the read brings the identity, the scan decides. -/
theorem initSelectsGeometry : Obligations.InitSelectsGeometry := by
  intro a n s a0 a1 a2 rest id hr hans h0 h1 henv
  have hwait (c : Nat) (x : Completion) : s.env.complete c x = s.env := by
    rcases henv with ⟨he, -⟩ | ⟨d, he, hd, -⟩
    · rw [he]; rfl
    · rw [he]; exact congrArg Env.reference (Device.complete_idle _ _ hd)
  have henv1 : (hooked (latch 0x0 a n s)).env = s.env := hwait _ _
  have hx : respond (hooked (latch 0x0 a n s)) a1 ⟨0x9F, none, [], 3⟩ =
      ([id.manufacturer, id.memoryType, id.capacity], s.env) := by
    rcases henv with ⟨he, hrx⟩ | ⟨d, he, hd, rfl⟩
    · rw [respond_oracle_of_length (henv1.trans he) (by rw [hrx]; rfl), hrx, he]
    · rw [he]
      exact respond_readId_idle (s := hooked (latch 0x0 a n s)) hr.2.1 (henv1.trans he) hd h1
  obtain ⟨hv, hrun⟩ := initialise_of_ok (s := latch 0x0 a n s) hans h0 h1 hx
  generalize identified (latch 0x0 a n s) = v at hv hrun
  have hid : v.idBuf = id := by rw [hv]; rfl
  have hcfg : v.cfg = s.cfg := by rw [hv]; rfl
  have hgeom : v.geomIdx = s.geomIdx := by rw [hv]; rfl
  have hseq := hr.1
  refine ⟨_, identityTag v, exec_init_ready a n hr, ?frame, fun i e he hident => ?found, fun hnone => ?unknown⟩
  case frame =>
    rw [hrun, concludeInit_eq, identityTag_selectGeometry, selectGeometry_eq, hv]
    simp [hseq, hwait, identOf]
  case found =>
    rw [hrun, concludeInit_geomIdx]
    exact selectGeometry_found (hcfg ▸ hr.2.1) (hcfg ▸ he) (hident.trans hid.symm)
  case unknown =>
    have hselect := selectGeometry_unknown (s := v) (by rwa [hcfg, hid])
    rw [hid, hgeom] at hselect
    rw [hrun, concludeInit_geomIdx]
    exact hselect

/-- A busy device answers the identity read with any bytes (R74 (b)). -/
theorem Device.exchange_readId_busy {o : Opcodes} (ho : o.distinct = true) (c : Nat) {a : Answer} (ha : a.ok = true)
    {d : Device} (hd : d.busy = true) (hb : a.before.now = false) :
    (d.exchange o c a ⟨0x9F, none, [], 3⟩).1 = fit c 3 a.rx := by
  simp only [Device.exchange, Device.complete_not _ d hb, Device.take, ha, if_true,
    Device.receive_known ho (cmd := ⟨0x9F, none, [], 3⟩) (k := .readId) rfl, hd]
  rfl

/-- Settles O22: the device is busy when the read reaches it, so any three bytes come back. -/
theorem initOnBusyDeviceTakesAnyIdentity : Obligations.InitOnBusyDeviceTakesAnyIdentity := by
  intro a n s d a0 a1 rest m y c hr he hd hans h0 hnow h1 hbefore hrx
  have hnext : nextAnswer (latch 0x0 a n s) = a0 := nextAnswer_of_cons (s := latch 0x0 a n s) hans
  have hread : nextAnswer (hooked (latch 0x0 a n s)) = a1 := nextAnswer_hooked hans
  have henv : (hooked (latch 0x0 a n s)).env = .reference d := by
    rw [hooked_eq, hnext]
    simp [he, Env.complete, Device.complete_not _ d hnow]
  have hbytes : (respond (hooked (latch 0x0 a n s)) a1 ⟨0x9F, none, [], 3⟩).1 = [m, y, c] := by
    have hp : (hooked (latch 0x0 a n s)).cfg.opcodes.distinct = true := Params.wf_distinct hr.2.1
    rw [respond_reference henv, Device.exchange_readId_busy hp _ h1 hd hbefore, hrx]
    rfl
  have hrun := initialise_of_hook_ok (s := latch 0x0 a n s) (hnext ▸ h0)
  rw [hread, if_pos h1] at hrun
  have hid : (identified (latch 0x0 a n s)).idBuf = ⟨m, y, c⟩ := by
    have hrx1 : (readId (hooked (latch 0x0 a n s))).1.rx = [m, y, c] := by
      rw [readId_of_ok (hread ▸ h1), xfer_rx, hread]
      exact hbytes
    exact congrArg identOf hrx1
  refine ⟨_, exec_init_ready a n hr, ?_⟩
  rw [hrun]
  refine ⟨rfl, rfl, ?_, fun hnone => ?_⟩
  · rw [concludeInit_idBuf, selectGeometry_idBuf, hid]
  · obtain ⟨hcfg, hgeom⟩ := identified_frame (latch 0x0 a n s)
    have hselect := (selectGeometry_unknown (s := identified (latch 0x0 a n s)) (by rwa [hid, hcfg])).1
    rw [concludeInit_geomIdx, hselect, hgeom, latch_geomIdx]

end Sys2Proof.Machine

namespace Sys2Proof.Machine

/-! ## WAIT_IDLE (R153 to R157) -/

theorem exec_waitIdle_ready {s : State} (h : Ready s) :
    exec .waitIdle s = .next (finishWith (waitIdle (enter .wait .waitIdlePre s))) := by
  rw [exec_waitIdle, whenReady_ready _ h]

/-- Everything one WAIT_IDLE does, from the state it starts in. -/
structure WaitEnds (s : State) (x : Result × State) (bs : List Byte) (e : Event) : Prop where
  frame : Polled s x.2
  busy : ∀ b ∈ bs, busyBit b = true
  events : x.2.events = e :: busyEvents s s.seq bs ++ s.events
  count : x.2.pollCnt = bs.length + 1
  bound : bs.length < 500
  seq : e.seq = s.seq
  ends : (x.1 = .ok ∧ e = okEvent s s.seq .readStatus1 [x.2.srLast] ∧ busyBit x.2.srLast = false) ∨
    (x.1 = .fail ∧ e = failEvent s s.seq .readStatus1) ∨
    (x.1 = .timeout ∧ e = okEvent s s.seq .readStatus1 [x.2.srLast] ∧ busyBit x.2.srLast = true ∧ x.2.pollCnt = 500)

theorem waitIdle_ends (s : State) : ∃ bs e, WaitEnds s (waitIdle s) bs e := by
  obtain ⟨hframe, bs, e, hbs, hq, hlen, hevents, hcnt, hend⟩ := waitIdle_waited s
  rw [busyEvents_congr (s := s) (t := { s with pollCnt := 0 }) rfl rfl] at hevents
  replace hcnt : (waitIdle s).2.pollCnt = bs.length + 1 := hcnt.trans (congrArg (· + 1) (Nat.zero_add _))
  refine ⟨bs, e, hframe, hbs, hevents, hcnt, hlen, hq, ?_⟩
  rcases hend with h | h | ⟨ht, hlast, he, hb⟩
  · exact .inl h
  · exact .inr (.inl h)
  · exact .inr (.inr ⟨ht, he, hb, hcnt.trans hlast⟩)

/-- Settles O29: the three ways a wait ends, with its result taken over. -/
theorem waitIdleIsBounded : Obligations.WaitIdleIsBounded := by
  intro s hr
  have hseq := hr.1
  obtain ⟨bs, e, h⟩ := waitIdle_ends (enter .wait .waitIdlePre s)
  have hevents := h.events
  rw [busyEvents_congr (s := s) (t := enter .wait .waitIdlePre s) rfl rfl] at hevents
  refine ⟨_, bs, e, exec_waitIdle_ready hr, ?frame, h.busy, h.count, h.count.trans_le h.bound, h.ends⟩
  case frame =>
    refine (congrArg (finish _) h.frame).trans ?_
    rw [hevents]
    simp [finish, finishWith, hseq]

/-! ### One round of the loop -/

theorem pollLoop_ended {f : Nat} {s : State} {r : Result} (h : pollOutcome (poll s).1 (poll s).2 = .ended r) :
    pollLoop (f + 1) s = (r, (poll s).2) := by
  rw [pollLoop_succ, h]

theorem pollLoop_again {f : Nat} {s : State} (h : pollOutcome (poll s).1 (poll s).2 = .again) :
    pollLoop (f + 1) s = pollLoop f (delayUs (poll s).2.cfg.pollDelayUs (poll s).2) := by
  rw [pollLoop_succ, h]

/-- A status read that the oracle answers (R150). -/
theorem poll_of_status {s : State} {a : Answer} {rest : List Answer} {b : Byte} (he : s.env = .oracle)
    (hans : s.answers = a :: rest) (ha : statusAnswer b a) :
    poll s = (.ok, { s with
      pollCnt := s.pollCnt + 1, srLast := b, answers := rest, free := s.free + 1
      events := okEvent s s.seq .readStatus1 [b] :: s.events }) := by
  obtain ⟨hok, hrx⟩ := ha
  have hx : xfer (descriptor s .readStatus1) { s with pollCnt := s.pollCnt + 1 } = (⟨true, [b]⟩, { s with
      pollCnt := s.pollCnt + 1, answers := rest, free := s.free + 1
      events := okEvent s s.seq .readStatus1 [b] :: s.events }) := by
    simp [xfer, nextAnswer, hans, hok, respond, he, descriptor, hrx, useAnswer, emit, okEvent]
  show ((xfer (descriptor s .readStatus1) { s with pollCnt := s.pollCnt + 1 }).1.result,
    deliver .readStatus1 (xfer (descriptor s .readStatus1) { s with pollCnt := s.pollCnt + 1 }).1
      (xfer (descriptor s .readStatus1) { s with pollCnt := s.pollCnt + 1 }).2) = _
  rw [hx]
  rfl

/-- A status read that fails at the oracle (R118); any byte may stand in `SR_LAST`. -/
theorem poll_of_fail {s : State} {a : Answer} {rest : List Answer} (he : s.env = .oracle)
    (hans : s.answers = a :: rest) (ha : a.ok = false) :
    poll s = (.fail, { s with
      pollCnt := s.pollCnt + 1, srLast := (poll s).2.srLast, answers := rest, free := s.free + 1
      events := failEvent s s.seq .readStatus1 :: s.events }) := by
  have hx : xfer (descriptor s .readStatus1) { s with pollCnt := s.pollCnt + 1 } = (⟨false, fit s.free 1 a.rx⟩, { s with
      pollCnt := s.pollCnt + 1, answers := rest, free := s.free + 1
      events := failEvent s s.seq .readStatus1 :: s.events }) := by
    simp [xfer, nextAnswer, hans, ha, respond, he, descriptor, useAnswer, emit, failEvent]
  have hpoll : poll s = ((xfer (descriptor s .readStatus1) { s with pollCnt := s.pollCnt + 1 }).1.result,
    deliver .readStatus1 (xfer (descriptor s .readStatus1) { s with pollCnt := s.pollCnt + 1 }).1
      (xfer (descriptor s .readStatus1) { s with pollCnt := s.pollCnt + 1 }).2) := rfl
  rw [hpoll, hx]
  rfl

/-! ### Busy polls (R153, R156) -/

/-- The state after busy polls that returned `bs`, each followed by its delay, with the oracle behind the transport. -/
def afterBusy (bs : List Byte) (rest : List Answer) (s : State) : State :=
  { s with
    pollCnt := s.pollCnt + bs.length, srLast := bs.getLastD s.srLast, answers := rest
    free := s.free + 2 * bs.length, events := busyEvents s s.seq bs ++ s.events }

/-- A good read that shows busy, with a read left after it. -/
theorem pollOutcome_busy {s : State} (hb : busyBit s.srLast = true) (hlt : s.pollCnt < Config.pollBound) :
    pollOutcome .ok s = .again := by
  simp [pollOutcome, hb, hlt.ne]

/-- One busy poll: the read and its delay. -/
theorem pollLoop_busy_step {f : Nat} {s : State} {a a' : Answer} {rest : List Answer} {b : Byte} (he : s.env = .oracle)
    (hans : s.answers = a :: a' :: rest) (ha : statusAnswer b a) (hb : busyBit b = true)
    (hlt : s.pollCnt + 1 < Config.pollBound) : pollLoop (f + 1) s = pollLoop f (afterBusy [b] rest s) := by
  have hpoll := poll_of_status he hans ha
  rw [pollLoop_again (by rw [hpoll]; exact pollOutcome_busy hb hlt), hpoll]
  congr 1
  simp [delayUs, emit, deviceMoment, useAnswer, afterBusy, busyEvents, delayEvent, he, Env.complete]

/-- The events take their form from the parameters and the mode alone. -/
theorem afterBusy_eq {s u : State} (hc : u.cfg = s.cfg) (hm : u.mode = s.mode) (bs : List Byte) (rest : List Answer) :
    afterBusy bs rest u = { u with
      pollCnt := u.pollCnt + bs.length, srLast := bs.getLastD u.srLast, answers := rest
      free := u.free + 2 * bs.length, events := busyEvents s u.seq bs ++ u.events } := by
  rw [← busyEvents_congr hc hm]
  rfl

theorem afterBusy_append (b : Byte) (bs : List Byte) (more rest : List Answer) (s : State) :
    afterBusy bs rest (afterBusy [b] more s) = afterBusy (b :: bs) rest s := by
  rw [afterBusy_eq (s := s) (u := afterBusy [b] more s) rfl rfl]
  simp only [afterBusy, busyEvents, List.length_cons, List.getLastD_cons, List.getLastD_nil]
  simp [Nat.add_assoc, Nat.mul_add, Nat.add_comm 1, Nat.add_comm 2]

/-- Busy polls use one read each and leave the rest of the loop to run. -/
theorem pollLoop_afterBusy {f : Nat} {bs : List Byte} {as rest : List Answer} {s : State} (he : s.env = .oracle)
    (hans : s.answers = as ++ rest) (has : busyAnswers bs as) (hbs : ∀ b ∈ bs, busyBit b = true)
    (hlt : s.pollCnt + bs.length < Config.pollBound) :
    pollLoop (bs.length + f) s = pollLoop f (afterBusy bs rest s) := by
  induction bs generalizing as s with
  | nil =>
    cases as with
    | nil => simp [afterBusy, busyEvents, ← (show s.answers = rest from hans)]
    | cons => simp [busyAnswers] at has
  | cons b bs ih =>
    match as, has with
    | a :: a' :: as, ⟨ha, has⟩ =>
      simp only [List.length_cons] at hlt
      have hb := hbs b (List.mem_cons_self ..)
      rw [List.length_cons, show bs.length + 1 + f = bs.length + f + 1 by omega,
        pollLoop_busy_step he (rest := as ++ rest) (by simpa using hans) ha hb (by omega),
        ih (s := afterBusy [b] (as ++ rest) s) he rfl has (fun x hx => hbs x (List.mem_cons_of_mem _ hx))
          (by simp only [afterBusy, List.length_singleton]; omega), afterBusy_append]

/-- WAIT_IDLE as an operation of its own on the oracle: busy polls, then what the last read decides. -/
theorem waitIdle_afterBusy {bs : List Byte} {as rest : List Answer} {s : State} (he : s.env = .oracle)
    (hans : s.answers = as ++ rest) (has : busyAnswers bs as) (hbs : ∀ b ∈ bs, busyBit b = true)
    (hlen : bs.length < 500) {r : Result}
    (hlast : pollOutcome (poll (afterBusy bs rest { s with pollCnt := 0 })).1
      (poll (afterBusy bs rest { s with pollCnt := 0 })).2 = .ended r) :
    waitIdle s = (r, (poll (afterBusy bs rest { s with pollCnt := 0 })).2) := by
  have hfuel : waitIdle s = pollLoop (bs.length + (499 - bs.length + 1)) { s with pollCnt := 0 } := by
    rw [show bs.length + (499 - bs.length + 1) = 500 by omega]
    rfl
  rw [hfuel, pollLoop_afterBusy (s := { s with pollCnt := 0 }) he hans has hbs (by simpa [Config.pollBound] using hlen),
    pollLoop_ended hlast]

/-- The busy polls of a WAIT_IDLE run by itself. -/
theorem afterBusy_wait (bs : List Byte) (rest : List Answer) (s : State) :
    afterBusy bs rest { enter .wait .waitIdlePre s with pollCnt := 0 } =
      { s with
        seq := .waitIdlePre, job := .wait, phase := .start, pollCnt := bs.length, srLast := bs.getLastD s.srLast
        answers := rest, free := s.free + 2 * bs.length, events := busyEvents s .waitIdlePre bs ++ s.events } := by
  rw [afterBusy_eq (s := s) (u := { enter .wait .waitIdlePre s with pollCnt := 0 }) rfl rfl]
  simp [enter, setSeq]

/-- A WAIT_IDLE on the oracle with what its last read decides, as the next state of the instruction. -/
theorem exec_waitIdle_afterBusy {s t : State} {bs : List Byte} {as rest : List Answer} (hr : Ready s)
    (he : s.env = .oracle) (hans : s.answers = as ++ rest) (has : busyAnswers bs as)
    (hbs : ∀ x ∈ bs, busyBit x = true) (hlen : bs.length < 500) {x r : Result}
    (hpoll : poll (afterBusy bs rest { enter .wait .waitIdlePre s with pollCnt := 0 }) = (x, t))
    (hlast : pollOutcome x t = .ended r) : exec .waitIdle s = .next (finish r t) := by
  rw [exec_waitIdle_ready hr, waitIdle_afterBusy (s := enter .wait .waitIdlePre s) he hans has hbs hlen
    (by rw [hpoll]; exact hlast), hpoll]
  rfl

/-- Settles O30: after the busy polls an idle byte ends the wait. -/
theorem waitIdleEndsWhenIdle : Obligations.WaitIdleEndsWhenIdle := by
  intro s bs b as rest a hr he hans has ha hbs hb hlen
  have hseq := hr.1
  have hpoll := poll_of_status (s := afterBusy bs (a :: rest) { enter .wait .waitIdlePre s with pollCnt := 0 }) he rfl ha
  rw [exec_waitIdle_afterBusy hr he hans has hbs hlen hpoll (r := .ok) (by simp [pollOutcome, hb]), afterBusy_wait]
  simp [finish, hseq, okEvent, descriptor]

/-- Settles O31: the 500th read shows busy too. -/
theorem waitIdleTimesOut : Obligations.WaitIdleTimesOut := by
  intro s bs b as rest a hr he hans has ha hbs hb hlen
  have hseq := hr.1
  have hpoll := poll_of_status (s := afterBusy bs (a :: rest) { enter .wait .waitIdlePre s with pollCnt := 0 }) he rfl ha
  rw [exec_waitIdle_afterBusy hr he hans has hbs (by omega) hpoll (r := .timeout)
    (by simp [pollOutcome, hb, afterBusy, hlen, Config.pollBound]), afterBusy_wait]
  simp [finish, hseq, okEvent, descriptor, hlen]

/-- Settles O32: a failed read ends the wait, whatever the counter shows. -/
theorem waitIdleFailsOnFailedRead : Obligations.WaitIdleFailsOnFailedRead := by
  intro s bs as rest a hr he hans has hbs ha hlen
  have hseq := hr.1
  have hpoll := poll_of_fail (s := afterBusy bs (a :: rest) { enter .wait .waitIdlePre s with pollCnt := 0 }) he rfl ha
  refine ⟨_, exec_waitIdle_afterBusy hr he hans has hbs hlen hpoll (r := .fail) rfl, ?_⟩
  rw [afterBusy_wait]
  simp [finish, hseq, failEvent, descriptor]

/-! ### Delays (R156) -/

/-- After a completion the device is idle with nothing pending (R71). -/
theorem Device.complete_quiet (c : Nat) {x : Completion} {d : Device} (hx : x.now = true) (hd : d.busy = true) :
    (d.complete c x).quiet := by
  simp [Device.complete, hx, hd, Device.quiet]

/-- A completed erase leaves its region erased and every other byte as it was (R71). -/
theorem Device.read_complete_erase (c : Nat) {x : Completion} {d : Device} (hx : x.now = true) (hd : d.busy = true)
    (hm : Memory.wf d.mem = true) {lo size : Nat} (hp : d.pending = some (.erase lo size)) {a : Nat}
    (ha : d.untouched a) :
    Memory.read (d.complete c x).mem a = if lo ≤ a ∧ a < lo + size then 0xFF else Memory.read d.mem a := by
  have hmem : (d.complete c x).mem = d.settled c := by simp [Device.complete, hx, hd]
  rw [hmem, Device.read_settled c hm ha, hp]
  exact Memory.read_eraseRange hm lo size a

/-- Settles O33: a delay is a moment of the device with one event. -/
theorem delayLetsDeviceComplete : Obligations.DelayLetsDeviceComplete := by
  intro n s
  refine ⟨rfl, fun he => by simp [he, Env.complete], fun d he => ⟨d.complete (3 * s.free + 2) (nextAnswer s).after,
    by simp [he, Env.complete], Device.complete_not _ d, Device.complete_idle _ _, fun hnow hbusy => ?_⟩⟩
  refine ⟨Device.complete_quiet _ hnow hbusy, fun lo size hp ht hwf x => ?_⟩
  exact Device.read_complete_erase _ hnow hbusy hwf.1 hp (by simp [Device.untouched, ht])

end Sys2Proof.Machine

namespace Sys2Proof.Machine

/-! ## Runs from related states -/

/-- Two parts of runs that end alike, in related states. -/
def EndAlike (R : State → State → Prop) (x y : Result × State) : Prop := x.1 = y.1 ∧ R x.2 y.2

/-- A relation that waits cannot tell apart: related states answer a poll alike and stay related. -/
structure WaitCongr (R : State → State → Prop) : Prop where
  start : ∀ {s t}, R s t → R { s with pollCnt := 0 } { t with pollCnt := 0 }
  poll : ∀ {s t}, R s t → EndAlike R (poll s) (poll t)
  delay : ∀ {s t}, R s t → R (delayUs s.cfg.pollDelayUs s) (delayUs t.cfg.pollDelayUs t)
  shows : ∀ {s t}, R s t → busyBit s.srLast = busyBit t.srLast ∧ s.pollCnt = t.pollCnt

/-- A relation that brackets cannot tell apart either. -/
structure BracketCongr (R : State → State → Prop) : Prop extends WaitCongr R where
  seq : ∀ {s t}, R s t → ∀ q, R (setSeq q s) (setSeq q t)
  command : ∀ {s t}, R s t → ∀ k, k ≠ .read → k ≠ .fastRead → EndAlike R (micro k s) (micro k t)

theorem pollOutcome_congr {s t : State} (hb : busyBit s.srLast = busyBit t.srLast) (hc : s.pollCnt = t.pollCnt)
    (r : Result) : pollOutcome r s = pollOutcome r t := by
  simp only [pollOutcome, hb, hc]

theorem WaitCongr.pollLoop {R : State → State → Prop} (hR : WaitCongr R) (f : Nat) {s t : State} (h : R s t) :
    EndAlike R (pollLoop f s) (pollLoop f t) := by
  induction f generalizing s t with
  | zero => exact ⟨rfl, h⟩
  | succ f ih =>
    obtain ⟨hres, hstate⟩ := hR.poll h
    obtain ⟨hb, hc⟩ := hR.shows hstate
    have ho := pollOutcome_congr hb hc (Machine.poll s).1
    rw [hres] at ho
    cases hd : pollOutcome (Machine.poll t).1 (Machine.poll t).2 with
    | ended r =>
      rw [pollLoop_ended hd, pollLoop_ended (s := s) (by rw [hres, ho, hd])]
      exact ⟨rfl, hstate⟩
    | again =>
      rw [pollLoop_again hd, pollLoop_again (s := s) (by rw [hres, ho, hd])]
      exact ih (hR.delay hstate)

theorem WaitCongr.waitIdle {R : State → State → Prop} (hR : WaitCongr R) {s t : State} (h : R s t) :
    EndAlike R (waitIdle s) (waitIdle t) := hR.pollLoop _ (hR.start h)

theorem EndAlike.andThen {R : State → State → Prop} {x y : Result × State} (h : EndAlike R x y)
    {k l : State → Result × State} (hkl : ∀ {s t}, R s t → EndAlike R (k s) (l t)) :
    EndAlike R (andThen x k) (andThen y l) := by
  obtain ⟨rx, s⟩ := x
  obtain ⟨ry, t⟩ := y
  obtain ⟨rfl, hst⟩ : rx = ry ∧ R s t := h
  cases rx with
  | ok => exact hkl hst
  | fail | timeout => exact ⟨rfl, hst⟩

theorem busOp_ne_read (c : BracketCmd) : c.busOp ≠ .read ∧ c.busOp ≠ .fastRead := by cases c <;> simp [BracketCmd.busOp]

theorem BracketCongr.writeSeq {R : State → State → Prop} (hR : BracketCongr R) (c : BracketCmd) {s t : State}
    (h : R s t) : EndAlike R (writeSeq c s) (writeSeq c t) :=
  (hR.command (hR.seq h _) _ (by simp) (by simp)).andThen fun h1 =>
    (hR.waitIdle (hR.seq h1 _)).andThen fun h2 =>
      (hR.command (hR.seq h2 _) _ (busOp_ne_read c).1 (busOp_ne_read c).2).andThen fun h3 =>
        (hR.waitIdle (hR.seq h3 _)).andThen fun h4 => hR.command (hR.seq h4 _) _ (by simp) (by simp)

/-- INIT from related states: the hook, the identity read and each of its ends are related. -/
theorem initialise_congr {R Q : State → State → Prop} {s t : State} (hnext : nextAnswer s = nextAnswer t)
    (hhook : R (hooked s) (hooked t)) (hans : ∀ {u v}, R u v → nextAnswer u = nextAnswer v)
    (hread : ∀ {u v}, R u v → R (readId u).2 (readId v).2 ∧ (readId u).1.rx = (readId v).1.rx)
    (hfail : ∀ {u v}, R u v → Q (finish .fail u) (finish .fail v))
    (hend : ∀ {u v}, R u v → ∀ id, Q (concludeInit (selectGeometry { u with idBuf := id }))
      (concludeInit (selectGeometry { v with idBuf := id }))) : Q (initialise s) (initialise t) := by
  cases h0 : (nextAnswer s).ok
  · rw [initialise_of_hook_fail h0, initialise_of_hook_fail (hnext ▸ h0)]
    exact hfail hhook
  · rw [initialise_of_hook_ok h0, initialise_of_hook_ok (hnext ▸ h0), hans hhook]
    obtain ⟨hstate, hrx⟩ := hread hhook
    split
    · unfold identified
      rw [hrx]
      exact hend hstate _
    · exact hfail hstate

/-! ## The mode (R111) -/

/-- Two states that agree in everything but the mode tag and the bus form of their events. -/
def ButMode (s t : State) : Prop :=
  ∃ m es, t = { s with mode := m, events := es } ∧ s.events.map Event.noCall = es.map Event.noCall

theorem ButMode.noMode_eq {s t : State} (h : ButMode s t) : State.noMode s = State.noMode t := by
  obtain ⟨m, es, rfl, hes⟩ := h
  simp [State.noMode, hes]

/-- One event in either mode, with the same descriptor and reply. -/
theorem ButMode.emit {s t : State} (h : ButMode s t) {cmd : Option Cmd} {c c' : Call} (hc : cmd = none → c = c')
    (reply : Reply) : ButMode (emit cmd c reply s) (emit cmd c' reply t) := by
  obtain ⟨m, es, rfl, hes⟩ := h
  refine ⟨m, _, rfl, ?_⟩
  cases cmd with
  | none => simp [Event.noCall, hes, hc rfl]
  | some _ => simp [Event.noCall, hes]

/-- One exchange in either mode (R110, R111). -/
theorem ButMode.xfer {s t : State} (h : ButMode s t) (cmd : Cmd) :
    (xfer cmd s).1 = (xfer cmd t).1 ∧ ButMode (xfer cmd s).2 (xfer cmd t).2 := by
  obtain ⟨m, es, rfl, hes⟩ := h
  have hused : ButMode { useAnswer s with env := (respond s (nextAnswer s) cmd).2 }
      { useAnswer { s with mode := m, events := es } with env := (respond s (nextAnswer s) cmd).2 } := ⟨m, es, rfl, hes⟩
  exact ⟨rfl, hused.emit (by simp) _⟩

theorem ButMode.deliver {s t : State} (h : ButMode s t) (k : BusOp) (x : Exchange) :
    ButMode (deliver k x s) (deliver k x t) := by
  obtain ⟨m, es, rfl, hes⟩ := h
  cases k with
  | readId => cases hx : x.ok <;> simp only [Machine.deliver, hx] <;> exact ⟨m, es, rfl, hes⟩
  | _ => exact ⟨m, es, rfl, hes⟩

theorem ButMode.descriptor {s t : State} (h : ButMode s t) (k : BusOp) : descriptor s k = descriptor t k := by
  obtain ⟨m, es, rfl, -⟩ := h
  rfl

theorem ButMode.micro {s t : State} (h : ButMode s t) (k : BusOp) : EndAlike ButMode (micro k s) (micro k t) := by
  obtain ⟨hx, hstate⟩ := h.xfer (Machine.descriptor s k)
  have ht : Machine.micro k t = ((Machine.xfer (Machine.descriptor s k) t).1.result,
      Machine.deliver k (Machine.xfer (Machine.descriptor s k) t).1 (Machine.xfer (Machine.descriptor s k) t).2) := by
    rw [h.descriptor k]
    rfl
  rw [ht, ← hx]
  exact ⟨rfl, hstate.deliver k _⟩

theorem ButMode.readId {s t : State} (h : ButMode s t) :
    ButMode (readId s).2 (readId t).2 ∧ (readId s).1.rx = (readId t).1.rx := by
  obtain ⟨hx, -⟩ := h.xfer (Machine.descriptor s .readId)
  refine ⟨(h.micro .readId).2, ?_⟩
  rw [h.descriptor .readId] at hx
  exact congrArg Exchange.rx hx

theorem ButMode.deviceMoment {s t : State} (h : ButMode s t) : ButMode (deviceMoment s) (deviceMoment t) := by
  obtain ⟨m, es, rfl, hes⟩ := h
  exact ⟨m, es, rfl, hes⟩

theorem ButMode.finish {s t : State} (h : ButMode s t) (r : Result) : ButMode (finish r s) (finish r t) := by
  obtain ⟨m, es, rfl, hes⟩ := h
  exact ⟨m, es, rfl, hes⟩

theorem ButMode.enter {s t : State} (h : ButMode s t) (j : Job) (q : Seq) : ButMode (enter j q s) (enter j q t) := by
  obtain ⟨m, es, rfl, hes⟩ := h
  exact ⟨m, es, rfl, hes⟩

theorem butMode_bracketCongr : BracketCongr ButMode where
  start h := by
    obtain ⟨m, es, rfl, hes⟩ := h
    exact ⟨m, es, rfl, hes⟩
  poll {s t} h := by
    obtain ⟨m, es, rfl, hes⟩ := h
    exact ButMode.micro (s := { s with pollCnt := s.pollCnt + 1 }) ⟨m, es, rfl, hes⟩ .readStatus1
  delay h := by
    have hm := h.deviceMoment
    obtain ⟨m, es, rfl, -⟩ := h
    exact hm.emit (fun _ => rfl) _
  shows h := by
    obtain ⟨m, es, rfl, -⟩ := h
    exact ⟨rfl, rfl⟩
  seq h q := by
    obtain ⟨m, es, rfl, hes⟩ := h
    exact ⟨m, es, rfl, hes⟩
  command h k _ _ := h.micro k

theorem ButMode.finishWith {x y : Result × State} (h : EndAlike ButMode x y) :
    ButMode (finishWith x) (finishWith y) := by
  obtain ⟨hres, hstate⟩ := h
  unfold Machine.finishWith
  rw [hres]
  exact hstate.finish _

theorem ButMode.selectGeometry {s t : State} (h : ButMode s t) : ButMode (selectGeometry s) (selectGeometry t) := by
  obtain ⟨m, es, rfl, hes⟩ := h
  cases hs : scan s.cfg s.idBuf <;> simp only [Machine.selectGeometry, hs] <;> exact ⟨m, es, rfl, hes⟩

/-- The log call and the end of INIT in either mode. -/
theorem ButMode.concludeInit {s t : State} (h : ButMode s t) : ButMode (concludeInit s) (concludeInit t) := by
  obtain ⟨m, es, rfl, hes⟩ := h
  refine ⟨m, ⟨s.seq, none, .log (identityTag s), .done⟩ :: es, rfl, ?_⟩
  rw [concludeInit_eq, List.map_cons, List.map_cons, hes]

theorem ButMode.initialise {s t : State} (h : ButMode s t) : ButMode (initialise s) (initialise t) := by
  refine initialise_congr (R := ButMode) ?next ?hook (fun h => ?answer) (fun h => h.readId) (fun h => h.finish _)
    fun h id => ButMode.concludeInit (ButMode.selectGeometry ?identity)
  case next | answer =>
    obtain ⟨m, es, rfl, -⟩ := h
    rfl
  case hook =>
    obtain ⟨m, es, rfl, hes⟩ := h
    exact ButMode.emit (s := Machine.deviceMoment (Machine.enter .init .probe { s with mode := s.cfg.modeStrap }))
      (t := Machine.deviceMoment (Machine.enter .init .probe { s with mode := s.cfg.modeStrap, events := es }))
      ⟨_, es, rfl, hes⟩ (fun _ => rfl) _
  case identity =>
    obtain ⟨m, es, rfl, hes⟩ := h
    exact ⟨m, es, rfl, hes⟩

theorem loadTx_of_length {buf : List Byte} {s : State} (h : buf.length = s.reqLen) :
    loadTx buf s = { s with txBuf := buf } := if_pos h

theorem loadTx_of_ne {buf : List Byte} {s : State} (h : buf.length ≠ s.reqLen) :
    loadTx buf s = { s with txBuf := fit s.free s.reqLen buf, free := s.free + 1 } := if_neg h

theorem ButMode.latched {s t : State} (h : ButMode s t) (i : Instr) : ButMode (latched i s) (latched i t) := by
  obtain ⟨m, es, rfl, hes⟩ := h
  cases i with
  | pageProgram a n buf =>
    simp only [Machine.latched]
    by_cases hlen : buf.length = n
    · rw [loadTx_of_length (s := latch 0x3 a n s) hlen, loadTx_of_length (s := latch 0x3 a n _) hlen]
      exact ⟨m, es, rfl, hes⟩
    · rw [loadTx_of_ne (s := latch 0x3 a n s) hlen, loadTx_of_ne (s := latch 0x3 a n _) hlen]
      exact ⟨m, es, rfl, hes⟩
  | _ => exact ⟨m, es, rfl, hes⟩

theorem ButMode.runBracket {s t : State} (h : ButMode s t) (c : BracketCmd) :
    ButMode (runBracket c s) (runBracket c t) :=
  ButMode.finishWith (butMode_bracketCongr.writeSeq c (h.enter _ _))

/-! ### Outcomes -/

/-- Outcomes that agree in everything but the mode and the bus form of events. -/
def AlikeOutcome (x y : Host.Outcome State Fault Refusal) : Prop :=
  outcomeMap State.noMode x = outcomeMap State.noMode y

theorem ButMode.next {s t : State} (h : ButMode s t) : AlikeOutcome (.next s) (.next t) :=
  congrArg Host.Outcome.next h.noMode_eq

theorem ButMode.waitAtPort {s t : State} (h : ButMode s t) (i : Instr) : ButMode (waitAtPort i s) (waitAtPort i t) := by
  obtain ⟨m, es, rfl, hes⟩ := h
  exact ⟨m, es, rfl, hes⟩

theorem ButMode.whenReady {s t : State} (h : ButMode s t) (i : Instr) {k l : State → Host.Outcome State Fault Refusal}
    (hkl : AlikeOutcome (k s) (l t)) : AlikeOutcome (whenReady i s k) (whenReady i t l) := by
  have hwait := (h.waitAtPort i).next
  obtain ⟨m, es, rfl, -⟩ := h
  unfold Machine.whenReady
  split_ifs
  · exact hwait
  · rfl
  · rfl
  · exact hkl

theorem ButMode.withinDevice {s t : State} (h : ButMode s t) (k : BusOp) {f : State → State}
    (hf : ButMode (f s) (f t)) : AlikeOutcome (withinDevice k s f) (withinDevice k t f) := by
  have hreach : reaches k t = reaches k s := by
    obtain ⟨m, es, rfl, -⟩ := h
    rfl
  unfold Machine.withinDevice
  rw [hreach]
  split_ifs
  · exact hf.next
  · rfl

theorem ButMode.exec {s t : State} (h : ButMode s t) (i : Instr) : AlikeOutcome (exec i s) (exec i t) := by
  have hlatched := h.latched i
  cases i with
  | illegal w =>
    have hwait := (h.waitAtPort (.illegal w)).next
    obtain ⟨m, es, rfl, hes⟩ := h
    show AlikeOutcome (execIllegal w s) (execIllegal w _)
    unfold execIllegal
    split_ifs
    · exact hwait
    · exact ButMode.next ⟨m, es, rfl, hes⟩
  | init a n =>
    have hwait := (h.waitAtPort (.init a n)).next
    have hrun := hlatched.initialise.next
    obtain ⟨m, es, rfl, -⟩ := h
    rw [exec_init, exec_init]
    unfold whenReadyForInit
    split_ifs
    · exact hwait
    · rfl
    · rfl
    · exact hrun
  | pageProgram a n buf =>
    rw [exec_pageProgram, exec_pageProgram]
    refine h.whenReady _ ?_
    rw [pageProgram_latched, pageProgram_latched]
    have hbracket := hlatched.withinDevice BracketCmd.pageProgram.busOp (hlatched.runBracket .pageProgram)
    have hfail := (hlatched.finish .fail).next
    obtain ⟨m, es, rfl, -⟩ := h
    split_ifs
    · exact hbracket
    · exact hfail
  | waitIdle =>
    rw [exec_waitIdle, exec_waitIdle]
    exact h.whenReady _ (ButMode.finishWith (butMode_bracketCongr.waitIdle (h.enter _ _))).next
  | read | fastRead =>
    rw [exec_readClass rfl, exec_readClass rfl]
    have hseq (u v : State) (huv : ButMode u v) := butMode_bracketCongr.seq huv .issueCommand
    exact h.whenReady _ (hlatched.withinDevice _ (ButMode.finishWith ((hseq _ _ (hlatched.enter _ _)).micro _)))
  | sectorErase | blockErase32 | blockErase64 | chipErase | writeSeq =>
    rw [exec_bracket rfl (by simp), exec_bracket rfl (by simp)]
    exact h.whenReady _ (hlatched.withinDevice _ (hlatched.runBracket _))
  | readId | readStatus1 | writeEnable | writeDisable | pageProgramCmd | sectorEraseCmd | blockErase32Cmd
  | blockErase64Cmd | readCmd | fastReadCmd =>
    rw [exec_alone rfl, exec_alone rfl]
    exact h.whenReady _ (h.withinDevice _ (ButMode.finishWith ((h.enter _ _).micro _)))

/-- Settles O20: every operation keeps two states alike but for the mode; only the bus form of events reads it. -/
theorem commandsDoNotDependOnMode : Obligations.CommandsDoNotDependOnMode := by
  intro i s m
  exact (ButMode.exec (s := s) (t := { s with mode := m }) ⟨m, s.events, rfl, rfl⟩ i).symm

end Sys2Proof.Machine

namespace Sys2Proof.Machine

/-! ## Registers that no operation, or not every operation, reads -/

theorem whenReady_idle_congr {i j : Instr} {s t : State} {k l : State → Host.Outcome State Fault Refusal}
    (hs : s.seq = .idle) (ht : t.seq = .idle) (hc : s.cfg = t.cfg) (hn : s.inited = t.inited) (hkl : k s = l t) :
    whenReady i s k = whenReady j t l := by
  simp [whenReady, hs, ht, hc, hn, hkl]

theorem whenReadyForInit_idle_congr {i j : Instr} {s t : State} {k l : State → State} (hs : s.seq = .idle)
    (ht : t.seq = .idle) (hc : s.cfg = t.cfg) (hn : s.inited = t.inited) (hkl : k s = l t) :
    whenReadyForInit i s k = whenReadyForInit j t l := by
  simp [whenReadyForInit, hs, ht, hc, hn, hkl]

theorem withinDevice_congr {k : BusOp} {s t : State} {f g : State → State} (hr : reaches k s = reaches k t)
    (hfg : f s = g t) : withinDevice k s f = withinDevice k t g := by
  simp only [withinDevice, hr, hfg]

/-! ### The result (R27) -/

/-- `t` is `s` with `r` in `RES`. -/
def WithRes (r : Result) (s t : State) : Prop := t = { s with res := r }

theorem deliver_withRes {r : Result} {s t : State} (h : WithRes r s t) (k : BusOp) (x : Exchange) :
    WithRes r (deliver k x s) (deliver k x t) := by
  subst h
  cases k with
  | readId => cases hx : x.ok <;> simp only [deliver, hx] <;> rfl
  | _ => rfl

theorem micro_withRes {r : Result} {s t : State} (h : WithRes r s t) (k : BusOp) :
    EndAlike (WithRes r) (micro k s) (micro k t) := by
  subst h
  exact ⟨rfl, deliver_withRes (s := (xfer (descriptor s k) s).2) rfl k _⟩

theorem withRes_bracketCongr (r : Result) : BracketCongr (WithRes r) where
  start h := by subst h; rfl
  poll h := by subst h; exact ⟨rfl, rfl⟩
  delay h := by subst h; rfl
  shows h := by subst h; exact ⟨rfl, rfl⟩
  seq h q := by subst h; rfl
  command h k _ _ := micro_withRes h k

/-- Every operation overwrites `RES` at its end (R205). -/
theorem finishWith_withRes {r : Result} {x y : Result × State} (h : EndAlike (WithRes r) x y) :
    finishWith y = finishWith x := by
  obtain ⟨hres, hstate⟩ := h
  unfold finishWith
  rw [← hres, hstate]
  rfl

theorem initialise_withRes {r : Result} {s t : State} (h : WithRes r s t) : initialise t = initialise s := by
  refine initialise_congr (R := WithRes r) (Q := fun u v => v = u) ?_ ?_ (fun h => ?_)
    (fun h => ⟨(micro_withRes h .readId).2, ?_⟩) (fun h => ?_) fun h id => ?_ <;> subst h
  · rfl
  · rfl
  · rfl
  · rfl
  · rfl
  · next u =>
      cases hs : scan u.cfg id <;> simp only [selectGeometry, hs] <;> rfl

theorem latched_withRes {r : Result} {s t : State} (h : WithRes r s t) (i : Instr) :
    WithRes r (latched i s) (latched i t) := by
  subst h
  cases i with
  | pageProgram a n buf =>
    by_cases hlen : buf.length = n
    · exact (loadTx_of_length (s := latch 0x3 a n _) hlen).trans
        (congrArg (fun u : State => { u with res := r }) (loadTx_of_length (s := latch 0x3 a n s) hlen).symm)
    · exact (loadTx_of_ne (s := latch 0x3 a n _) hlen).trans
        (congrArg (fun u : State => { u with res := r }) (loadTx_of_ne (s := latch 0x3 a n s) hlen).symm)
  | _ => rfl

theorem runBracket_withRes {r : Result} {s t : State} (h : WithRes r s t) (c : BracketCmd) :
    runBracket c t = runBracket c s := by
  refine finishWith_withRes ((withRes_bracketCongr r).writeSeq c ?_)
  subst h
  rfl

theorem reaches_withRes {r : Result} {s t : State} (h : WithRes r s t) (k : BusOp) : reaches k t = reaches k s := by
  subst h
  rfl

/-- Settles O55: nothing reads `RES`, and each end overwrites it. -/
theorem resultIsNeverRead : Obligations.ResultIsNeverRead := by
  intro i s r hs
  have hlatched := latched_withRes (r := r) (s := s) rfl i
  cases i with
  | illegal w => exact (exec_illegal_idle w (s := { s with res := r }) hs).trans (exec_illegal_idle w hs).symm
  | init a n =>
    rw [exec_init, exec_init]
    exact whenReadyForInit_idle_congr hs hs rfl rfl (initialise_withRes hlatched)
  | pageProgram a n buf =>
    rw [exec_pageProgram, exec_pageProgram]
    refine whenReady_idle_congr hs hs rfl rfl ?_
    rw [pageProgram_latched, pageProgram_latched]
    refine if_congr Iff.rfl ?_
      (congrArg Host.Outcome.next (finishWith_withRes (x := (.fail, _)) (y := (.fail, _)) ⟨rfl, hlatched⟩))
    exact withinDevice_congr (reaches_withRes hlatched _) (runBracket_withRes hlatched _)
  | waitIdle =>
    rw [exec_waitIdle, exec_waitIdle]
    refine whenReady_idle_congr hs hs rfl rfl (congrArg Host.Outcome.next ?_)
    exact finishWith_withRes ((withRes_bracketCongr r).waitIdle (s := enter .wait .waitIdlePre s) rfl)
  | read | fastRead =>
    rw [exec_readClass rfl, exec_readClass rfl]
    exact whenReady_idle_congr hs hs rfl rfl (withinDevice_congr rfl rfl)
  | sectorErase | blockErase32 | blockErase64 | chipErase | writeSeq =>
    rw [exec_bracket rfl (by simp), exec_bracket rfl (by simp)]
    exact whenReady_idle_congr hs hs rfl rfl
      (withinDevice_congr (reaches_withRes hlatched _) (runBracket_withRes hlatched _))
  | readId | readStatus1 | writeEnable | writeDisable | pageProgramCmd | sectorEraseCmd | blockErase32Cmd
  | blockErase64Cmd | readCmd | fastReadCmd =>
    rw [exec_alone rfl, exec_alone rfl]
    exact whenReady_idle_congr hs hs rfl rfl (withinDevice_congr rfl
      (finishWith_withRes (micro_withRes (s := enter _ _ s) rfl _)))

/-! ### Ignored operands (R93) -/

/-- `t` is `s` with another length word. -/
def WithLen (n : Nat) (s t : State) : Prop := t = { s with reqLen := n }

theorem micro_withLen {n : Nat} {s t : State} (h : WithLen n s t) (k : BusOp) (h1 : k ≠ .read) (h2 : k ≠ .fastRead) :
    EndAlike (WithLen n) (micro k s) (micro k t) := by
  subst h
  cases k with
  | read => exact absurd rfl h1
  | fastRead => exact absurd rfl h2
  | readId =>
    refine ⟨rfl, ?_⟩
    show WithLen n (readId s).2 (readId { s with reqLen := n }).2
    cases hok : (nextAnswer s).ok
    · rw [readId_of_fail (s := s) hok, readId_of_fail (s := { s with reqLen := n }) hok]
      rfl
    · rw [readId_of_ok (s := s) hok, readId_of_ok (s := { s with reqLen := n }) hok]
      rfl
  | _ => exact ⟨rfl, rfl⟩

theorem withLen_bracketCongr (n : Nat) : BracketCongr (WithLen n) where
  start h := by subst h; rfl
  poll h := by subst h; exact ⟨rfl, rfl⟩
  delay h := by subst h; rfl
  shows h := by subst h; exact ⟨rfl, rfl⟩
  seq h q := by subst h; rfl
  command h k h1 h2 := micro_withLen h k h1 h2

/-- No bracketed command takes its length from `REQ_LEN` (R91). -/
theorem runBracket_withLen {n : Nat} {s t : State} (h : WithLen n s t) (c : BracketCmd) :
    WithLen n (runBracket c s) (runBracket c t) := by
  obtain ⟨hres, hstate⟩ := (withLen_bracketCongr n).writeSeq c (s := enter (.writeClass c) .writeEnable s)
    (t := enter (.writeClass c) .writeEnable t) (by subst h; rfl)
  unfold runBracket finishWith
  rw [← hres, hstate]
  rfl

theorem reaches_withLen {n : Nat} {s t : State} (h : WithLen n s t) (c : BracketCmd) :
    reaches c.busOp t = reaches c.busOp s := by
  subst h
  cases c <;> rfl

/-- An erase with another length word is the same erase, but for the register that holds it. -/
theorem exec_erase_withLen {i j : Instr} {c : BracketCmd} {m : Nat} (hi : bracketOf i = some c)
    (hj : bracketOf j = some c)
    (hi' : ∀ a n b, i ≠ .pageProgram a n b) (hj' : ∀ a n b, j ≠ .pageProgram a n b) {s : State} (hs : s.seq = .idle)
    (h : WithLen m (latched i s) (latched j s)) :
    exec j s = outcomeMap (fun t => { t with reqLen := m }) (exec i s) := by
  rw [exec_bracket hi hi', exec_bracket hj hj', outcomeMap_whenReady _ _ hs]
  refine whenReady_idle_congr hs hs rfl rfl ?_
  unfold bracket
  rw [outcomeMap_withinDevice]
  exact withinDevice_congr (reaches_withLen h c) (runBracket_withLen h c)

/-- `t` is `s` with other operands. -/
def WithOperands (b : Addr) (n : Nat) (s t : State) : Prop := t = { s with reqAddr := b, reqLen := n }

/-- INIT looks at no operand (R131). -/
theorem initialise_withOperands {b : Addr} {n : Nat} {s t : State} (h : WithOperands b n s t) :
    WithOperands b n (initialise s) (initialise t) := by
  refine initialise_congr (R := WithOperands b n) ?_ ?_ (fun h => ?_) (fun h => ?_) (fun h => ?_) fun h id => ?_ <;>
    subst h
  · rfl
  · rfl
  · rfl
  · next u =>
      refine ⟨?_, rfl⟩
      cases hok : (nextAnswer u).ok
      · rw [readId_of_fail (s := u) hok, readId_of_fail (s := { u with reqAddr := b, reqLen := n }) hok]
        rfl
      · rw [readId_of_ok (s := u) hok, readId_of_ok (s := { u with reqAddr := b, reqLen := n }) hok]
        rfl
  · rfl
  · next u => cases hs : scan u.cfg id <;> simp only [selectGeometry, hs] <;> rfl

theorem outcomeMap_whenReadyForInit (f : State → State) (i : Instr) {s : State} (hs : s.seq = .idle)
    (k : State → State) : outcomeMap f (whenReadyForInit i s k) = whenReadyForInit i s fun t => f (k t) := by
  unfold whenReadyForInit
  split_ifs <;> first | rfl | exact absurd hs ‹_›

/-- Settles O56: the erases through their brackets, INIT through its events. -/
theorem ignoredOperandsHaveNoEffect : Obligations.IgnoredOperandsHaveNoEffect := by
  intro a b n m s hs
  refine ⟨exec_erase_withLen rfl rfl (by simp) (by simp) hs rfl, exec_erase_withLen rfl rfl (by simp) (by simp) hs rfl,
    exec_erase_withLen rfl rfl (by simp) (by simp) hs rfl, ?init⟩
  case init =>
    rw [exec_init, exec_init, outcomeMap_whenReadyForInit _ _ hs]
    exact whenReadyForInit_idle_congr hs hs rfl rfl (initialise_withOperands rfl)

/-! ### The upper bits of a status byte (R157) -/

/-- Two answers that report the same success, and one byte each with the same bit 0. -/
def SameBit (a b : Answer) : Prop := a.ok = b.ok ∧ ∃ x y : Byte, a.rx = [x] ∧ b.rx = [y] ∧ x &&& 1 = y &&& 1

/-- Two states in a wait on the oracle that have seen and will see the same busy bits. -/
structure SameBits (s t : State) : Prop where
  oracle : s.env = .oracle ∧ t.env = .oracle
  answers : List.Forall₂ SameBit s.answers t.answers
  free : s.free = t.free
  cfg : s.cfg = t.cfg
  mode : s.mode = t.mode
  count : s.pollCnt = t.pollCnt
  busy : busyBit s.srLast = busyBit t.srLast
  calls : s.events.map Event.call = t.events.map Event.call

theorem busyBit_eq_of_and {x y : Byte} (h : x &&& 1 = y &&& 1) : busyBit x = busyBit y := by
  have hbit := congrArg (fun b : Byte => b.getLsbD 0) h
  simpa [busyBit, Config.busyBit] using hbit

/-- The next answers agree in success and in the busy bit of the byte they give; unlisted ones are the same. -/
theorem SameBits.nextAnswer {s t : State} (h : SameBits s t) :
    (nextAnswer s).ok = (nextAnswer t).ok ∧
      busyBit ((fit s.free 1 (nextAnswer s).rx).getD 0 0) = busyBit ((fit t.free 1 (nextAnswer t).rx).getD 0 0) ∧
      List.Forall₂ SameBit s.answers.tail t.answers.tail := by
  have hans := h.answers
  unfold Machine.nextAnswer
  rw [h.free]
  cases hs : s.answers with
  | nil =>
    rw [hs] at hans
    rw [List.forall₂_nil_left_iff.mp hans]
    exact ⟨rfl, rfl, .nil⟩
  | cons a as =>
    rw [hs, List.forall₂_cons_left_iff] at hans
    obtain ⟨b, bs, ⟨hok, x, y, hx, hy, hxy⟩, hrest, ht⟩ := hans
    rw [ht]
    refine ⟨hok, ?_, hrest⟩
    dsimp only
    rw [hx, hy, fit_single, fit_single]
    exact busyBit_eq_of_and hxy

theorem poll_srLast_oracle {s : State} (h : s.env = .oracle) :
    (poll s).2.srLast = (fit s.free 1 (nextAnswer s).rx).getD 0 0 := by
  have hu : (respond { s with pollCnt := s.pollCnt + 1 } (nextAnswer s)
      (descriptor { s with pollCnt := s.pollCnt + 1 } .readStatus1)).1 = fit s.free 1 (nextAnswer s).rx :=
    congrArg Prod.fst (respond_oracle (s := { s with pollCnt := s.pollCnt + 1 }) h _ _)
  exact congrArg (fun l => l.getD 0 0) hu

theorem poll_env_oracle {s : State} (h : s.env = .oracle) : (poll s).2.env = .oracle :=
  congrArg Prod.snd (respond_oracle (s := { s with pollCnt := s.pollCnt + 1 }) h _ _)

theorem poll_calls (s : State) :
    (poll s).2.events.map Event.call =
      frame s.cfg s.mode ⟨s.cfg.opcodes.rdsr1, none, [], 1⟩ :: s.events.map Event.call :=
  congrArg (List.map Event.call) (micro_events .readStatus1 { s with pollCnt := s.pollCnt + 1 })

theorem sameBits_waitCongr : WaitCongr SameBits where
  start h := ⟨h.oracle, h.answers, h.free, h.cfg, h.mode, rfl, h.busy, h.calls⟩
  poll {s t} h := by
    obtain ⟨hok, hbit, htail⟩ := h.nextAnswer
    have hs := poll_exchanged s
    have ht := poll_exchanged t
    refine ⟨?result, ⟨poll_env_oracle h.oracle.1, poll_env_oracle h.oracle.2⟩, htail, congrArg (· + 1) h.free,
      by rw [hs.cfg, ht.cfg, h.cfg], by rw [hs.mode, ht.mode, h.mode], ?count, ?bit, ?calls⟩
    case result =>
      show (if (nextAnswer s).ok then Result.ok else .fail) = if (nextAnswer t).ok then .ok else .fail
      rw [hok]
    case count => rw [poll_pollCnt, poll_pollCnt, h.count]
    case bit => rwa [poll_srLast_oracle h.oracle.1, poll_srLast_oracle h.oracle.2]
    case calls => rw [poll_calls, poll_calls, h.cfg, h.mode, h.calls]
  delay {s t} h := by
    obtain ⟨-, -, htail⟩ := h.nextAnswer
    refine ⟨⟨?_, ?_⟩, htail, congrArg (· + 1) h.free, h.cfg, h.mode, h.count, h.busy, ?_⟩
    · rw [delayUs_env, h.oracle.1]; rfl
    · rw [delayUs_env, h.oracle.2]; rfl
    · simp only [delayUs_events, List.map_cons, h.cfg, h.calls]
  shows h := ⟨h.busy, h.count⟩

/-- Settles O34: a wait cannot tell the two runs apart. -/
theorem waitIdleReadsBitZeroOnly : Obligations.WaitIdleReadsBitZeroOnly := by
  intro s as bs hr he hans
  have hstart : SameBits (enter .wait .waitIdlePre { s with answers := as })
      (enter .wait .waitIdlePre { s with answers := bs }) := ⟨⟨he, he⟩, hans, rfl, rfl, rfl, rfl, rfl, rfl⟩
  obtain ⟨hres, hstate⟩ := sameBits_waitCongr.waitIdle hstart
  exact ⟨_, _, exec_waitIdle_ready (s := { s with answers := as }) hr,
    exec_waitIdle_ready (s := { s with answers := bs }) hr, hres.symm, hstate.count.symm, hstate.calls.symm⟩

end Sys2Proof.Machine

namespace Sys2Proof.Machine

/-! ## Brackets on the oracle (R160) -/

/-- The commands of a bracket return no bytes and deliver none (R91). -/
structure SendsOnly (k : BusOp) : Prop where
  rxLen : ∀ s, (descriptor s k).rxLen = 0
  deliver : ∀ x s, deliver k x s = s

theorem sendsOnly_busOp (c : BracketCmd) : SendsOnly c.busOp := by cases c <;> exact ⟨fun _ => rfl, fun _ _ => rfl⟩

theorem sendsOnly_writeEnable : SendsOnly .writeEnable := ⟨fun _ => rfl, fun _ _ => rfl⟩

theorem sendsOnly_writeDisable : SendsOnly .writeDisable := ⟨fun _ => rfl, fun _ _ => rfl⟩

/-- A good command without returned bytes on the oracle: one event, and nothing but the answer used (R110). -/
theorem micro_of_ok {k : BusOp} (hk : SendsOnly k) {s : State} {a : Answer} {rest : List Answer} (he : s.env = .oracle)
    (hans : s.answers = a :: rest) (ha : a.ok = true) :
    micro k s = (.ok, { s with
      answers := rest, free := s.free + 1, events := okEvent s s.seq k [] :: s.events }) := by
  have hnil : fit s.free 0 a.rx = [] := List.length_eq_zero_iff.mp (fit_length ..)
  have hx : xfer (descriptor s k) s = (⟨true, []⟩, { s with
      answers := rest, free := s.free + 1, events := okEvent s s.seq k [] :: s.events }) := by
    simp [xfer, nextAnswer_of_cons hans, ha, respond_oracle he, hk.rxLen, hnil, useAnswer, emit, okEvent, hans, he]
  have hmicro : micro k s = ((xfer (descriptor s k) s).1.result,
    deliver k (xfer (descriptor s k) s).1 (xfer (descriptor s k) s).2) := rfl
  rw [hmicro, hx, hk.deliver]
  rfl

/-- A WAIT_IDLE whose first read shows idle is one read (R153). -/
theorem waitIdle_of_idle {s : State} {a : Answer} {rest : List Answer} {b : Byte} (he : s.env = .oracle)
    (hans : s.answers = a :: rest) (ha : statusAnswer b a) (hb : busyBit b = false) :
    waitIdle s = (.ok, { s with
      pollCnt := 1, srLast := b, answers := rest, free := s.free + 1
      events := okEvent s s.seq .readStatus1 [b] :: s.events }) := by
  have hpoll := poll_of_status (s := { s with pollCnt := 0 }) he hans ha
  have hwait : waitIdle s = pollLoop (499 + 1) { s with pollCnt := 0 } := rfl
  rw [hwait, pollLoop_ended (r := .ok) (by rw [hpoll]; simp [pollOutcome, hb]), hpoll]
  rfl

/-- The five exchanges of a bracket on good answers and idle status bytes (R160). -/
theorem runBracket_of_ok (c : BracketCmd) {s : State} {a0 a1 a2 a3 a4 : Answer} {rest : List Answer} {b1 b3 : Byte}
    (he : s.env = .oracle) (hans : s.answers = a0 :: a1 :: a2 :: a3 :: a4 :: rest) (h0 : a0.ok = true)
    (h1 : statusAnswer b1 a1) (h2 : a2.ok = true) (h3 : statusAnswer b3 a3) (h4 : a4.ok = true)
    (hb1 : busyBit b1 = false) (hb3 : busyBit b3 = false) :
    runBracket c s = { s with
      seq := .idle, pollCnt := 1, srLast := b3, res := .ok, answers := rest, free := s.free + 5, job := .none
      phase := .start
      events :=
        okEvent s .writeDisable .writeDisable [] :: okEvent s .waitIdlePost .readStatus1 [b3] ::
        okEvent s .issueCommand c.busOp [] :: okEvent s .waitIdlePre .readStatus1 [b1] ::
        okEvent s .writeEnable .writeEnable [] :: s.events } := by
  unfold runBracket writeSeq writeEnable writeDisable
  rw [micro_of_ok sendsOnly_writeEnable (rest := a1 :: a2 :: a3 :: a4 :: rest) ?_ ?_ h0, andThen_ok,
    waitIdle_of_idle (rest := a2 :: a3 :: a4 :: rest) ?_ ?_ h1 hb1, andThen_ok,
    micro_of_ok (sendsOnly_busOp c) (rest := a3 :: a4 :: rest) ?_ ?_ h2, andThen_ok,
    waitIdle_of_idle (rest := a4 :: rest) ?_ ?_ h3 hb3, andThen_ok,
    micro_of_ok sendsOnly_writeDisable (rest := rest) ?_ ?_ h4]
  exacts [rfl, he, rfl, he, rfl, he, rfl, he, rfl, he, hans]

@[simp] theorem latched_answers (i : Instr) (s : State) : (latched i s).answers = s.answers := by
  cases i with
  | pageProgram a n buf => simp only [latched]; rw [loadTx_eq]; rfl
  | _ => rfl

@[simp] theorem latched_seq (i : Instr) (s : State) : (latched i s).seq = s.seq := by
  cases i with
  | pageProgram a n buf => simp only [latched]; rw [loadTx_eq]; rfl
  | _ => rfl

/-- A bracketed instruction that is ready and contained runs its bracket, inside the device (R160, R162). -/
theorem exec_bracket_contained {i : Instr} {c : BracketCmd} {s : State} (hc : bracketOf i = some c) (hr : Ready s)
    (hg : s.geomIdx < s.cfg.geomTable.length) (hcont : contained i s) (hd : reaches c.busOp (latched i s) = true) :
    exec i s = .next (runBracket c (latched i s)) :=
  exec_runs_bracket hc hr (pageCheck_of_contained hr.2.1 hg hcont) hd

/-- Settles O37: the bracket on the oracle, with the operands latched. -/
theorem bracketMakesFiveExchanges : Obligations.BracketMakesFiveExchanges := by
  intro i c s a0 a1 a2 a3 a4 rest b1 b3 hc hr hg hcont he hans h0 h1 h2 h3 h4 hb1 hb3
  have henv := (latched_env i s).trans he
  have hseq := hr.1
  rw [exec_bracket_contained hc hr hg hcont (reaches_oracle henv _),
    runBracket_of_ok c henv ((latched_answers i s).trans hans) h0 h1 h2 h3 h4 hb1 hb3]
  simp [hseq]

/-! ## The events of a bracket (R160, R161, R205) -/

/-- The latest event is a status read of a wait that was answered `Ok` and showed idle. -/
def ShowsIdle (s : State) (l : List Event) : Prop :=
  ∃ (b : Byte) (q : Seq) (more : List Event), l = okEvent s q .readStatus1 [b] :: more ∧ waiting q ∧ busyBit b = false

/-- Every event of the ISSUE_COMMAND or WRITE_DISABLE state comes right after such a read. -/
def Guarded (s : State) (new : List Event) : Prop :=
  ∀ (after older : List Event) (e : Event), new = after ++ e :: older →
    (e.seq = .issueCommand ∨ e.seq = .writeDisable) → ShowsIdle s older

theorem Guarded.cons {s : State} {new : List Event} (h : Guarded s new) {e : Event}
    (he : e.seq = .issueCommand ∨ e.seq = .writeDisable → ShowsIdle s new) : Guarded s (e :: new) := by
  intro after older e' hsplit hq
  cases after with
  | nil =>
    obtain ⟨rfl, rfl⟩ := List.cons.inj hsplit
    exact he hq
  | cons a after => exact h after older e' (List.cons.inj hsplit).2 hq

theorem guarded_nil (s : State) : Guarded s [] := by
  intro after older e h
  simp at h

/-- The events of a wait need no guard. -/
theorem Guarded.append_waits {s : State} {new l : List Event} (h : Guarded s new) (hl : ∀ e ∈ l, waiting e.seq) :
    Guarded s (l ++ new) := by
  induction l with
  | nil => exact h
  | cons e l ih =>
    refine (ih fun e' he' => hl e' (List.mem_cons_of_mem _ he')).cons fun hq => ?_
    rcases hl e (List.mem_cons_self ..) with hw | hw <;> simp [hw] at hq

/-- The first event is the write-enable. -/
def StartsEnabled (s : State) (new : List Event) : Prop :=
  ∃ e, new.getLast? = some e ∧ e.seq = .writeEnable ∧ e.cmd = some (descriptor s .writeEnable)

theorem StartsEnabled.append {s : State} {new : List Event} (h : StartsEnabled s new) (l : List Event) :
    StartsEnabled s (l ++ new) := by
  obtain ⟨e, he, hq, hcmd⟩ := h
  exact ⟨e, by rw [List.getLast?_append, he]; rfl, hq, hcmd⟩

/-- `t` is `s` but for what the parts of a bracket write, and has the events `new` more. -/
def BracketFrame (s t : State) (new : List Event) : Prop :=
  t = { s with
        seq := t.seq, pollCnt := t.pollCnt, srLast := t.srLast, env := t.env, answers := t.answers, free := t.free
        job := t.job, phase := t.phase, events := new ++ s.events }

/-- A bracket that has gone well so far, with at most `n` events. -/
structure Sofar (s u : State) (new : List Event) (n : Nat) : Prop where
  frame : BracketFrame s u new
  good : ∀ e ∈ new, e.reply ≠ .fail ∧ e.seq ≠ .writeDisable
  guarded : Guarded s new
  first : StartsEnabled s new
  length : new.length ≤ n

/-- How a bracket ends: with its last event, and what its result says of that event. -/
structure BracketEnds (s : State) (x : Result × State) (last : Event) (before : List Event) : Prop where
  frame : BracketFrame s x.2 (last :: before)
  good : ∀ e ∈ before, e.reply ≠ .fail ∧ e.seq ≠ .writeDisable
  guarded : Guarded s (last :: before)
  first : StartsEnabled s (last :: before)
  ok : x.1 = .ok ↔ last.seq = .writeDisable ∧ last.reply = .ok []
  fail : x.1 = .fail ↔ last.reply = .fail
  timeout : x.1 = .timeout → x.2.pollCnt = 500 ∧ busyBit x.2.srLast = true ∧ waiting last.seq
  length : before.length ≤ 2000

/-- What comes after a part that ended with `Ok` ends the bracket; any other result has ended it. -/
theorem andThen_bracketEnds {P : State → Prop} {s : State} {x : Result × State} {k : State → Result × State}
    (hx : (x.1 = .ok ∧ P x.2) ∨ (x.1 ≠ .ok ∧ ∃ last before, BracketEnds s x last before))
    (hk : ∀ u, P u → ∃ last before, BracketEnds s (k u) last before) :
    ∃ last before, BracketEnds s (andThen x k) last before := by
  rcases andThen_cases x k with ⟨hne, h⟩ | ⟨hok, h⟩ <;> rw [h]
  · exact (hx.resolve_left fun h' => hne h'.1).2
  · exact hk _ (hx.resolve_right fun h' => h'.1 hok).2

theorem micro_polled {k : BusOp} (hk : SendsOnly k) (s : State) : Polled s (micro k s).2 := by
  have hmicro : (micro k s).2 = deliver k (xfer (descriptor s k) s).1 (xfer (descriptor s k) s).2 := rfl
  unfold Polled
  rw [hmicro, hk.deliver]
  rfl

theorem Polled.place {s t : State} (h : Polled s t) : t.seq = s.seq ∧ t.job = s.job ∧ t.phase = s.phase := by
  unfold Polled at h
  rw [h]
  exact ⟨rfl, rfl, rfl⟩

/-- The frame after one more part of the bracket. -/
theorem BracketFrame.polled {s u t : State} {new l : List Event} {q : Seq} (h : BracketFrame s u new)
    (hp : Polled (setSeq q u) t) (he : t.events = l ++ (setSeq q u).events) : BracketFrame s t (l ++ new) := by
  have hevents : t.events = l ++ new ++ s.events := by
    rw [he, setSeq_events, h, List.append_assoc]
  obtain ⟨hseq, hjob, hphase⟩ := hp.place
  unfold BracketFrame
  rw [← hevents, hseq, hjob, hphase]
  refine Eq.trans hp ?_
  rw [h]
  rfl

/-- Events inside a bracket take their form from registers it does not write. -/
theorem BracketFrame.descriptor {s u : State} {new : List Event} (h : BracketFrame s u new) (k : BusOp) :
    descriptor u k = descriptor s k := by
  rw [h]
  rfl

theorem BracketFrame.okEvent {s u : State} {new : List Event} (h : BracketFrame s u new) (q q' : Seq) (k : BusOp)
    (rx : List Byte) : okEvent (setSeq q' u) q k rx = okEvent s q k rx := by
  rw [h]
  rfl

theorem BracketFrame.failEvent {s u : State} {new : List Event} (h : BracketFrame s u new) (q q' : Seq) (k : BusOp) :
    failEvent (setSeq q' u) q k = failEvent s q k := by
  rw [h]
  rfl

/-- One command of the bracket: its event and its result (R110). -/
theorem bracket_command {s u : State} {new : List Event} (h : BracketFrame s u new) (q : Seq) {k : BusOp}
    (hk : SendsOnly k) :
    ((micro k (setSeq q u)).1 = .ok ∧ BracketFrame s (micro k (setSeq q u)).2 (okEvent s q k [] :: new)) ∨
    ((micro k (setSeq q u)).1 = .fail ∧ BracketFrame s (micro k (setSeq q u)).2 (failEvent s q k :: new)) := by
  rw [← h.okEvent q q k [], ← h.failEvent q q k]
  rcases micro_cases (hk.rxLen (setSeq q u)) with ⟨hr, he⟩ | ⟨hr, he⟩
  · exact .inl ⟨hr, h.polled (l := [_]) (micro_polled hk _) he⟩
  · exact .inr ⟨hr, h.polled (l := [_]) (micro_polled hk _) he⟩

/-- A wait of the bracket: goes on with a read that showed idle, or ends it. -/
theorem bracket_wait {s u : State} {new : List Event} {n : Nat} (h : Sofar s u new n) (hn : n ≤ 1001) {q : Seq}
    (hq : waiting q) :
    ((waitIdle (setSeq q u)).1 = .ok ∧
      ∃ new', Sofar s (waitIdle (setSeq q u)).2 new' (n + 999) ∧ ShowsIdle s new') ∨
    ((waitIdle (setSeq q u)).1 ≠ .ok ∧ ∃ last before, BracketEnds s (waitIdle (setSeq q u)) last before) := by
  obtain ⟨bs, e, hframe, hbs, hevents, hcnt, hlen, heq, hend⟩ := waitIdle_ends (setSeq q u)
  generalize waitIdle (setSeq q u) = x at *
  have hbusy := busyEvents_congr (s := s) (t := setSeq q u) (by rw [h.frame]; rfl) (by rw [h.frame]; rfl) q bs
  have hfr : BracketFrame s x.2 (e :: busyEvents s q bs ++ new) :=
    h.frame.polled hframe (by rw [hevents, ← hbusy]; rfl)
  have hqne : q ≠ .writeDisable := by rcases hq with rfl | rfl <;> simp
  have hread := h.frame.okEvent q q .readStatus1 [x.2.srLast]
  have hfailed := h.frame.failEvent q q .readStatus1
  simp only [setSeq_seq] at hend heq
  rw [hread, hfailed] at hend
  have hgood : ∀ e' ∈ busyEvents s q bs ++ new, e'.reply ≠ .fail ∧ e'.seq ≠ .writeDisable := by
    intro e' he'
    rcases List.mem_append.mp he' with he' | he'
    · obtain ⟨hseq, hreply⟩ := mem_busyEvents he'
      exact ⟨hreply, hseq ▸ hqne⟩
    · exact h.good e' he'
  have hguarded : Guarded s (e :: busyEvents s q bs ++ new) :=
    h.guarded.append_waits (l := e :: busyEvents s q bs) fun e' he' => by
      rcases List.mem_cons.mp he' with rfl | he'
      · rwa [heq]
      · rwa [(mem_busyEvents he').1]
  have hfirst := h.first.append (e :: busyEvents s q bs)
  have hcount : (busyEvents s q bs ++ new).length ≤ n + 998 := by
    have := h.length
    simp only [List.length_append, busyEvents_length]
    omega
  rcases hend with ⟨hr, he, hb⟩ | ⟨hr, he⟩ | ⟨hr, he, hb, hp⟩
  · refine .inl ⟨hr, _, ⟨hfr, ?_, hguarded, hfirst, by simpa using hcount⟩, x.2.srLast, q, _, by rw [he]; rfl, hq, hb⟩
    intro e' he'
    rcases List.mem_cons.mp he' with rfl | he'
    · rw [he]
      exact ⟨by simp [okEvent], hqne⟩
    · exact hgood e' he'
  · refine .inr ⟨by simp [hr], e, _, hfr, hgood, hguarded, hfirst, ?_, ?_, by simp [hr], hcount.trans (by omega)⟩
    · simp [hr, he, failEvent]
    · simp [hr, he, failEvent]
  · refine .inr ⟨by simp [hr], e, _, hfr, hgood, hguarded, hfirst, ?_, ?_, fun _ => ⟨hp, hb, by rwa [heq]⟩,
      hcount.trans (by omega)⟩
    · simp [hr, heq, hqne]
    · simp [hr, he, okEvent]

/-- The write-enable of a bracket. -/
theorem bracket_enable (s : State) {u : State} (h : BracketFrame s u []) :
    ((writeEnable (setSeq .writeEnable u)).1 = .ok ∧
      ∃ new, Sofar s (writeEnable (setSeq .writeEnable u)).2 new 1) ∨
    ((writeEnable (setSeq .writeEnable u)).1 ≠ .ok ∧
      ∃ last before, BracketEnds s (writeEnable (setSeq .writeEnable u)) last before) := by
  have hguarded {e : Event} (hq : e.seq = .writeEnable) : Guarded s [e] :=
    (guarded_nil s).cons fun h' => by rcases h' with h' | h' <;> simp [hq] at h'
  unfold writeEnable
  have hcommand := bracket_command h .writeEnable sendsOnly_writeEnable
  generalize micro .writeEnable (setSeq .writeEnable u) = x at hcommand ⊢
  rcases hcommand with ⟨hr, hfr⟩ | ⟨hr, hfr⟩
  · exact .inl ⟨hr, _, hfr, by simp [okEvent], hguarded rfl, ⟨_, rfl, rfl, rfl⟩, by simp⟩
  · exact .inr ⟨by simp [hr], _, _, hfr, by simp, hguarded rfl, ⟨_, rfl, rfl, rfl⟩, by simp [hr, failEvent],
      by simp [hr, failEvent], by simp [hr], by simp⟩

/-- The command of a bracket, after a read that showed idle. -/
theorem bracket_issue {s u : State} {new : List Event} {n : Nat} (h : Sofar s u new n) (hn : n ≤ 2000)
    (hidle : ShowsIdle s new) (c : BracketCmd) :
    ((micro c.busOp (setSeq .issueCommand u)).1 = .ok ∧
      ∃ new', Sofar s (micro c.busOp (setSeq .issueCommand u)).2 new' (n + 1)) ∨
    ((micro c.busOp (setSeq .issueCommand u)).1 ≠ .ok ∧
      ∃ last before, BracketEnds s (micro c.busOp (setSeq .issueCommand u)) last before) := by
  have hcommand := bracket_command h.frame .issueCommand (sendsOnly_busOp c)
  generalize micro c.busOp (setSeq .issueCommand u) = x at hcommand ⊢
  rcases hcommand with ⟨hr, hfr⟩ | ⟨hr, hfr⟩
  · refine .inl ⟨hr, _, hfr, fun e he => ?_, h.guarded.cons fun _ => hidle, h.first.append [_],
      by simpa using h.length⟩
    rcases List.mem_cons.mp he with rfl | he
    · simp [okEvent]
    · exact h.good e he
  · exact .inr ⟨by simp [hr], _, _, hfr, h.good, h.guarded.cons fun _ => hidle, h.first.append [_],
      by simp [hr, failEvent], by simp [hr, failEvent], by simp [hr], h.length.trans hn⟩

/-- The write-disable of a bracket is its last event, whatever the answer. -/
theorem bracket_disable {s u : State} {new : List Event} {n : Nat} (h : Sofar s u new n) (hn : n ≤ 2000)
    (hidle : ShowsIdle s new) :
    ∃ last before, BracketEnds s (writeDisable (setSeq .writeDisable u)) last before := by
  unfold writeDisable
  have hcommand := bracket_command h.frame .writeDisable sendsOnly_writeDisable
  generalize micro .writeDisable (setSeq .writeDisable u) = x at hcommand ⊢
  rcases hcommand with ⟨hr, hfr⟩ | ⟨hr, hfr⟩
  · exact ⟨_, _, hfr, h.good, h.guarded.cons fun _ => hidle, h.first.append [_], by simp [hr, okEvent],
      by simp [hr, okEvent], by simp [hr], h.length.trans hn⟩
  · exact ⟨_, _, hfr, h.good, h.guarded.cons fun _ => hidle, h.first.append [_], by simp [hr, failEvent],
      by simp [hr, failEvent], by simp [hr], h.length.trans hn⟩

/-- Every bracket ends so, whatever the agents answer. -/
theorem writeSeq_ends (c : BracketCmd) {s u : State} (h : BracketFrame s u []) :
    ∃ last before, BracketEnds s (writeSeq c u) last before :=
  andThen_bracketEnds (P := fun v => ∃ new, Sofar s v new 1) (bracket_enable s h) fun _ ⟨_, h1⟩ =>
    andThen_bracketEnds (P := fun v => ∃ new, Sofar s v new 1000 ∧ ShowsIdle s new)
      (bracket_wait h1 (by omega) (.inl rfl)) fun _ ⟨_, h2, hidle⟩ =>
      andThen_bracketEnds (P := fun v => ∃ new, Sofar s v new 1001) (bracket_issue h2 (by omega) hidle c)
        fun _ ⟨_, h3⟩ =>
        andThen_bracketEnds (P := fun v => ∃ new, Sofar s v new 2000 ∧ ShowsIdle s new)
          (bracket_wait h3 (by omega) (.inr rfl)) fun _ ⟨_, h4, hidle'⟩ => bracket_disable h4 (by omega) hidle'

theorem commandOf_of_bracketOf {i : Instr} {c : BracketCmd} (h : bracketOf i = some c) :
    commandOf i = some c.busOp := by
  cases i <;> simp only [bracketOf, reduceCtorEq, Option.some.injEq] at h <;> subst h <;> rfl

/-- Settles O38: the ends of the bracket's parts, with the operands latched. -/
theorem bracketReturnsEarly : Obligations.BracketReturnsEarly := by
  intro i c s hc hr hg hcont hd
  have hseq := hr.1
  obtain ⟨last, before, hend⟩ := writeSeq_ends c (s := latched i s)
    (u := enter (.writeClass c) .writeEnable (latched i s)) rfl
  refine ⟨_, last, before, exec_bracket_contained hc hr hg hcont (hd _ (commandOf_of_bracketOf hc)), ?frame, hend.good,
    hend.ok, hend.fail, hend.timeout, hend.guarded, hend.length⟩
  case frame =>
    refine (congrArg (finish _) hend.frame).trans ?_
    simp [runBracket, finishWith, finish, hseq]

/-- A bracketed instruction that comes to a next state fails its page check or runs its bracket (R160, R163). -/
theorem Ran.of_bracket {i : Instr} {c : BracketCmd} {s t : State} (hc : bracketOf i = some c) (h : Ran i s t) :
    (t = finish .fail (latched i s) ∧ ∃ a n buf, i = .pageProgram a n buf ∧
      pageCheck (pageSize s.cfg s.geomIdx) a n = false) ∨
    (reaches c.busOp (latched i s) = true ∧ t = runBracket c (latched i s)) := by
  cases h with
  | illegal _ hi _ | init _ _ hi _ _ _ | wait hi _ _ => simp [hi, bracketOf] at hc
  | alone k hi _ _ _ => cases i <;> simp [aloneOf] at hi <;> simp [bracketOf] at hc
  | read _ _ _ _ hi _ _ _ => cases i <;> simp [readOf] at hi <;> simp [bracketOf] at hc
  | rejected a n buf hi _ hcheck ht => exact .inl ⟨ht, a, n, buf, hi, hcheck⟩
  | bracket c' hi _ _ hd ht =>
    obtain rfl : c' = c := Option.some.inj (hi.symm.trans hc)
    exact .inr ⟨hd, ht⟩

/-- Settles O39: the events of the bracket's parts. -/
theorem bracketObservesIdleFirst : Obligations.BracketObservesIdleFirst := by
  intro i c s t new hc hr hcont hg h hnew
  obtain ⟨last, before, hend⟩ := writeSeq_ends c (s := latched i s)
    (u := enter (.writeClass c) .writeEnable (latched i s)) rfl
  rcases (exec_ran hr.1 h).of_bracket hc with ⟨-, a, n, buf, hi, hcheck⟩ | ⟨-, rfl⟩
  · simp [pageCheck_of_contained hr.2.1 hg hcont a n buf hi] at hcheck
  · have hevents : (runBracket c (latched i s)).events = last :: before ++ s.events :=
      (congrArg State.events hend.frame).trans (by simp)
    obtain rfl : new = last :: before := List.append_cancel_right (hnew.symm.trans hevents)
    exact ⟨hend.first, hend.guarded⟩

end Sys2Proof.Machine

namespace Sys2Proof.Machine

/-! ## Pending work of the reference device (R71, R74) -/

/-- A completion leaves a byte that no command touched as the pending work does (R71). -/
theorem Device.read_complete (c : Nat) {x : Completion} {d : Device} (hx : x.now = true) (hd : d.busy = true)
    (hm : Memory.wf d.mem = true) {a : Nat} (ha : d.untouched a) :
    Memory.read (d.complete c x).mem a = Memory.read (d.pending.elim d.mem (Work.apply c d.mem)) a := by
  have hmem : (d.complete c x).mem = d.settled c := by simp [Device.complete, hx, hd]
  rw [hmem, Device.read_settled c hm ha]

/-- Settles O44: per untouched byte, what the pending work leaves there. -/
theorem completionAppliesWork : Obligations.CompletionAppliesWork := by
  intro c m d hwf hd hnow
  refine ⟨by simp [Device.complete, hd, hnow], fun x hx => ⟨fun hp => ?none, fun lo size hp => ?erase,
    fun lo data hp => ⟨fun hout => ?outside, fun i hi hlt hff => ?inside⟩⟩⟩
  case none => rw [Device.read_complete c hnow hd hwf hx, hp]; rfl
  case erase => exact Device.read_complete_erase c hnow hd hwf hp hx
  case outside =>
    rw [Device.read_complete c hnow hd hwf hx, hp]
    exact Memory.read_program_outside c hwf lo data x hout
  case inside =>
    subst hi
    rw [Device.read_complete c hnow hd hwf hx, hp, List.getElem?_eq_getElem hlt]
    exact congrArg some (Memory.read_program_erased c hwf lo data i hlt hff)

/-- The opcode byte of a descriptor is that of its command. -/
theorem descriptor_opc (s : State) (k : BusOp) : (descriptor s k).opc = opcodeOf s.cfg.opcodes k := by
  cases k <;> rfl

/-! ### An idle device -/

/-- The work a bracketed command asks for, from the operand registers (R54, R58). -/
def workFor (size : Nat) (s : State) (c : BracketCmd) : Work :=
  match c with
  | .pageProgram => .program (target size s c).1 s.txBuf
  | _ => .erase (target size s c).1 (target size s c).2

theorem workOf_descriptor (d : Device) (s : State) (c : BracketCmd) :
    d.workOf (descriptor s c.busOp) c.busOp = some (workFor d.size s c) := by
  cases c <;> rfl

theorem workFor_range (size : Nat) (s : State) (c : BracketCmd) : (workFor size s c).range = target size s c := by
  cases c <;> rfl

theorem whenIdle_busOp (m : Nat) (a : Answer) (any : List Byte) (cmd : Cmd) (d : Device) (c : BracketCmd) :
    d.whenIdle m a any cmd c.busOp = (any, d.accept m a c.busOp cmd) := by
  cases c <;> rfl

/-- Settles O43: without the latch the command is dropped, with it its work is started. -/
theorem writeClassNeedsLatch : Obligations.WriteClassNeedsLatch := by
  intro s c m a any d hp hd
  rw [Device.receive_idle (Params.wf_distinct hp) (descriptor_opc s c.busOp) m a any hd, whenIdle_busOp]
  refine ⟨fun hwel => by simp [Device.accept, workOf_descriptor, hwel], fun hwel hin => ?_⟩
  have haccept : d.accept m a c.busOp (descriptor s c.busOp) = d.start (workFor d.size s c) := by
    simp [Device.accept, workOf_descriptor, hwel, hin]
  rw [haccept]
  cases c <;> rfl

/-! ### A busy device -/

/-- A disturbed region leaves every byte outside it (R74). -/
theorem Device.read_disturb_outside (c : Nat) {d : Device} (h : Memory.wf d.mem = true) (r : Nat × Nat) {x : Nat}
    (hx : x < r.1 ∨ r.1 + r.2 ≤ x) : Memory.read (d.disturb c r).mem x = Memory.read d.mem x :=
  Memory.read_anyIn_outside c h _ _ _ (by omega)

/-- Everything a busy device does with a command other than the status read (R74 (b)). -/
theorem Device.whenBusy_cases (c : Nat) (a : Answer) (any : List Byte) (cmd : Cmd) (d : Device) {k : BusOp}
    (hk : k ≠ .readStatus1) :
    (d.workOf cmd k = none ∧ d.whenBusy c a any cmd k = (any, d)) ∨
    (d.workOf cmd k = none ∧ (k = .writeEnable ∨ k = .writeDisable) ∧
      d.whenBusy c a any cmd k = (any, { d with wel := a.welOpen })) ∨
    (∃ w, d.workOf cmd k = some w ∧
      d.whenBusy c a any cmd k = (any, if a.took then d.disturb c w.range else d)) := by
  cases k with
  | readStatus1 => exact absurd rfl hk
  | readId | read | fastRead => exact .inl ⟨rfl, rfl⟩
  | writeEnable | writeDisable => exact .inr (.inl ⟨rfl, by simp, rfl⟩)
  | pageProgram | sectorErase | blockErase32 | blockErase64 | chipErase => exact .inr (.inr ⟨_, rfl, rfl⟩)

/-- Settles O42: the cases of a command that meets a busy device. -/
theorem busyDeviceIsTouchedInRangeOnly : Obligations.BusyDeviceIsTouchedInRangeOnly := by
  intro s k c a any d hp hd hwf hk
  rw [Device.receive_known (Params.wf_distinct hp) (descriptor_opc s k), if_pos hd]
  rcases Device.whenBusy_cases c a any (descriptor s k) d hk with ⟨hw, h⟩ | ⟨hw, hlatch, h⟩ | ⟨w, hw, h⟩ <;> rw [h, hw]
  · exact ⟨d, rfl, hd, rfl, fun _ => ⟨rfl, fun _ _ => rfl⟩, by simp⟩
  · refine ⟨_, rfl, hd, rfl, fun _ => ⟨rfl, fun h1 h2 => ?_⟩, by simp⟩
    exact absurd hlatch (not_or.mpr ⟨h1, h2⟩)
  · cases a.took with
    | false => exact ⟨d, rfl, hd, rfl, by simp, fun _ _ => ⟨rfl, .inl rfl, fun _ _ => rfl⟩⟩
    | true =>
      refine ⟨d.disturb c w.range, rfl, hd, rfl, by simp, fun w' hw' => ?_⟩
      obtain rfl := Option.some.inj hw'
      exact ⟨rfl, .inr rfl, fun x hx => Device.read_disturb_outside c hwf.1 _ hx⟩

end Sys2Proof.Machine

namespace Sys2Proof.Machine

/-! ## What an exchange does to an idle device -/

/-- The command with only the first `p` bytes of its data, as a failed exchange may deliver it (R118). -/
def Cmd.cut (p : Nat) (cmd : Cmd) : Cmd := { cmd with tx := cmd.tx.take p }

theorem Cmd.cut_length (cmd : Cmd) : cmd.cut cmd.tx.length = cmd := by simp [Cmd.cut]

/-- Whatever the driver reports, the device got nothing or the command, possibly cut (R118). -/
theorem Device.take_state {P : Device → Prop} {o : Opcodes} {c : Nat} {a : Answer} {any : List Byte} {cmd : Cmd}
    {d : Device} (h : P d) (hr : ∀ p, P (d.receive o c a any (cmd.cut p)).2) : P (d.take o c a any cmd).2 := by
  unfold Device.take
  split_ifs
  · exact cmd.cut_length ▸ hr cmd.tx.length
  · exact hr a.part
  · exact h

/-- A cut command still stays inside the device. -/
theorem Device.holds_cut {d : Device} {k : BusOp} {cmd : Cmd} (p : Nat) (h : d.holds k cmd = true) :
    d.holds k (cmd.cut p) = true := by
  cases k with
  | pageProgram =>
    have hlen : (cmd.cut p).tx.length ≤ cmd.tx.length := List.length_take_le' ..
    have hstart : (cmd.cut p).start = cmd.start := rfl
    simp only [Device.holds, Device.holdsProgram, Bool.and_eq_true, decide_eq_true_eq] at h ⊢
    rw [hstart]
    omega
  | _ => exact h

/-- The commands of the eleven that ask for no program or erase. -/
def Workless (k : BusOp) : Prop := ∀ c : BracketCmd, k ≠ c.busOp

theorem Device.whenIdle_workless {k : BusOp} (hk : Workless k) (c : Nat) (a : Answer) (any : List Byte) (cmd : Cmd)
    (d : Device) :
    (d.whenIdle c a any cmd k).2.mem = d.mem ∧ (d.whenIdle c a any cmd k).2.busy = d.busy ∧
      (k ≠ .writeEnable → k ≠ .writeDisable → (d.whenIdle c a any cmd k).2 = d) := by
  cases k with
  | readId | readStatus1 | read | fastRead => exact ⟨rfl, rfl, fun _ _ => rfl⟩
  | writeEnable => exact ⟨rfl, rfl, fun h => absurd rfl h⟩
  | writeDisable => exact ⟨rfl, rfl, fun _ h => absurd rfl h⟩
  | pageProgram => exact absurd rfl (hk .pageProgram)
  | sectorErase => exact absurd rfl (hk .sectorErase)
  | blockErase32 => exact absurd rfl (hk .blockErase32)
  | blockErase64 => exact absurd rfl (hk .blockErase64)
  | chipErase => exact absurd rfl (hk .chipErase)

/-- A command without work leaves the array of an idle device, and all of it but for the latch commands. -/
theorem Device.exchange_workless {o : Opcodes} (ho : o.distinct = true) {cmd : Cmd} {k : BusOp} (hk : Workless k)
    (hcmd : cmd.opc = opcodeOf o k) (c : Nat) (a : Answer) {d : Device} (hd : d.busy = false) :
    (d.exchange o c a cmd).2.mem = d.mem ∧
      (k ≠ .writeEnable → k ≠ .writeDisable → (d.exchange o c a cmd).2 = d) := by
  have htake := Device.take_state (o := o) (c := 3 * c + 1) (a := a) (any := fit c cmd.rxLen a.rx) (cmd := cmd) (d := d)
    (P := fun e => e.mem = d.mem ∧ e.busy = d.busy ∧ (k ≠ .writeEnable → k ≠ .writeDisable → e = d))
    ⟨rfl, rfl, fun _ _ => rfl⟩ fun p => by
      rw [Device.receive_idle ho (cmd := cmd.cut p) hcmd _ _ _ hd]
      exact Device.whenIdle_workless hk ..
  obtain ⟨hmem, hbusy, hsame⟩ := htake
  simp only [Device.exchange, Device.complete_idle _ _ hd]
  rw [Device.complete_idle _ _ (hbusy.trans hd)]
  exact ⟨hmem, hsame⟩

/-! ### The device inside an operation -/

/-- `u` is a state inside an operation of `s`, with the reference device `d` behind the transport. -/
structure Facing (s u : State) (d : Device) : Prop where
  cfg : u.cfg = s.cfg
  descriptor : ∀ k, descriptor u k = descriptor s k
  env : u.env = .reference d

theorem Facing.refl {s : State} {d : Device} (h : s.env = .reference d) : Facing s s d := ⟨rfl, fun _ => rfl, h⟩

theorem Facing.setSeq {s u : State} {d : Device} (h : Facing s u d) (q : Seq) : Facing s (setSeq q u) d :=
  ⟨h.cfg, h.descriptor, h.env⟩

theorem Facing.micro {s u : State} {d : Device} (h : Facing s u d) (k : BusOp) :
    Facing s (micro k u).2
      (d.exchange s.cfg.opcodes u.free (nextAnswer u) (Machine.descriptor s k)).2 := by
  have hx := micro_exchanged k u
  refine ⟨hx.cfg.trans h.cfg, fun k' => (hx.descriptor k').trans (h.descriptor k'), ?_⟩
  rw [micro_env, respond_reference h.env, h.descriptor, h.cfg]

/-- A status read lets the device complete, and shows whether it was busy in between (R71, R72). -/
theorem Device.exchange_readStatus1 {o : Opcodes} (ho : o.distinct = true) {cmd : Cmd} (hcmd : cmd.opc = o.rdsr1)
    (c : Nat) (a : Answer) (d : Device) :
    (d.exchange o c a cmd).2 = (d.complete (3 * c) a.before).complete (3 * c + 2) a.after ∧
      (a.ok = true → ∃ b, (d.exchange o c a cmd).1 = [statusByte (d.complete (3 * c) a.before).busy b]) := by
  refine ⟨congrArg (Device.complete _ _) ?_, fun ha => ⟨(fit c cmd.rxLen a.rx).getD 0 0, ?_⟩⟩
  · exact Device.take_state (P := (· = d.complete (3 * c) a.before)) rfl fun p => by
      rw [Device.receive_readStatus1 ho (cmd := cmd.cut p) hcmd]
  · simp [Device.exchange, Device.take, ha, Device.receive_readStatus1 ho hcmd]

theorem Facing.poll {s u : State} {d : Device} (h : Facing s u d) (hp : s.cfg.wf = true) :
    Facing s (poll u).2
      ((d.complete (3 * u.free) (nextAnswer u).before).complete (3 * u.free + 2) (nextAnswer u).after) := by
  rw [← (Device.exchange_readStatus1 (Params.wf_distinct hp) (cmd := Machine.descriptor s .readStatus1) rfl _ _ _).1]
  exact Facing.micro (u := { u with pollCnt := u.pollCnt + 1 }) ⟨h.cfg, h.descriptor, h.env⟩ .readStatus1

/-- A good status read shows the busy flag. -/
theorem Facing.busyBit_poll {s u : State} {d : Device} (h : Facing s u d) (hp : s.cfg.wf = true)
    (hok : (nextAnswer u).ok = true) :
    busyBit (Machine.poll u).2.srLast = (d.complete (3 * u.free) (nextAnswer u).before).busy := by
  have hdesc : Machine.descriptor { u with pollCnt := u.pollCnt + 1 } .readStatus1 =
      Machine.descriptor s .readStatus1 :=
    h.descriptor .readStatus1
  obtain ⟨-, hbyte⟩ := Device.exchange_readStatus1 (Params.wf_distinct hp)
    (cmd := Machine.descriptor s .readStatus1) rfl u.free (nextAnswer u) d
  obtain ⟨b, hb⟩ := hbyte hok
  have hlast : (Machine.poll u).2.srLast =
      (respond { u with pollCnt := u.pollCnt + 1 } (nextAnswer u) (Machine.descriptor s .readStatus1)).1.getD 0 0 :=
    hdesc ▸ readStatus1_srLast _
  rw [hlast, respond_reference (s := { u with pollCnt := u.pollCnt + 1 }) h.env]
  simp only [h.cfg, hb, fit_of_length (show [_].length = (Machine.descriptor s .readStatus1).rxLen from rfl),
    List.getD_cons_zero, busyBit_statusByte]

theorem Facing.delayUs {s u : State} {d : Device} (h : Facing s u d) (n : Nat) :
    Facing s (delayUs n u) (d.complete (3 * u.free + 2) (nextAnswer u).after) :=
  ⟨h.cfg, h.descriptor, by simp [h.env, Env.complete]⟩

/-! ### Waits -/

/-- `e` is `d`, or what a completion at some moment makes of it. -/
def Becomes (d e : Device) : Prop := ∃ c x, e = d.complete c x

theorem Becomes.refl (d : Device) : Becomes d d := ⟨0, ⟨false, false⟩, (Device.complete_not 0 d rfl).symm⟩

theorem becomes_complete (c : Nat) (x : Completion) (d : Device) : Becomes d (d.complete c x) := ⟨c, x, rfl⟩

/-- A device completes at most once. -/
theorem Becomes.trans {d e f : Device} (h : Becomes d e) (k : Becomes e f) : Becomes d f := by
  obtain ⟨c, x, rfl⟩ := h
  obtain ⟨c', x', rfl⟩ := k
  rcases Device.complete_cases c x d with he | ⟨-, -, he⟩
  · rw [he]
    exact becomes_complete c' x' d
  · rw [Device.complete_idle c' x' (by rw [he])]
    exact becomes_complete c x d

theorem Becomes.eq_of_idle {d e : Device} (h : Becomes d e) (hd : d.busy = false) : e = d := by
  obtain ⟨c, x, rfl⟩ := h
  exact Device.complete_idle c x hd

theorem poll_result (s : State) : (poll s).1 = if (nextAnswer s).ok then .ok else .fail := rfl

theorem poll_ok_iff (s : State) : (poll s).1 = .ok ↔ (nextAnswer s).ok = true := by
  rw [poll_result]
  split <;> simp [*]

theorem pollOutcome_ended_ok {r : Result} {s : State} (h : pollOutcome r s = .ended .ok) :
    r = .ok ∧ busyBit s.srLast = false := by
  cases r with
  | fail | timeout => simp [pollOutcome] at h
  | ok =>
    refine ⟨rfl, ?_⟩
    cases hb : busyBit s.srLast with
    | false => rfl
    | true => by_cases hn : s.pollCnt = Config.pollBound <;> simp [pollOutcome, hb, hn] at h

/-- A wait only lets the device complete, and ends with `Ok` on an idle one alone (R153). -/
theorem Facing.pollLoop {s u : State} {d : Device} (h : Facing s u d) (hp : s.cfg.wf = true) (f : Nat) :
    ∃ e, Facing s (pollLoop f u).2 e ∧ Becomes d e ∧ ((pollLoop f u).1 = .ok → e.busy = false) := by
  induction f generalizing u d with
  | zero => exact ⟨d, h, .refl d, by simp [Machine.pollLoop]⟩
  | succ f ih =>
    have hpoll := h.poll hp
    have hbecomes := (becomes_complete (3 * u.free) (nextAnswer u).before d).trans
      (becomes_complete (3 * u.free + 2) (nextAnswer u).after _)
    cases ho : pollOutcome (Machine.poll u).1 (Machine.poll u).2 with
    | ended r =>
      rw [pollLoop_ended ho]
      refine ⟨_, hpoll, hbecomes, fun hr => ?_⟩
      obtain ⟨hok, hb⟩ := pollOutcome_ended_ok (ho.trans (congrArg Poll.ended hr))
      rw [h.busyBit_poll hp ((poll_ok_iff u).mp hok)] at hb
      rw [Device.complete_idle _ _ hb, hb]
    | again =>
      rw [pollLoop_again ho]
      obtain ⟨e, hf, he, hok⟩ := ih (hpoll.delayUs (Machine.poll u).2.cfg.pollDelayUs)
      exact ⟨e, hf, (hbecomes.trans (becomes_complete ..)).trans he, hok⟩

theorem Facing.waitIdle {s u : State} {d : Device} (h : Facing s u d) (hp : s.cfg.wf = true) :
    ∃ e, Facing s (waitIdle u).2 e ∧ Becomes d e ∧ ((waitIdle u).1 = .ok → e.busy = false) :=
  Facing.pollLoop (u := { u with pollCnt := 0 }) ⟨h.cfg, h.descriptor, h.env⟩ hp _

/-! ### Operations without work on an idle device -/

theorem Facing.micro_idle {s u : State} {d : Device} (h : Facing s u d) (hp : s.cfg.wf = true) (hd : d.busy = false)
    {k : BusOp} (hk : Workless k) (h1 : k ≠ .writeEnable) (h2 : k ≠ .writeDisable) :
    Facing s (Machine.micro k u).2 d := by
  have hmicro := h.micro k
  rwa [(Device.exchange_workless (Params.wf_distinct hp) hk (descriptor_opc s k) _ _ hd).2 h1 h2] at hmicro

theorem readId_workless : Workless .readId := by intro c; cases c <;> simp [BracketCmd.busOp]

/-- INIT leaves an idle device as it is (R62, R131). -/
theorem initialise_env {d : Device} (hd : d.busy = false) {s : State} (hp : s.cfg.wf = true)
    (he : s.env = .reference d) :
    (initialise s).env = .reference d := by
  have hhooked : (hooked s).env = .reference d := by
    rw [hooked_eq]
    simp only [he, Env.complete, Device.complete_idle _ _ hd]
  have hread : (readId (hooked s)).2.env = .reference d :=
    ((Facing.refl hhooked).micro_idle hp hd readId_workless (by simp) (by simp)).env
  cases hhook : (nextAnswer s).ok with
  | false => exact initialise_of_hook_fail hhook ▸ hhooked
  | true =>
    rw [initialise_of_hook_ok hhook]
    split_ifs
    · rw [concludeInit_eq, selectGeometry_eq]
      have henv : (identified s).env = .reference d := hread
      simp only [henv, Env.complete, Device.complete_idle _ _ hd]
    · exact hread

end Sys2Proof.Machine

namespace Sys2Proof.Machine

/-! ## The frame of the array (R54, R58, R71, R74) -/

/-- The address is outside the region. -/
def Outside (r : Nat × Nat) (x : Nat) : Prop := x < r.1 ∨ r.1 + r.2 ≤ x

/-- The region `q` lies in the region `r`. -/
def Within (q r : Nat × Nat) : Prop := ∀ x, Outside r x → Outside q x

theorem Work.read_apply_outside (c : Nat) {m : Memory} (h : Memory.wf m = true) (w : Work) {x : Nat}
    (hx : Outside w.range x) : Memory.read (w.apply c m) x = Memory.read m x := by
  cases w with
  | program a data => exact Memory.read_program_outside c h a data x hx
  | erase lo size =>
    refine (Memory.read_eraseRange h lo size x).trans (if_neg ?_)
    simp only [Outside, Work.range] at hx
    omega

/-- `d` comes from `d0` by work in the region `r`, done or still to do. -/
structure Confined (d0 : Device) (r : Nat × Nat) (d : Device) : Prop where
  size : d.size = d0.size
  page : d.page = d0.page
  wf : d.wf
  pending : ∀ w, d.pending = some w → Within w.range r
  touched : ∀ q ∈ d.touched, Within q r
  array : ∀ x, Outside r x → Memory.read d.mem x = Memory.read d0.mem x

theorem Confined.of_quiet {d : Device} (h : d.quiet) (hwf : d.wf) (r : Nat × Nat) : Confined d r d := by
  obtain ⟨-, hpending, htouched⟩ := h
  exact ⟨rfl, rfl, hwf, by simp [hpending], by simp [htouched], fun _ _ => rfl⟩

/-- A completion stays in the region. -/
theorem Confined.complete {d0 d : Device} {r : Nat × Nat} (h : Confined d0 r d) (c : Nat) (x : Completion) :
    Confined d0 r (d.complete c x) := by
  have hwf := Device.complete_wf c x h.wf
  rcases Device.complete_cases c x d with he | ⟨hd, hx, he⟩
  · rwa [he]
  · refine ⟨by simp [h.size], by simp [h.page], hwf, by simp [he], by simp [he], fun y hy => ?_⟩
    rw [Device.read_complete c hx hd h.wf.1 fun q hq => h.touched q hq y hy]
    cases hp : d.pending with
    | none => exact h.array y hy
    | some w => exact (Work.read_apply_outside c h.wf.1 w (h.pending w hp y hy)).trans (h.array y hy)

/-- The command stays inside the device, and its work, if it asks for any, in the region. -/
def Keeps (r : Nat × Nat) (d : Device) (k : BusOp) (cmd : Cmd) : Prop :=
  d.holds k cmd = true ∧ ∀ w, d.workOf cmd k = some w → Within w.range r

theorem Keeps.congr {r : Nat × Nat} {d e : Device} {k : BusOp} {cmd : Cmd} (h : Keeps r d k cmd)
    (hs : e.size = d.size) (hp : e.page = d.page) : Keeps r e k cmd := by
  have hholds : e.holds k cmd = d.holds k cmd := by
    cases k <;> simp [Device.holds, Device.holdsProgram, hs, hp]
  have hwork : e.workOf cmd k = d.workOf cmd k := by cases k <;> simp [Device.workOf, hs]
  exact ⟨hholds.trans h.1, hwork ▸ h.2⟩

theorem Keeps.cut {r : Nat × Nat} {d : Device} {k : BusOp} {cmd : Cmd} (h : Keeps r d k cmd) (p : Nat) :
    Keeps r d k (cmd.cut p) := by
  obtain ⟨hholds, hwork⟩ := h
  refine ⟨Device.holds_cut p hholds, ?_⟩
  cases k with
  | pageProgram =>
    rintro w ⟨⟩ x hx
    have hlen : (cmd.cut p).tx.length ≤ cmd.tx.length := List.length_take_le' ..
    have hfull := hwork _ rfl x hx
    simp only [Outside, Work.range] at hfull ⊢
    exact hfull.imp_right fun h => (Nat.add_le_add_left hlen _).trans h
  | _ => exact hwork

theorem keeps_writeEnable (r : Nat × Nat) (d : Device) (cmd : Cmd) : Keeps r d .writeEnable cmd :=
  ⟨rfl, by simp [Device.workOf]⟩

theorem keeps_writeDisable (r : Nat × Nat) (d : Device) (cmd : Cmd) : Keeps r d .writeDisable cmd :=
  ⟨rfl, by simp [Device.workOf]⟩

/-- A bracketed command keeps to its target. -/
theorem keeps_busOp {s : State} {d : Device} {c : BracketCmd} (h : d.holds c.busOp (descriptor s c.busOp) = true) :
    Keeps (target d.size s c) d c.busOp (descriptor s c.busOp) := by
  refine ⟨h, fun w hw => ?_⟩
  rw [workOf_descriptor, Option.some.injEq] at hw
  rw [← hw, workFor_range]
  exact fun _ => id

theorem Confined.latch {d0 d : Device} {r : Nat × Nat} (h : Confined d0 r d) (b : Bool) :
    Confined d0 r { d with wel := b } :=
  ⟨h.size, h.page, h.wf, h.pending, h.touched, h.array⟩

theorem Confined.start {d0 d : Device} {r : Nat × Nat} (h : Confined d0 r d) {w : Work} (hw : Within w.range r)
    (hwf : (d.start w).wf) : Confined d0 r (d.start w) :=
  ⟨h.size, h.page, hwf, by rintro _ ⟨⟩; exact hw, h.touched, h.array⟩

theorem Confined.disturb {d0 d : Device} {r q : Nat × Nat} (h : Confined d0 r d) (hq : Within q r) (c : Nat) :
    Confined d0 r (d.disturb c q) := by
  refine ⟨h.size, h.page, Device.disturb_wf c q h.wf, h.pending, fun q' hq' => ?_, fun x hx => ?_⟩
  · rcases List.mem_cons.mp hq' with rfl | hq'
    · exact hq
    · exact h.touched q' hq'
  · exact (Device.read_disturb_outside c h.wf.1 q (hq x hx)).trans (h.array x hx)

/-- A command that keeps to the region leaves the device confined, idle or busy (R71, R74 (b)). -/
theorem Confined.receive {d0 d : Device} {r : Nat × Nat} (h : Confined d0 r d) {o : Opcodes} (ho : o.distinct = true)
    {k : BusOp} {cmd : Cmd} (hcmd : cmd.opc = opcodeOf o k) (hk : Keeps r d k cmd) (c : Nat) (a : Answer)
    (any : List Byte) : Confined d0 r (d.receive o c a any cmd).2 := by
  have hwf := Device.receive_wf o c a any cmd h.wf
  rw [Device.receive_known ho hcmd] at hwf ⊢
  split_ifs at hwf ⊢ with hd
  · by_cases hread : k = .readStatus1
    · subst hread
      exact h
    · rcases Device.whenBusy_cases c a any cmd d hread with ⟨-, he⟩ | ⟨-, -, he⟩ | ⟨w, hw, he⟩ <;> rw [he]
      · exact h
      · exact h.latch _
      · dsimp only
        split_ifs
        · exact h.disturb (hk.2 w hw) _
        · exact h
  · rcases Device.whenIdle_cases c a any cmd d k hk.1 with he | ⟨-, he⟩ | ⟨-, he⟩ | ⟨-, w, hw, he⟩ <;> rw [he] at hwf ⊢
    · exact h
    · exact h.latch _
    · exact h.latch _
    · exact h.start (hk.2 w hw) hwf

theorem Confined.exchange {d0 d : Device} {r : Nat × Nat} (h : Confined d0 r d) {o : Opcodes} (ho : o.distinct = true)
    {k : BusOp} {cmd : Cmd} (hcmd : cmd.opc = opcodeOf o k) (hk : Keeps r d0 k cmd) (c : Nat) (a : Answer) :
    Confined d0 r (d.exchange o c a cmd).2 := by
  have hbefore := h.complete (3 * c) a.before
  refine Confined.complete (Device.take_state hbefore fun p => ?_) _ _
  exact hbefore.receive ho (cmd := cmd.cut p) hcmd ((hk.congr hbefore.size hbefore.page).cut p) _ _ _

/-! ### The array of a single command (O48) -/

/-- An instruction that meets a busy port waits there (R28). -/
theorem exec_busy_env {i : Instr} {s t : State} (hs : s.seq ≠ .idle) (h : exec i s = .next t) : t.env = s.env := by
  rw [exec_busy i hs] at h
  cases h
  rfl

theorem workless_of_aloneOf {i : Instr} {k : BusOp} (hi : aloneOf i = some k) (hw : writeCmdOf i = none) :
    Workless k ∧ (k = .writeEnable → i = .writeEnable) ∧ (k = .writeDisable → i = .writeDisable) := by
  cases i <;> simp only [aloneOf, reduceCtorEq, Option.some.injEq] at hi <;> subst hi <;>
    simp [writeCmdOf] at hw ⊢ <;> intro c <;> cases c <;> simp [BracketCmd.busOp]

theorem workless_of_read {k : BusOp} (hk : k = .read ∨ k = .fastRead) : Workless k := by
  rcases hk with rfl | rfl <;> intro c <;> cases c <;> simp [BracketCmd.busOp]

/-- An instruction other than a write leaves an idle device but for its latch (R62). -/
theorem exec_idle_env {i : Instr} {s t : State} {d : Device} (he : s.env = .reference d) (hd : d.busy = false)
    (hb : bracketOf i = none) (hw : writeCmdOf i = none) (h : exec i s = .next t) :
    ∃ d' : Device, t.env = .reference d' ∧ d'.mem = d.mem ∧ (i ≠ .writeEnable → i ≠ .writeDisable → d' = d) := by
  by_cases hs : s.seq = .idle
  · cases exec_ran hs h with
    | illegal w hi ht => exact ⟨d, by rw [ht]; exact he, rfl, fun _ _ => rfl⟩
    | init a n hi hp hn ht =>
      exact ⟨d, by rw [ht]; exact initialise_env hd (s := latch 0x0 a n s) hp he, rfl, fun _ _ => rfl⟩
    | alone k hi hr hin ht =>
      obtain ⟨hk, hwren, hwrdi⟩ := workless_of_aloneOf hi hw
      have hopc := descriptor_opc s k
      obtain ⟨hmem, hsame⟩ := Device.exchange_workless (Params.wf_distinct hr.2.1) hk hopc s.free (nextAnswer s) hd
      exact ⟨_, by rw [ht, runAlone_eq, respond_reference he], hmem, fun h1 h2 => hsame (h1 ∘ hwren) (h2 ∘ hwrdi)⟩
    | wait hi hr ht =>
      obtain ⟨e, hf, hbecomes, -⟩ := (Facing.refl (s := enter .wait .waitIdlePre s) he).waitIdle hr.2.1
      exact ⟨d, by rw [ht, ← hbecomes.eq_of_idle hd]; exact hf.env, rfl, fun _ _ => rfl⟩
    | read op a n k hi hr hin ht =>
      have hk := readOf_busOp hi
      obtain ⟨-, hsame⟩ := Device.exchange_workless (Params.wf_distinct hr.2.1) (workless_of_read hk)
        (descriptor_opc (latch op a n s) k) s.free (nextAnswer s) hd
      refine ⟨d, ?_, rfl, fun _ _ => rfl⟩
      rw [ht, runRead_eq hk, respond_reference (s := latch op a n s) he]
      exact congrArg Env.reference (hsame (by rcases hk with rfl | rfl <;> simp) (by rcases hk with rfl | rfl <;> simp))
    | rejected a n buf hi hr hc ht => simp [hi, bracketOf] at hb
    | bracket c hi hr hc hin ht => simp [hi] at hb
  · exact ⟨d, (exec_busy_env hs h).trans he, rfl, fun _ _ => rfl⟩

/-- A single write of the test port that comes to a next state ran its one exchange (R91). -/
theorem Ran.of_writeCmd {i : Instr} {c : BracketCmd} {s t : State} (hc : writeCmdOf i = some c) (h : Ran i s t) :
    Ready s ∧ reaches c.busOp s = true ∧ t = runAlone c.busOp (aloneSeq c.busOp) s := by
  have hbusOp : aloneOf i = some c.busOp := by
    cases i <;> simp only [writeCmdOf, reduceCtorEq, Option.some.injEq] at hc <;> subst hc <;> rfl
  cases h with
  | illegal _ hi _ | init _ _ hi _ _ _ | wait hi _ _ | rejected _ _ _ hi _ _ _ => simp [hi, writeCmdOf] at hc
  | alone k hi hr hd ht =>
    obtain rfl : k = c.busOp := Option.some.inj (hi.symm.trans hbusOp)
    exact ⟨hr, hd, ht⟩
  | read _ _ _ _ hi _ _ _ => cases i <;> simp [readOf] at hi <;> simp [writeCmdOf] at hc
  | bracket _ hi _ _ _ _ => cases i <;> simp [bracketOf] at hi <;> simp [writeCmdOf] at hc

/-- An idle device changes its array in no exchange that stays inside it, before it completes (R71). -/
theorem Device.exchange_mem {o : Opcodes} (ho : o.distinct = true) {cmd : Cmd} {k : BusOp}
    (hcmd : cmd.opc = opcodeOf o k) {d : Device} (hk : d.holds k cmd = true) (c : Nat) {a : Answer}
    (hd : d.busy = false) (ha : a.after.now = false) : (d.exchange o c a cmd).2.mem = d.mem := by
  have htake := Device.take_state (o := o) (c := 3 * c + 1) (a := a) (any := fit c cmd.rxLen a.rx) (cmd := cmd) (d := d)
    (P := fun e => e.mem = d.mem) rfl fun p => by
      rw [Device.receive_idle ho (cmd := cmd.cut p) hcmd _ _ _ hd]
      rcases Device.whenIdle_cases _ a _ (cmd.cut p) d k (Device.holds_cut p hk) with
        he | ⟨-, he⟩ | ⟨-, he⟩ | ⟨-, w, -, he⟩ <;>
        exact (congrArg Device.mem he).trans rfl
  simp only [Device.exchange, Device.complete_idle _ _ hd, Device.complete_not _ _ ha]
  exact htake

/-- Settles O48: by the ways an instruction runs, and by the exchange of a single write. -/
theorem nonBracketLeavesArray : Obligations.NonBracketLeavesArray := by
  refine ⟨fun i s t d he hd hb hw h => exec_idle_env he hd hb hw h, fun i c s t d he hd hwf hc h => ?_⟩
  by_cases hs : s.seq = .idle
  · obtain ⟨hr, hin, ht⟩ := (exec_ran hs h).of_writeCmd hc
    have ho := Params.wf_distinct hr.2.1
    have hopc := descriptor_opc s c.busOp
    rw [reaches_reference he] at hin
    refine ⟨_, ?env, Device.exchange_mem ho hopc hin s.free hd.1, ?frame⟩
    case env => rw [ht, runAlone_eq, respond_reference he]
    case frame =>
      exact ((Confined.of_quiet hd hwf _).exchange ho hopc (keeps_busOp hin) _ _).array
  · exact ⟨d, (exec_busy_env hs h).trans he, fun _ => rfl, fun _ _ => rfl⟩

end Sys2Proof.Machine

namespace Sys2Proof.Machine

/-! ## The array under a bracket (R54, R58, R160) -/

/-- `u` is a state inside an operation of `s`, and the device behind it comes from `d0` by work in the region `r`. -/
def Framed (s : State) (d0 : Device) (r : Nat × Nat) (u : State) : Prop := ∃ d, Facing s u d ∧ Confined d0 r d

theorem Framed.micro {s u : State} {d0 : Device} {r : Nat × Nat} (h : Framed s d0 r u) (hp : s.cfg.wf = true)
    {k : BusOp} (hk : Keeps r d0 k (descriptor s k)) : Framed s d0 r (micro k u).2 := by
  obtain ⟨d, hf, hd⟩ := h
  exact ⟨_, hf.micro k, hd.exchange (Params.wf_distinct hp) (descriptor_opc s k) hk _ _⟩

theorem Framed.waitIdle {s u : State} {d0 : Device} {r : Nat × Nat} (h : Framed s d0 r u) (hp : s.cfg.wf = true) :
    Framed s d0 r (waitIdle u).2 := by
  obtain ⟨d, hf, hd⟩ := h
  obtain ⟨_, he, ⟨c, x, rfl⟩, -⟩ := hf.waitIdle hp
  exact ⟨_, he, hd.complete c x⟩

theorem Framed.setSeq {s u : State} {d0 : Device} {r : Nat × Nat} (h : Framed s d0 r u) (q : Seq) :
    Framed s d0 r (setSeq q u) := by
  obtain ⟨d, hf, hd⟩ := h
  exact ⟨d, hf.setSeq q, hd⟩

/-- However a bracket ends, its work stays in the region of its command. -/
theorem Framed.writeSeq {s u : State} {d0 : Device} {r : Nat × Nat} (h : Framed s d0 r u) (hp : s.cfg.wf = true)
    {c : BracketCmd} (hc : Keeps r d0 c.busOp (descriptor s c.busOp)) : Framed s d0 r (writeSeq c u).2 :=
  andThen_state ((h.setSeq _).micro hp (keeps_writeEnable ..)) fun _ h1 =>
    andThen_state ((h1.setSeq _).waitIdle hp) fun _ h2 =>
      andThen_state ((h2.setSeq _).micro hp hc) fun _ h3 =>
        andThen_state ((h3.setSeq _).waitIdle hp) fun _ h4 => (h4.setSeq _).micro hp (keeps_writeDisable ..)

theorem runBracket_framed {s : State} {d : Device} {c : BracketCmd} (hp : s.cfg.wf = true) (he : s.env = .reference d)
    (hd : d.quiet) (hwf : d.wf) (hin : reaches c.busOp s = true) :
    ∃ d' : Device, (runBracket c s).env = .reference d' ∧ Confined d (target d.size s c) d' := by
  rw [reaches_reference he] at hin
  have hstart : Framed s d (target d.size s c) (enter (.writeClass c) .writeEnable s) :=
    ⟨d, ⟨rfl, fun _ => rfl, he⟩, Confined.of_quiet hd hwf _⟩
  obtain ⟨d', hf, hconfined⟩ := hstart.writeSeq hp (keeps_busOp hin)
  exact ⟨d', hf.env, hconfined⟩

/-- Settles O47: the frame of the bracket's parts; a page check that fails touches nothing. -/
theorem bracketChangesTargetOnly : Obligations.BracketChangesTargetOnly := by
  intro i c s t d hc hr he hd hwf h
  have henv := (latched_env i s).trans he
  rcases (exec_ran hr.1 h).of_bracket hc with ⟨rfl, -⟩ | ⟨hin, rfl⟩
  · exact ⟨d, henv, fun _ _ => rfl⟩
  · have hp : (latched i s).cfg.wf = true := (congrArg Params.wf (latched_sameSetup i s).2).trans hr.2.1
    obtain ⟨d', he', hconfined⟩ := runBracket_framed hp henv hd hwf hin
    exact ⟨d', he', hconfined.array⟩

end Sys2Proof.Machine

namespace Sys2Proof.Machine

/-! ## Good exchanges of a bracket with the reference device (R71, R160) -/

theorem micro_ok_iff (k : BusOp) (s : State) : (micro k s).1 = .ok ↔ (nextAnswer s).ok = true := by
  rw [micro_result]
  split <;> simp [*]

theorem Facing.enable {s u : State} {d : Device} (h : Facing s u d) (hp : s.cfg.wf = true) (hd : d.busy = false)
    (hok : (nextAnswer u).ok = true) : Facing s (writeEnable u).2 { d with wel := true } := by
  have hmicro := h.micro .writeEnable
  rwa [Device.exchange_idle (Params.wf_distinct hp) (descriptor_opc s .writeEnable) u.free hok hd rfl
    (by exact hd)] at hmicro

theorem Facing.disable {s u : State} {d : Device} (h : Facing s u d) (hp : s.cfg.wf = true) (hd : d.busy = false)
    (hok : (nextAnswer u).ok = true) : Facing s (writeDisable u).2 { d with wel := false } := by
  have hmicro := h.micro .writeDisable
  rwa [Device.exchange_idle (Params.wf_distinct hp) (descriptor_opc s .writeDisable) u.free hok hd rfl
    (by exact hd)] at hmicro

/-- An accepted command starts its work, which may complete at the end of the exchange (R71). -/
theorem Facing.issue {s u : State} {d : Device} (h : Facing s u d) (hp : s.cfg.wf = true) (hd : d.busy = false)
    (hwel : d.wel = true) {c : BracketCmd} (hin : d.holds c.busOp (Machine.descriptor s c.busOp) = true)
    (hok : (nextAnswer u).ok = true) :
    Facing s (Machine.micro c.busOp u).2
      ((d.start (workFor d.size s c)).complete (3 * u.free + 2) (nextAnswer u).after) := by
  have hexchange : (d.exchange s.cfg.opcodes u.free (nextAnswer u) (Machine.descriptor s c.busOp)).2 =
      (d.start (workFor d.size s c)).complete (3 * u.free + 2) (nextAnswer u).after := by
    simp [Device.exchange, Device.take, Device.complete_idle _ _ hd, hok,
      Device.receive_idle (Params.wf_distinct hp) (descriptor_opc s c.busOp) _ _ _ hd, whenIdle_busOp, Device.accept,
      workOf_descriptor, hwel, hin]
  exact hexchange ▸ h.micro c.busOp

/-- Work that was started on a quiet device and has completed is applied to its array (R71). -/
theorem Becomes.started {d e : Device} {w : Work} (h : Becomes (d.start w) e) (hd : d.quiet) (he : e.busy = false) :
    ∃ n b, e = { d with mem := w.apply n d.mem, wel := b } := by
  obtain ⟨hbusy, hpending, htouched⟩ := hd
  obtain ⟨n, x, rfl⟩ := h
  rcases Device.complete_cases n x (d.start w) with hstay | ⟨-, -, hdone⟩
  · rw [hstay] at he
    exact absurd he (by simp [Device.start])
  · refine ⟨n, x.wel, ?_⟩
    rw [hdone, Device.settled_of_untouched n (d := d.start w) htouched rfl]
    simp [Device.start, hbusy, hpending, htouched]

theorem andThen_eq_ok {x : Result × State} {k : State → Result × State} (h : (andThen x k).1 = .ok) :
    x.1 = .ok ∧ andThen x k = k x.2 := by
  rcases andThen_cases x k with ⟨hne, he⟩ | hok
  · exact absurd (he ▸ h) hne
  · exact hok

/-- What a bracket that ended with `Ok` leaves of a quiet device: its work applied, the latch clear (R160). -/
def afterWork (s : State) (d : Device) (c : BracketCmd) (n : Nat) : Device :=
  { d with mem := (workFor d.size s c).apply n d.mem, wel := false }

/-- A bracket that ends with `Ok` has done its work (R160). -/
theorem Facing.writeSeq_ok {s u : State} {d : Device} (h : Facing s u d) (hp : s.cfg.wf = true) (hd : d.quiet)
    {c : BracketCmd} (hin : d.holds c.busOp (Machine.descriptor s c.busOp) = true) (hok : (writeSeq c u).1 = .ok) :
    ∃ n, Facing s (writeSeq c u).2 (afterWork s d c n) := by
  unfold writeSeq at hok ⊢
  obtain ⟨hok1, he1⟩ := andThen_eq_ok hok
  rw [he1] at hok ⊢
  obtain ⟨-, he2⟩ := andThen_eq_ok hok
  rw [he2] at hok ⊢
  obtain ⟨hok3, he3⟩ := andThen_eq_ok hok
  rw [he3] at hok ⊢
  obtain ⟨hok4, he4⟩ := andThen_eq_ok hok
  rw [he4] at hok ⊢
  have h1 := (h.setSeq .writeEnable).enable hp hd.1 ((micro_ok_iff _ _).mp hok1)
  obtain ⟨e, h2, he, -⟩ := (h1.setSeq .waitIdlePre).waitIdle hp
  rw [he.eq_of_idle hd.1] at h2
  have h3 := (h2.setSeq .issueCommand).issue (c := c) hp hd.1 rfl hin ((micro_ok_iff _ _).mp hok3)
  obtain ⟨f, h4, hf, hidle⟩ := (h3.setSeq .waitIdlePost).waitIdle hp
  obtain ⟨n, b, rfl⟩ := ((becomes_complete _ _ _).trans hf).started (d := { d with wel := true }) hd (hidle hok4)
  exact ⟨n, (h4.setSeq .writeDisable).disable hp hd.1 ((micro_ok_iff _ _).mp hok)⟩

/-- The same of the whole operation. -/
theorem runBracket_env_of_ok {s : State} {d : Device} {c : BracketCmd} (hp : s.cfg.wf = true)
    (he : s.env = .reference d) (hd : d.quiet) (hin : reaches c.busOp s = true) (hok : (runBracket c s).res = .ok) :
    ∃ n, (runBracket c s).env = .reference (afterWork s d c n) := by
  rw [reaches_reference he] at hin
  have hstart : Facing s (enter (.writeClass c) .writeEnable s) d := ⟨rfl, fun _ => rfl, he⟩
  obtain ⟨n, hf⟩ := hstart.writeSeq_ok hp hd hin hok
  exact ⟨n, hf.env⟩

/-! ### Operations whose answers are all good (R74 (e)) -/

/-- At least `n` answers are listed, and every listed one reports success. -/
structure Supplied (n : Nat) (s : State) : Prop where
  enough : n ≤ s.answers.length
  good : ∀ a ∈ s.answers, a.ok = true

theorem Supplied.cons {n : Nat} {s : State} (h : Supplied (n + 1) s) :
    ∃ a rest, s.answers = a :: rest ∧ a.ok = true ∧ nextAnswer s = a := by
  obtain ⟨henough, hgood⟩ := h
  cases hans : s.answers with
  | nil => simp [hans] at henough
  | cons a rest => exact ⟨a, rest, rfl, hgood a (by simp [hans]), nextAnswer_of_cons hans⟩

theorem Supplied.ok {n : Nat} {s : State} (h : Supplied (n + 1) s) : (nextAnswer s).ok = true := by
  obtain ⟨a, rest, -, hok, hnext⟩ := h.cons
  rwa [hnext]

/-- After events that used up to `m` answers. -/
theorem Supplied.drop {n m k : Nat} {s t : State} (h : Supplied (n + m) s) (ht : t.answers = s.answers.drop k)
    (hk : k ≤ m) : Supplied n t := by
  obtain ⟨henough, hgood⟩ := h
  refine ⟨?_, fun a ha => hgood a (List.mem_of_mem_drop (ht ▸ ha))⟩
  rw [ht, List.length_drop]
  omega

theorem Supplied.tail {n : Nat} {s t : State} (h : Supplied (n + 1) s) (ht : t.answers = s.answers.tail) :
    Supplied n t := h.drop (k := 1) (by rw [ht, List.drop_one]) le_rfl

/-- The device is idle, or completes at the end of one of the next `m` events. -/
def CompletesWithin (m : Nat) (d : Device) (answers : List Answer) : Prop :=
  d.busy = false ∨ ∃ (j : Nat) (a : Answer), answers[j]? = some a ∧ j < m ∧ a.after.now = true

theorem Device.complete_busy_of_idle {d : Device} (h : d.busy = false) (c : Nat) (x : Completion) :
    (d.complete c x).busy = false := by rwa [Device.complete_idle c x h]

theorem CompletesWithin.before {m : Nat} {d : Device} {l : List Answer} (h : CompletesWithin m d l) (c : Nat)
    (x : Completion) : CompletesWithin m (d.complete c x) l :=
  h.imp_left fun hd => Device.complete_busy_of_idle hd c x

/-- One event takes one answer, and the device completes at its end where the answer says so. -/
theorem CompletesWithin.event {m : Nat} {d : Device} {a : Answer} {l : List Answer}
    (h : CompletesWithin (m + 1) d (a :: l)) (c : Nat) : CompletesWithin m (d.complete c a.after) l := by
  rcases h with hd | ⟨j, b, hj, hlt, hnow⟩
  · exact .inl (Device.complete_busy_of_idle hd c _)
  · cases j with
    | zero =>
      obtain rfl : a = b := by simpa using hj
      rcases Device.complete_cases c a.after d with he | ⟨-, -, he⟩
      · cases hd : d.busy with
        | false => exact .inl (Device.complete_busy_of_idle hd c _)
        | true => exact .inl (Device.complete_quiet c hnow hd).1
      · exact .inl (by rw [he])
    | succ j => exact .inr ⟨j, b, hj, by omega, hnow⟩

/-- A wait of at most `f` status reads takes at most `2 * f - 1` answers: no delay follows the last read (R153). -/
theorem pollLoop_answers {f : Nat} {s : State} (hf : 0 < f) (hc : s.pollCnt + f = Config.pollBound) :
    ∃ k, k ≤ 2 * f - 1 ∧ (pollLoop f s).2.answers = s.answers.drop k := by
  induction f generalizing s with
  | zero => exact absurd hf (by simp)
  | succ f ih =>
    have hpoll : (poll s).2.answers = s.answers.drop 1 :=
      (micro_answers .readStatus1 { s with pollCnt := s.pollCnt + 1 }).trans List.drop_one.symm
    have hcnt : (poll s).2.pollCnt = s.pollCnt + 1 := poll_pollCnt s
    cases ho : pollOutcome (poll s).1 (poll s).2 with
    | ended r => exact ⟨1, by omega, by rw [pollLoop_ended ho, hpoll]⟩
    | again =>
      have hne := (pollOutcome_again ho).2.2
      obtain ⟨k, hk, he⟩ := ih (s := delayUs (poll s).2.cfg.pollDelayUs (poll s).2) (by omega)
        (by rw [delayUs_pollCnt]; omega)
      refine ⟨k + 2, by omega, ?_⟩
      rw [pollLoop_again ho, he, delayUs_answers, hpoll, List.tail_drop, List.drop_drop, Nat.add_comm]

theorem waitIdle_answers (s : State) : ∃ k, k ≤ 999 ∧ (waitIdle s).2.answers = s.answers.drop k :=
  pollLoop_answers (f := 500) (s := { s with pollCnt := 0 }) (by omega) rfl

/-- A wait with good answers ends with `Ok` if the device is idle or completes before the last status read. -/
theorem Facing.pollLoop_ok {s u : State} {d : Device} (h : Facing s u d) (hp : s.cfg.wf = true) {f : Nat} (hf : 0 < f)
    (hc : u.pollCnt + f = Config.pollBound) (hsup : Supplied (2 * f - 1) u)
    (hin : CompletesWithin (2 * (f - 1)) d u.answers) : (Machine.pollLoop f u).1 = .ok := by
  induction f generalizing u d with
  | zero => exact absurd hf (by simp)
  | succ f ih =>
    obtain ⟨a, rest, hans, hok, hnext⟩ := hsup.cons (n := 2 * f)
    have hpoll := h.poll hp
    have hbit := h.busyBit_poll hp (hnext ▸ hok)
    have hread := (poll_ok_iff u).mpr (hnext ▸ hok)
    have hcnt : (Machine.poll u).2.pollCnt = u.pollCnt + 1 := poll_pollCnt u
    have hanswers : (Machine.poll u).2.answers = rest :=
      (micro_answers .readStatus1 { u with pollCnt := u.pollCnt + 1 }).trans (congrArg List.tail hans)
    rw [hnext] at hpoll hbit
    have hbefore := hin.before (3 * u.free) a.before
    generalize d.complete (3 * u.free) a.before = e at hpoll hbit hbefore
    cases hidle : e.busy with
    | false =>
      rw [pollLoop_ended (r := .ok) (by simp [pollOutcome, hread, hbit, hidle])]
    | true =>
      cases f with
      | zero =>
        rcases hbefore with he | ⟨j, b, -, hj, -⟩
        · simp [he] at hidle
        · simp at hj
      | succ f =>
        obtain ⟨a', rest', hrest, -, hnext'⟩ := (hsup.tail (t := (Machine.poll u).2) (n := 2 * f + 2)
          (by rw [hanswers, hans]; rfl)).cons
        have hagain : pollOutcome (Machine.poll u).1 (Machine.poll u).2 = .again := by
          rw [hread]
          exact pollOutcome_busy (hbit.trans hidle) (by omega)
        rw [pollLoop_again hagain]
        refine ih (hpoll.delayUs _) (by omega) (by rw [delayUs_pollCnt]; omega)
          (hsup.drop (m := 2) (k := 2) ?_ le_rfl) ?_
        · rw [delayUs_answers, hanswers, hans, List.drop_succ_cons, List.drop_one]
        · rw [delayUs_answers, hrest, hnext']
          rw [hans, ← hanswers, hrest] at hbefore
          exact (hbefore.event _).event _

theorem Facing.waitIdle_ok {s u : State} {d : Device} (h : Facing s u d) (hp : s.cfg.wf = true)
    (hsup : Supplied 999 u) (hin : CompletesWithin 998 d u.answers) : (Machine.waitIdle u).1 = .ok :=
  Facing.pollLoop_ok (u := { u with pollCnt := 0 }) (f := 500) ⟨h.cfg, h.descriptor, h.env⟩ hp (by omega) rfl
    ⟨hsup.enough, hsup.good⟩ hin

/-- On an idle device a wait with a good answer is one status read. -/
theorem Facing.waitIdle_idle {s u : State} {d : Device} (h : Facing s u d) (hp : s.cfg.wf = true) (hd : d.busy = false)
    (hok : (nextAnswer u).ok = true) :
    (Machine.waitIdle u).1 = .ok ∧ (Machine.waitIdle u).2.answers = u.answers.tail := by
  have hbit := Facing.busyBit_poll (u := { u with pollCnt := 0 }) ⟨h.cfg, h.descriptor, h.env⟩ hp hok
  rw [Device.complete_busy_of_idle hd] at hbit
  have hread := (poll_ok_iff { u with pollCnt := 0 }).mpr hok
  have hwait : Machine.waitIdle u = Machine.pollLoop (499 + 1) { u with pollCnt := 0 } := rfl
  rw [hwait, pollLoop_ended (r := .ok) (by simp [pollOutcome, hread, hbit])]
  exact ⟨rfl, micro_answers .readStatus1 _⟩

theorem andThen_of_ok {x : Result × State} {k : State → Result × State} (h : x.1 = .ok) : andThen x k = k x.2 := by
  unfold andThen
  rw [h]

/-- A part of a bracket that ends with `Ok` in a state `P`, and what then does the same for `Q`. -/
theorem andThen_good {P Q : State → Prop} {x : Result × State} {k : State → Result × State} (hx : x.1 = .ok ∧ P x.2)
    (hk : ∀ v, P v → (k v).1 = .ok ∧ Q (k v).2) : (andThen x k).1 = .ok ∧ Q (andThen x k).2 := by
  rw [andThen_of_ok hx.1]
  exact hk _ hx.2

/-- A bracket on the device `d`, with at least `n` good answers left, the first `k` of `l` used. -/
structure Going (s : State) (l : List Answer) (d : Device) (n k : Nat) (v : State) : Prop where
  facing : Facing s v d
  supplied : Supplied n v
  answers : v.answers = l.drop k

theorem Going.tail {s v t : State} {l : List Answer} {d e : Device} {n k : Nat} (h : Going s l d (n + 1) k v)
    (ht : Facing s t e) (hans : t.answers = v.answers.tail) : Going s l e n (k + 1) t :=
  ⟨ht, h.supplied.tail hans, by rw [hans, h.answers, List.tail_drop]⟩

/-- The command's work is in progress, and done before the last status read of the second wait. -/
def Working (s : State) (l : List Answer) (n : Nat) (v : State) : Prop :=
  ∃ e, Going s l e n 3 v ∧ CompletesWithin 998 e v.answers

section
variable {s v : State} {l : List Answer} {d : Device} {n : Nat} {c : BracketCmd}
variable (hp : s.cfg.wf = true) (hd : d.busy = false)
include hp hd

theorem Going.enable (h : Going s l d (n + 1) 0 v) :
    (writeEnable (setSeq .writeEnable v)).1 = .ok ∧
      Going s l { d with wel := true } n 1 (writeEnable (setSeq .writeEnable v)).2 :=
  ⟨(micro_ok_iff _ _).mpr h.supplied.ok,
    h.tail ((h.facing.setSeq .writeEnable).enable hp hd h.supplied.ok) (micro_answers ..)⟩

theorem Going.idleWait (h : Going s l d (n + 1) 1 v) :
    (waitIdle (setSeq .waitIdlePre v)).1 = .ok ∧ Going s l d n 2 (waitIdle (setSeq .waitIdlePre v)).2 := by
  obtain ⟨e, hf, he, -⟩ := (h.facing.setSeq .waitIdlePre).waitIdle hp
  obtain ⟨hok, hans⟩ := (h.facing.setSeq .waitIdlePre).waitIdle_idle hp hd h.supplied.ok
  exact ⟨hok, h.tail (he.eq_of_idle hd ▸ hf) hans⟩

/-- The command of the bracket, and when the device then completes. -/
theorem Going.issue (hwel : d.wel = true) (hin : d.holds c.busOp (descriptor s c.busOp) = true)
    (hdone : ∃ j a, l[j]? = some a ∧ 2 ≤ j ∧ j ≤ 1000 ∧ a.after.now = true) (h : Going s l d (n + 1) 2 v) :
    (micro c.busOp (setSeq .issueCommand v)).1 = .ok ∧
      Working s l n (micro c.busOp (setSeq .issueCommand v)).2 := by
  have hissue := (h.facing.setSeq .issueCommand).issue (c := c) hp hd hwel hin h.supplied.ok
  obtain ⟨a, rest, hans, -, hnext⟩ := h.supplied.cons
  have hwithin : CompletesWithin 999 (d.start (workFor d.size s c)) (a :: rest) := by
    obtain ⟨j, b, hj, hlo, hhi, hnow⟩ := hdone
    refine .inr ⟨j - 2, b, ?_, by omega, hnow⟩
    rw [← hans, h.answers, List.getElem?_drop, ← hj, Nat.add_sub_cancel' hlo]
  refine ⟨(micro_ok_iff _ _).mpr h.supplied.ok, _, h.tail hissue (micro_answers ..), ?_⟩
  rw [micro_answers, setSeq_answers, hans, show nextAnswer (setSeq .issueCommand v) = a from hnext]
  exact hwithin.event _

end

/-- The second wait: the device completes in time. -/
theorem Working.lastWait {s v : State} {l : List Answer} {n : Nat} (hp : s.cfg.wf = true)
    (h : Working s l (n + 999) v) :
    (waitIdle (setSeq .waitIdlePost v)).1 = .ok ∧ Supplied n (waitIdle (setSeq .waitIdlePost v)).2 := by
  obtain ⟨e, h, hin⟩ := h
  obtain ⟨m, hm, hans⟩ := waitIdle_answers (setSeq .waitIdlePost v)
  have hall : Supplied 999 v := ⟨(Nat.le_add_left 999 n).trans h.supplied.enough, h.supplied.good⟩
  exact ⟨(h.facing.setSeq .waitIdlePost).waitIdle_ok hp ⟨hall.enough, hall.good⟩ hin, h.supplied.drop hans hm⟩

/-- Under the premises of R74 (e) a bracket ends with `Ok`, after at most 1003 events. -/
theorem writeSeq_supplied {s u : State} {d : Device} (h : Facing s u d) (hp : s.cfg.wf = true) (hd : d.busy = false)
    {c : BracketCmd} (hin : d.holds c.busOp (descriptor s c.busOp) = true) {n : Nat} (hsup : Supplied (n + 1003) u)
    (hdone : ∃ j a, u.answers[j]? = some a ∧ 2 ≤ j ∧ j ≤ 1000 ∧ a.after.now = true) :
    (writeSeq c u).1 = .ok ∧ Supplied n (writeSeq c u).2 := by
  have hstart : Going s u.answers d (n + 1003) 0 u := ⟨h, hsup, rfl⟩
  refine andThen_good (hstart.enable (n := n + 1002) hp hd) fun v h1 => ?_
  refine andThen_good (h1.idleWait (n := n + 1001) (d := { d with wel := true }) hp hd) fun v h2 => ?_
  refine andThen_good (h2.issue (n := n + 1000) (d := { d with wel := true }) hp hd rfl hin hdone) fun v h3 => ?_
  refine andThen_good (h3.lastWait (n := n + 1) hp) fun v h4 => ?_
  exact ⟨(micro_ok_iff _ _).mpr h4.ok, h4.tail (micro_answers ..)⟩

/-- The same of the whole operation. -/
theorem runBracket_supplied {s : State} {d : Device} {c : BracketCmd} {n : Nat} (hp : s.cfg.wf = true)
    (he : s.env = .reference d) (hd : d.busy = false) (hin : reaches c.busOp s = true)
    (h : completesInTime (n + 1003) s) : (runBracket c s).res = .ok ∧ Supplied n (runBracket c s) := by
  obtain ⟨henough, hgood, hdone⟩ := h
  have hstart : Facing s (enter (.writeClass c) .writeEnable s) d := ⟨rfl, fun _ => rfl, he⟩
  obtain ⟨hok, hleft⟩ := writeSeq_supplied hstart hp hd (reaches_reference he _ ▸ hin) ⟨henough, hgood⟩ hdone
  exact ⟨hok, hleft.enough, hleft.good⟩

end Sys2Proof.Machine

namespace Sys2Proof.Machine

/-! ## Erasing and programming end to end (R68) -/

/-- The premises of R74 (e) speak of the answers alone. -/
theorem completesInTime_latched {n : Nat} {s : State} (i : Instr) (h : completesInTime n s) :
    completesInTime n (latched i s) := by
  unfold completesInTime
  rwa [latched_answers]

theorem latched_wf {s : State} (i : Instr) (hp : s.cfg.wf = true) : (latched i s).cfg.wf = true :=
  (congrArg Params.wf (latched_sameSetup i s).2).trans hp

/-- An erase that is done leaves its region erased and every other byte as it was (R68). -/
theorem read_afterWork_erase {s : State} {d : Device} {c : BracketCmd} (hc : c ≠ .pageProgram)
    (hm : Memory.wf d.mem = true) (n x : Nat) :
    Memory.read (afterWork s d c n).mem x =
      if (target d.size s c).1 ≤ x ∧ x < (target d.size s c).1 + (target d.size s c).2 then 0xFF
      else Memory.read d.mem x := by
  have herase : workFor d.size s c = .erase (target d.size s c).1 (target d.size s c).2 := by
    cases c with
    | pageProgram => exact absurd rfl hc
    | _ => rfl
  simp only [afterWork, herase]
  exact Memory.read_eraseRange hm _ _ x

/-- Settles O45: a bracket that ends with `Ok` has done its erase, and with good answers it ends so. -/
theorem erasedRegionReadsErased : Obligations.ErasedRegionReadsErased := by
  intro i c s d hc hne hr he hd hwf hin
  have hp := latched_wf i hr.2.1
  have henv := (latched_env i s).trans he
  have hreach := hin _ (commandOf_of_bracketOf hc)
  have hcheck : ∀ a n buf, i = .pageProgram a n buf → pageCheck (pageSize s.cfg s.geomIdx) a n = true := by
    rintro a n buf rfl
    exact absurd (Option.some.inj hc).symm hne
  obtain ⟨d', he', -⟩ := runBracket_framed hp henv hd hwf hreach
  refine ⟨_, d', exec_runs_bracket hc hr hcheck hreach, he', fun hok => ?done, fun htime => ?inTime⟩
  case done =>
    obtain ⟨n, hdone⟩ := runBracket_env_of_ok hp henv hd hreach hok
    obtain rfl := Env.reference.inj (he'.symm.trans hdone)
    exact ⟨hd, rfl, read_afterWork_erase hne hwf.1 n⟩
  case inTime =>
    exact (runBracket_supplied (n := 0) hp henv hd.1 hreach (completesInTime_latched i htime)).1

/-! ### Programming and reading back -/

section
variable {a : Addr} {n : Nat} {buf : List Byte} {s : State}

/-- PAGE_PROGRAM with a buffer of the stated length latches its operands and the buffer (R28, R81). -/
theorem latched_pageProgram (hlen : buf.length = n) :
    (latched (.pageProgram a n buf) s).reqAddr = a ∧ (latched (.pageProgram a n buf) s).txBuf = buf := by
  have htx : (loadTx buf (latch 0x3 a n s)).txBuf = buf := loadTx_txBuf_of_length hlen
  refine ⟨?_, htx⟩
  simp only [latched]
  rw [loadTx_eq]
  rfl

/-- A program that is done on an erased range leaves its data there (R68). -/
theorem readN_afterWork_program {d : Device} (hlen : buf.length = n) (hm : Memory.wf d.mem = true)
    (hff : ∀ j, j < n → Memory.read d.mem (a.toNat + j) = 0xFF) (m : Nat) :
    Memory.readN (afterWork (latched (.pageProgram a n buf) s) d .pageProgram m).mem a.toNat n = buf := by
  obtain ⟨haddr, htx⟩ := latched_pageProgram (a := a) (s := s) hlen
  have hwork : workFor d.size (latched (.pageProgram a n buf) s) .pageProgram = .program a.toNat buf := by
    simp [workFor, target, haddr, htx]
  refine List.ext_getElem? fun j => ?_
  by_cases hj : j < n
  · rw [Memory.readN_getElem? _ _ hj, List.getElem?_eq_getElem (hlen ▸ hj)]
    simp only [afterWork, hwork]
    exact congrArg some (Memory.read_program_erased m hm _ _ j (hlen ▸ hj) (hff j hj))
  · rw [List.getElem?_eq_none (by simpa using hj), List.getElem?_eq_none (by omega)]

/-- The program reaches a device with the page size of the selected entry (R74 (c)). -/
theorem reaches_pageProgram {d : Device} (hlen : buf.length = n) (he : s.env = .reference d) (hlo : a.toNat < d.size)
    (hhi : a.toNat + n ≤ d.size) (hpage : d.page = pageSize s.cfg s.geomIdx)
    (hcont : contained (.pageProgram a n buf) s) :
    reaches BracketCmd.pageProgram.busOp (latched (.pageProgram a n buf) s) = true := by
  obtain ⟨haddr, htx⟩ := latched_pageProgram (a := a) (s := s) hlen
  rw [reaches_reference ((latched_env _ s).trans he)]
  simp only [contained, ← hpage] at hcont
  simp [BracketCmd.busOp, Device.holds, Device.holdsProgram, Cmd.start, descriptor, haddr, htx, hlen, hlo, hhi, hcont]

end

/-- Settles O46: the program is applied, and the read returns the array. -/
theorem programmedDataReadsBack : Obligations.ProgrammedDataReadsBack := by
  intro a n buf s d hr hg hcont hlen he hd hwf hlo hhi hpage hff
  have hp := latched_wf (.pageProgram a n buf) hr.2.1
  have henv := (latched_env (.pageProgram a n buf) s).trans he
  have hreach := reaches_pageProgram hlen he hlo hhi hpage hcont
  have hexec := exec_bracket_contained rfl hr hg hcont hreach
  obtain ⟨hidle, hpt, hinit⟩ := (exec_ran hr.1 hexec).keeps_ready hr
  obtain ⟨d', he', hconfined⟩ := runBracket_framed hp henv hd hwf hreach
  have hdone := runBracket_env_of_ok hp henv hd hreach
  have hsupplied := runBracket_supplied (n := 1) hp henv hd.1 hreach
  generalize runBracket .pageProgram (latched (.pageProgram a n buf) s) = t at *
  have hrange : a.toNat + n ≤ d'.size := hhi.trans hconfined.size.ge
  have hreads : reaches .read (latch 0x1 a n t) = true :=
    reaches_read (.inl rfl) (s := latch 0x1 a n t) he' hrange
  refine ⟨t, _, hexec, exec_runs_read rfl ⟨hidle, hpt, hinit⟩ hreads, fun hok hread => ?data, fun htime => ?inTime⟩
  case data =>
    have hans : (nextAnswer (latch 0x1 a n t)).ok = true := by
      rw [runRead_eq (.inl rfl)] at hread
      simpa using hread
    obtain ⟨m, hafter⟩ := hdone hok
    obtain rfl := Env.reference.inj (he'.symm.trans hafter)
    obtain ⟨-, -, hrx⟩ := runRead_idle (.inl rfl) (s := latch 0x1 a n t) hpt he' hd.1 hans hrange
    exact hrx.trans (readN_afterWork_program hlen hwf.1 hff m)
  case inTime =>
    obtain ⟨hok, hleft⟩ := hsupplied (completesInTime_latched _ htime)
    refine ⟨hok, ?_⟩
    rw [runRead_eq (.inl rfl)]
    exact if_pos (Supplied.ok (n := 0) (s := latch 0x1 a n t) ⟨hleft.enough, hleft.good⟩)

end Sys2Proof.Machine
